-- ==== Sys2Proof/Config.lean ====
section
/-! DEFINITION. What an implementation of the block fixes (rule R9), and the free values: the values the spec calls
unspecified (`any`), each an opaque constant that no proof can see through. -/

namespace Sys2Proof

/-- The parameters of the block, which rule R9 leaves to the implementation. A block is built with one value of each and
never changes it (rule R29); the state carries them, so that a claim about every state is a claim about every block. -/
structure Params where
  /-- `W`: the width of the host-visible registers. -/
  w : Nat
  /-- `CPW`: the width of one entry of `MSG`. -/
  cpw : Nat
  /-- `PIXCAP`: pixels the sample memory `PIX` holds, four samples each. -/
  pixcap : Nat
  /-- `MCAP`: entries of the message memory `MSG`. -/
  mcap : Nat
  /-- `OCAP`: entries of the decoded output memory `OUT`. -/
  ocap : Nat
deriving DecidableEq, Repr

/-- The constraints of rule R9. -/
structure Params.wf (q : Params) : Prop where
  w : 1 ≤ q.w
  cpw : 8 ≤ q.cpw
  pixcap : q.pixcap < 2 ^ q.w
  mcap : q.mcap < 2 ^ q.w
  /-- Subtraction on `Nat` stops at 0, which is the `max(0, …)` of the rule. -/
  ocap : 3 * q.pixcap / 8 - 6 ≤ q.ocap

/-- The block built with room for `pixcap` pixels and `mcap` code points, and every other parameter at its default of
rule R9. -/
def Params.sized (pixcap mcap : Nat) : Params :=
  { w := 32, cpw := 21, pixcap := pixcap, mcap := mcap, ocap := 3 * pixcap / 8 - 6 }

/-- The parameters of the block that `State.reset` describes: the defaults of rule R9, and sizes for `PIXCAP` and `MCAP`,
for which it has none. DESIGN CHOICE (assumption logs 2 and 3). -/
def Params.chosen : Params := Params.sized 16777216 1048576

/-- `REG_BASE` (rules R9, R14): open, so a constant without a value. -/
opaque Config.regBase : Nat

/-- `REG_STRIDE` (rules R9, R14): open, so a constant without a value. -/
opaque Config.regStride : Nat

/-- An unspecified sample of `PIX` (rules R23, R120; 93_implementation_defined.md U2, U7): draw 0 is what an entry
holds at power-on, a later draw what an abandoned ENCODE leaves. Free value (assumption log 4). -/
opaque Config.anySample (draw address : Nat) : BitVec 8

/-- An entry of `MSG` that nothing has written since power-on (rule R24; U2): its low `CPW` bits are what the entry holds.
Free value (assumption log 4). -/
opaque Config.anyMsg (index : Nat) : Nat

/-- An unspecified entry of `OUT` (rule R25; U1, U2, U7). Free value (assumption log 4). -/
opaque Config.anyOut (draw index : Nat) : BitVec 8

/-- The working register `P` outside a command (rule R21; U8): its low `W` bits. Free value (assumption log 5). -/
opaque Config.anyP (draw : Nat) : Nat

/-- The working register `CH` outside a command (rule R21; U8). Free value (assumption log 5). -/
opaque Config.anyCh (draw : Nat) : Fin 3

/-- The working register `SR` outside a command (rule R21; U8). Free value (assumption log 5). -/
opaque Config.anySr (draw : Nat) : BitVec 8

/-- The working register `NB` outside a command (rule R21; U8). Free value (assumption log 5). -/
opaque Config.anyNb (draw : Nat) : BitVec 3

/-- The working register `BI` outside a command (rule R21; U8): its low `W + 1` bits. Free value (assumption log 5). -/
opaque Config.anyBi (draw : Nat) : Nat

/-- The working register `HOK` outside a command (rule R21; U8). Free value (assumption log 5). -/
opaque Config.anyHok (draw : Nat) : Bool

end Sys2Proof
end

