-- ==== Sys2Proof/Word.lean ====
section
/-! DEFINITION. The kinds of word of the block (rules R10, R14, R23, R24); everything is unsigned. `W` and `CPW` are
parameters, so what has their width, a register or an entry of `MSG`, is the number it holds: the writes that put a value
there keep its low bits (`registerWord`, `entryValue`), and that no value outgrows its width is part of the invariant of
Safety.lean. -/

namespace Sys2Proof

/-- A sample of `PIX`, an entry of `OUT`, a byte of a frame: 8 bits (rule R8). -/
abbrev Byte := BitVec 8

end Sys2Proof
end

