-- ==== Sys2Proof/Syntax.lean ====
section
/-! DEFINITION. The six rows of spec/opcode_table.json: the three commands a write to `CTRL` selects (rule R54) and
the three symbols a frame is made of (rules R47, R48, R52). -/

namespace Sys2Proof

/-- One constructor per row of the opcode table. A command word has no operand field (rule R55), and its ignored bits
(rule R56) are no part of the command; only `DATA` carries a value, its byte. -/
inductive Instr
  /-- `ENCODE`, `CTRL[1:0] = 0b11` (rule R71). -/
  | encode
  /-- `DECODE`, `CTRL[1:0] = 0b01` (rule R83). -/
  | decode
  /-- `NOP`, `CTRL[0] = 0` (rule R56). -/
  | nop
  /-- `MAGIC`, the five header bytes of a frame (rule R47). -/
  | magic
  /-- `DATA`, one message byte of a frame (rule R52). -/
  | data (d : Byte)
  /-- `TERM`, the terminator of a frame (rule R48). -/
  | term
deriving DecidableEq, Repr

end Sys2Proof
end

