-- ==== Sys2Proof/WellFormed.lean ====
section
/-! DEFINITION. Which terms a decoder can give back. -/

namespace Sys2Proof

/-- A `DATA` byte read from a frame is "any value but 00000000" (spec/opcode_table.json, row `DATA`; rule R57): a zero
byte is read as `TERM`. ENCODE still embeds a zero message byte, so the machine gives `data 0` its meaning too. -/
def Instr.wf : Instr → Bool
  | .encode => true
  | .decode => true
  | .nop => true
  | .magic => true
  | .data d => d != 0
  | .term => true

end Sys2Proof
end

