-- ==== Sys2Proof/Decode.lean ====
section
/-! DEFINITION. The three encodings of 30_encoding.md: the command word, the frame symbols in the bit stream, and the
bits of a byte; the decoder, then the encoder. -/

namespace Sys2Proof

/-! ### Bits of a byte and the fixed bytes of a frame -/

/-- The 8 bits of a byte in stream order, bit 7 first (rules R32, R49, R93). -/
def byteBits (b : Byte) : List Bool :=
  [b.getLsbD 7, b.getLsbD 6, b.getLsbD 5, b.getLsbD 4, b.getLsbD 3, b.getLsbD 2, b.getLsbD 1, b.getLsbD 0]

/-- The byte whose bits come in stream order: the first is worth 128, the last 1, unsigned (rules R51, R95). -/
def byteOf (b7 b6 b5 b4 b3 b2 b1 b0 : Bool) : Byte :=
  BitVec.ofNat 8 (128 * b7.toNat + 64 * b6.toNat + 32 * b5.toNat + 16 * b4.toNat
    + 8 * b3.toNat + 4 * b2.toNat + 2 * b1.toNat + b0.toNat)

/-- `MAGIC_HEADER`, the ASCII bytes of `"STEGO"` (rule R47). PRESUMED (assumption log 6): the spec marks the five
values as general knowledge. -/
def magic : List Byte := [0x53, 0x54, 0x45, 0x47, 0x4F]

/-- `MAGIC[i]` of rule R47, for `i` below 5. -/
def magicByte (i : Nat) : Byte := magic.getD i 0

/-- `TERMINATOR` (rules R8, R48). -/
def terminator : Byte := 0x00

/-- Bytes to bits, each byte's bit 7 first (rule R49). -/
def serialize (bytes : List Byte) : List Bool := bytes.flatMap byteBits

/-! ### The decoder -/

/-- Where an instruction is read: a command from the word the host writes to `CTRL`, a symbol from the bits the
multiplexer extracts. `start` says that the stream stands at frame byte 0, the only place of the header (rule R48). -/
inductive Code
  | ctrl (c : Nat)
  | stream (start : Bool) (bits : List Bool)
deriving DecidableEq, Repr

/-- Why the decoder gives no instruction. -/
inductive DecodeReject
  /-- Fewer than 8 bits are left: "No partial-byte tail … is considered" (rules R51, R89). -/
  | partialByte
deriving DecidableEq, Repr

/-- What the decoder answers: an instruction and the bits after it, or a named rejection. -/
inductive Decoded
  | instr (i : Instr) (rest : List Bool)
  | rejected (r : DecodeReject)
deriving DecidableEq, Repr

/-- The opcode map of rule R54, total: every command word selects one of the three rows, and bits `W−1 : 2` are
ignored (rule R56). -/
def decodeCommand (c : Nat) : Instr :=
  match c.testBit 0, c.testBit 1 with
  | true, true => .encode
  | true, false => .decode
  | false, _ => .nop

/-- The symbol at the head of a stream: the header at frame byte 0 (rule R47), else one whole byte, `TERM` when it is
zero (rules R57, R86) and `DATA` otherwise. -/
def decodeStream (start : Bool) (bits : List Bool) : Decoded :=
  if start && (serialize magic).isPrefixOf bits then
    .instr .magic (bits.drop 40)
  else
    match bits with
    | b7 :: b6 :: b5 :: b4 :: b3 :: b2 :: b1 :: b0 :: rest =>
      if byteOf b7 b6 b5 b4 b3 b2 b1 b0 = terminator then .instr .term rest
      else .instr (.data (byteOf b7 b6 b5 b4 b3 b2 b1 b0)) rest
    | _ => .rejected .partialByte

/-- The decoder, total on every word and every bit sequence. -/
def decode : Code → Decoded
  | .ctrl c => .instr (decodeCommand c) []
  | .stream start bits => decodeStream start bits

/-- The symbols of a stream read one after the other, at most as many as given, and the bits after them; the reading stops
at the decoder's first rejection. -/
def readSymbols : Nat → Bool → List Bool → List Instr × List Bool
  | 0, _, bits => ([], bits)
  | n + 1, start, bits =>
    match decodeStream start bits with
    | .instr i rest => (i :: (readSymbols n false rest).1, (readSymbols n false rest).2)
    | .rejected _ => ([], bits)

/-! ### The encoder -/

/-- The encoding of an instruction, its reserved bits written as 0 (rules R47, R48, R52, R54, R56). -/
def encode : Instr → Code
  | .encode => .ctrl 0x3
  | .decode => .ctrl 0x1
  | .nop => .ctrl 0x0
  | .magic => .stream true (serialize magic)
  | .data d => .stream false (byteBits d)
  | .term => .stream false (byteBits terminator)

/-- How many bits an encoding has in a block with registers of `w` bits (rule R60). -/
def Code.length (w : Nat) : Code → Nat
  | .ctrl _ => w
  | .stream _ bits => bits.length

/-! ### Words as the opcode table numbers them -/

/-- The first `n` bytes of a number, its bits 7..0 first. -/
def lowBytes : Nat → Nat → List Byte
  | 0, _ => []
  | n + 1, w => BitVec.ofNat 8 w :: lowBytes n (w / 256)

/-- The place and the bits of a table word (assumption log 7). A number of 8 bits is a frame symbol, except the exact
words of the rows `ENCODE` and `DECODE`, of which the table gives only bits 1..0; a number of 40 bits is the row
`MAGIC`, in either order its bytes may be read in; every other number is a command word. Bits above a symbol's are 0. -/
def tableCode (nbits w : Nat) : Code :=
  if nbits ≤ 8 then
    if w = 3 ∨ w = 1 then .ctrl w
    else .stream true (serialize (lowBytes 5 (w % 256)))
  else if nbits = 40 then
    if lowBytes 5 w = magic.reverse then .stream true (serialize magic)
    else .stream true (serialize (lowBytes 5 w))
  else .ctrl w

/-- The instruction the decoder reads from a table word. -/
def decodeTableWord (nbits w : Nat) : Option Instr :=
  match decode (tableCode nbits w) with
  | .instr i _ => some i
  | .rejected _ => none

end Sys2Proof
end

