-- ==== Sys2Proof/Machine/State.lean ====
section
/-! DEFINITION. The state of the block (10_state.md), the reasons a step can stop, and the state after reset. -/

namespace Sys2Proof.Machine

/-- A memory of entries of a type: those something has written, as (address, value) pairs with strictly rising addresses.
An address that is not listed holds no stored value; what a read of it gives is the free value its memory names (`pixAt`,
`msgAt`, `outAt`), so no listed entry can equal it. -/
abbrev Memory (α : Type) := List (Nat × α)

/-- The `OP` field of `STATUS` and of the command word: 1 is ENCODE, 0 is DECODE (rules R15, R18). -/
inductive Op
  | decode
  | encode
deriving DecidableEq, Repr

/-- The outcome of a command (rules R18, R100). Code 3 is never produced, so it has no constructor
(93_implementation_defined.md U9). -/
inductive Result
  | ok
  | capacityExceeded
  | notFound
deriving DecidableEq, Repr

/-- The fields of `STATUS` (rule R18). The host cannot write it and its reserved bits read as 0, so the fields are all
it holds; `Status.word` is the register as the host reads it. -/
structure Status where
  busy : Bool
  done : Bool
  result : Result
  op : Op
deriving DecidableEq, Repr

/-- The six working registers (rule R21): the cursor (`p`, `ch`) of rule R20, the shift register, the bit counter, the
frame byte index of `W + 1` bits, and the header flag. `ch` never holds 3, the alpha channel (rule R67). -/
structure Work where
  p : Nat
  ch : Fin 3
  sr : Byte
  nb : BitVec 3
  bi : Nat
  hok : Bool
deriving DecidableEq, Repr

/-- The five registers of the register port (rule R14). The rule numbers five and is silent on any other index: the model
gives the host no access to one. DESIGN CHOICE (assumption log 19). -/
inductive Reg
  | ctrl
  | npix
  | mlen
  | status
  | olen
deriving DecidableEq, Repr

/-- What the host can do (rules R14, R30, R61, R119). -/
inductive HostMove
  /-- `WR reg, v`; the port carries the low `W` bits of the number. -/
  | wrReg (r : Reg) (v : Nat)
  /-- `RD reg`. -/
  | rdReg (r : Reg)
  /-- Write of one sample. -/
  | wrPix (a : Nat) (v : Byte)
  /-- Read of one sample. -/
  | rdPix (a : Nat)
  /-- Write of one message entry, which takes the low `CPW` bits of the number. -/
  | wrMsg (i : Nat) (v : Nat)
  /-- Read of one message entry. -/
  | rdMsg (i : Nat)
  /-- Write of one output entry, "allowed and pointless" (rule R25). -/
  | wrOut (i : Nat) (v : Byte)
  /-- Read of one output entry. -/
  | rdOut (i : Nat)
  /-- The reset event, usable at any time (rule R119). -/
  | reset
deriving DecidableEq, Repr

/-- What the engine can do while `STATUS.BUSY = 1` (rule R43): the whole completion step, or a part of the reference
sequence that refines it, one frame symbol or one beat. -/
inductive EngineMove
  | complete
  | symbol
  | beat
deriving DecidableEq, Repr

/-- One move of one agent (rule R7). -/
inductive Move
  | host (m : HostMove)
  | engine (e : EngineMove)
deriving DecidableEq, Repr

/-- A value the block gave the host. -/
inductive ReadValue
  | reg (r : Reg) (v : Nat)
  | pix (a : Nat) (v : Byte)
  | msg (i : Nat) (v : Nat)
  | out (i : Nat) (v : Byte)
deriving DecidableEq, Repr

/-- Everything rule R13 gives the block, then the fields that are the model's own. -/
structure State where
  /-- `NPIX` (rule R16). -/
  npix : Nat
  /-- `MLEN` (rule R17). -/
  mlen : Nat
  /-- `STATUS` (rule R18). `CTRL` has no storage (rule R15). -/
  status : Status
  /-- `OLEN` (rule R19). -/
  olen : Nat
  /-- The working registers (rule R21). -/
  work : Work
  /-- `PIX` (rule R23). -/
  pix : Memory Byte
  /-- `MSG` (rule R24). -/
  msg : Memory Nat
  /-- `OUT` (rule R25). -/
  out : Memory Byte
  /-- The parameters the block was built with (rule R29: not state); no step changes them. The model's own (assumption
  logs 2 and 3). -/
  params : Params
  /-- Which draw the unlisted entries of `OUT` hold: every DECODE makes them unspecified anew (rule R25). The model's
  own (assumption log 4). -/
  outDraw : Nat
  /-- How many draws of free values have been made. The model's own (assumption log 4). -/
  draws : Nat
  /-- The moves still to come, the next one first: what the two agents will do, in the order they do it. The model's own
  (assumption log 8). -/
  inputs : List Move
  /-- The values the host has read, the last one first. The model's own (assumption log 8). -/
  reads : List ReadValue
deriving DecidableEq, Repr

/-- Why the machine stops with a fault (assumption log 12). Each is raised by a host move; no command and no symbol raises
one (rules R104, R45). -/
inductive Fault
  /-- Host access to `PIX` at an address of `4·PIXCAP` or more, an entry that does not exist (rules R23, R30). Safe. -/
  | absentSample
  /-- Host access to `MSG` at an index of `MCAP` or more (rules R24, R30). Safe. -/
  | absentMessageEntry
  /-- Host access to `OUT` at an index of `OCAP` or more (rules R25, R30). Safe. -/
  | absentOutputEntry
deriving DecidableEq, Repr

/-- Why the machine gives a move no meaning: the `refuse` of rule R11. -/
inductive Refusal
  /-- An instruction of the opcode table that has no meaning yet; raised by `exec` only. Safe. -/
  | notModelled (mnemonic : String)
  /-- A START with `NPIX > PIXCAP` (rules R45, R53; U4); raised by `execEncode` and `execDecode`. Safe. -/
  | npixAbovePixcap
  /-- An ENCODE START with `MLEN > MCAP` (rules R45, R53; U4); raised by `execEncode`. Safe. -/
  | mlenAboveMcap
  /-- Host access to `PIX`, `MSG` or `OUT` while `STATUS.BUSY = 1` (rules R39, R124; U3); raised by the port. Safe. -/
  | memoryAccessWhileBusy
deriving DecidableEq, Repr

/-- `STATUS` after reset: idle, not done, `OK`, DECODE (rules R18, R28). -/
def Status.reset : Status := { busy := false, done := false, result := .ok, op := .decode }

/-- The working registers at power-on: unspecified (rules R21, R28), zero here. DESIGN CHOICE (assumption log 9). -/
def Work.reset : Work := { p := 0, ch := 0, sr := 0, nb := 0, bi := 0, hok := false }

/-- The block right after its first reset (rules R28, R119): registers 0, nothing written to a memory yet, no agent
about to move. Draw 0 is what the memories hold at power-on. -/
def State.reset : State :=
  { npix := 0, mlen := 0, status := Status.reset, olen := 0, work := Work.reset,
    pix := [], msg := [], out := [],
    params := Params.chosen, outDraw := 0, draws := 1, inputs := [], reads := [] }

end Sys2Proof.Machine
end

