-- ==== Sys2Proof/Machine/Flags.lean ====
section
/-! DEFINITION. `STATUS`: the word the host reads and the only three ways its fields change (rules R18, R22). There are
no condition codes. -/

namespace Sys2Proof.Machine

/-- The codes of `RESULT` (rule R18). -/
def Result.code : Result → Nat
  | .ok => 0
  | .capacityExceeded => 1
  | .notFound => 2

/-- The `OP` bit (rules R15, R18). -/
def Op.code : Op → Nat
  | .decode => 0
  | .encode => 1

/-- `STATUS` as the host reads it (rule R18): `BUSY` bit 0, `DONE` bit 1, `RESULT` bits 3..2, `OP` bit 4, the rest 0. -/
def Status.word (t : Status) : Nat :=
  t.busy.toNat + 2 * t.done.toNat + 4 * t.result.code + 16 * t.op.code

/-- START (rules R22, R53): `OP` latched, `BUSY` set, `DONE` and `RESULT` cleared. -/
def Status.started (op : Op) : Status := { busy := true, done := false, result := .ok, op := op }

/-- Completion (rules R22, R77, R90, R107): `BUSY` cleared, `DONE` set, `RESULT` written, `OP` kept. -/
def Status.completed (t : Status) (r : Result) : Status := { t with busy := false, done := true, result := r }

end Sys2Proof.Machine
end

