-- ==== Sys2Proof/Machine/Operands.lean ====
section
/-! DEFINITION. The operands of a command (rule R55): the two registers, the message, the frame made of it, and the
arithmetic of the capacity check, exact over the naturals (rule R70). -/

namespace Sys2Proof.Machine

/-- The low `W` bits of a value, which are all the register port carries (rules R14, R33). -/
def registerWord (q : Params) (v : Nat) : Nat := v % 2 ^ q.w

/-- The low `CPW` bits of a value, which are all an entry of `MSG` holds (rule R24). -/
def entryValue (q : Params) (v : Nat) : Nat := v % 2 ^ q.cpw

/-- `N`, the pixels in use (rule R16). -/
def State.n (s : State) : Nat := s.npix

/-- `L`, the code points of the message (rule R17). -/
def State.l (s : State) : Nat := s.mlen

/-- `B = 8 × (5 + L + 1)` (rule R70). -/
def requiredBits (l : Nat) : Nat := 8 * (5 + l + 1)

/-- `C = 3 × N` (rules R68, R70). -/
def capacity (n : Nat) : Nat := 3 * n

/-- `ceil(B / 3)`, the pixels of the span (rules R10, R75). -/
def spanPixels (b : Nat) : Nat := (b + 3 - 1) / 3

/-- `M`, the whole bytes a buffer of `n` pixels yields (rules R51, R83). -/
def wholeBytes (n : Nat) : Nat := 3 * n / 8

/-- The number of entries of `OUT` a DECODE over `n` pixels can fill (rules R19, R45). -/
def outBound (n : Nat) : Nat := 3 * n / 8 - 6

/-- `ENCODE` fails exactly when this holds: the strict `B > C` (rules R70, R101). -/
abbrev State.overfull (s : State) : Prop := requiredBits s.l > capacity s.n

/-- The value listed at an address, if something wrote it. -/
def Memory.get? {α : Type} : Memory α → Nat → Option α
  | [], _ => none
  | (b, u) :: m, a => if a = b then some u else Memory.get? m a

/-- `PIX[a]` (rules R11, R37): the last value written, else what the entry held at power-on. -/
def pixAt (m : Memory Byte) (a : Nat) : Byte := (m.get? a).getD (Config.anySample 0 a)

/-- `MSG[i]` (rules R11, R24). -/
def msgAt (q : Params) (m : Memory Nat) (i : Nat) : Nat := (m.get? i).getD (entryValue q (Config.anyMsg i))

/-- `OUT[i]` (rules R11, R25): the last value written since the entry last became unspecified, else that draw. -/
def outAt (m : Memory Byte) (draw i : Nat) : Byte := (m.get? i).getD (Config.anyOut draw i)

/-- `trunc_8` of a code point, the byte embedded for it (rules R11, R52, R58). -/
def trunc8 (c : Nat) : Byte := BitVec.ofNat 8 c

/-- `zext_CPW` of a decoded byte (rules R52, R95). -/
def zextCpw (b : Byte) : Nat := b.toNat

/-- `MSG[0 .. L − 1]` (rule R17). -/
def State.message (s : State) : List Nat := (List.range s.l).map (msgAt s.params s.msg)

/-- The frame of a message (rules R48, R72): header, one byte per code point, terminator. -/
def frameBytes (message : List Nat) : List Byte := magic ++ message.map trunc8 ++ [terminator]

/-- Frame byte `j` of the message in `MSG` (rules R48, R82). -/
def State.frameByte (s : State) (j : Nat) : Byte :=
  if j < 5 then magicByte j
  else if j < 5 + s.l then trunc8 (msgAt s.params s.msg (j - 5))
  else terminator

/-- The decoded text: one code point per byte of the message (rules R25, R88). -/
def State.decodedText (s : State) : List Nat :=
  (List.range s.olen).map fun i => zextCpw (outAt s.out s.outDraw i)

/-- The index of the pixel at column `x`, row `y` of an image of width `w` (rule R31); the block never sees the three. -/
def pixelIndex (w x y : Nat) : Nat := y * w + x

/-- The position of a register on the register port (rule R14). -/
def Reg.index : Reg → Nat
  | .ctrl => 0
  | .npix => 1
  | .mlen => 2
  | .status => 3
  | .olen => 4

/-- The bus address of a register (rules R14, R115); both its terms are open. -/
def Reg.busAddress (r : Reg) : Nat := Config.regBase + r.index * Config.regStride

end Sys2Proof.Machine
end

