-- ==== Sys2Proof/Machine/Ops.lean ====
section
/-! DEFINITION. The shared operations: memory, the LSB-channel multiplexer of 40_lsb_channel_mux.md, the START, the end of
a command with or without an error (60_exceptions.md), and reset. -/

namespace Sys2Proof.Machine

/-! ### Memory -/

/-- The canonical form: strictly rising addresses. -/
abbrev Memory.wf {α : Type} (m : Memory α) : Prop := (m.map Prod.fst).Pairwise (· < ·)

/-- `MemWrite` of one entry (rule R35): sets that entry and changes no other. -/
def Memory.put {α : Type} : Memory α → Nat → α → Memory α
  | [], a, v => [(a, v)]
  | (b, u) :: m, a, v =>
    if a < b then (a, v) :: (b, u) :: m
    else if a = b then (a, v) :: m
    else (b, u) :: Memory.put m a v

/-- The entries below an index. -/
def Memory.below {α : Type} (m : Memory α) (n : Nat) : Memory α := m.filter fun e => decide (e.1 < n)

/-- The values of a list written to the entries `i`, `i + 1`, and so on. -/
def Memory.putAll {α : Type} (m : Memory α) (i : Nat) : List α → Memory α
  | [] => m
  | v :: vs => Memory.putAll (m.put i v) (i + 1) vs

/-! ### The LSB-channel multiplexer -/

/-- `SLOT(k)` (rule R63). -/
def slot (k : Nat) : Nat := 4 * (k / 3) + k % 3

/-- The alpha sample of pixel `p` (rules R31, R66). -/
def alphaAddr (p : Nat) : Nat := 4 * p + 3

/-- `ALPHA_FORCE` (rule R8). -/
def alphaForced : Byte := 255

/-- `(sample & 0xFE) | b` (rule R65). -/
def withLsb (v : Byte) (b : Bool) : Byte := (v &&& 0xFE#8) ||| (if b then 1#8 else 0#8)

/-- `sample & 1` (rule R64). -/
def lsb (v : Byte) : Bool := v.getLsbD 0

/-- `LSBGET(k)` (rule R64). -/
def lsbGet (m : Memory Byte) (k : Nat) : Bool := lsb (pixAt m (slot k))

/-- `LSBPUT(k, b)` (rule R65). -/
def lsbPut (m : Memory Byte) (k : Nat) (b : Bool) : Memory Byte := m.put (slot k) (withLsb (pixAt m (slot k)) b)

/-- `ALPHAFORCE(p)` (rule R66). -/
def alphaForce (m : Memory Byte) (p : Nat) : Memory Byte := m.put (alphaAddr p) alphaForced

/-- The bits of a list put in the slots `k`, `k + 1`, and so on (rule R74). -/
def embed (m : Memory Byte) (k : Nat) : List Bool → Memory Byte
  | [] => m
  | b :: bs => embed (lsbPut m k b) (k + 1) bs

/-- `ALPHAFORCE` of the pixels `0 .. p − 1` (rule R75). -/
def forceAlphas (m : Memory Byte) : Nat → Memory Byte
  | 0 => m
  | p + 1 => alphaForce (forceAlphas m p) p

/-- The bits of `n` slots from slot `k` on, in stream order (rule R84). -/
def extract (m : Memory Byte) (k n : Nat) : List Bool := (List.range' k n).map (lsbGet m)

/-! ### The cursor and the working registers -/

/-- The slot the cursor stands at, `k = 3·P + CH` (rule R20). -/
def Work.cursor (w : Work) : Nat := 3 * w.p + w.ch.val

/-- One advance of the cursor (rule R67). -/
def Work.advance (w : Work) : Work :=
  if w.ch = 2 then { w with ch := 0, p := w.p + 1 } else { w with ch := w.ch + 1 }

/-- As many advances as given. -/
def Work.advanceBy (w : Work) : Nat → Work
  | 0 => w
  | n + 1 => (w.advanceBy n).advance

/-- The working registers as the START leaves them (rules R21, R53). -/
def Work.started : Work := { p := 0, ch := 0, sr := 0, nb := 0, bi := 0, hok := true }

/-- The working registers outside a command: unspecified (rule R21; U8). -/
def Work.any (q : Params) (draw : Nat) : Work :=
  { p := registerWord q (Config.anyP draw), ch := Config.anyCh draw, sr := Config.anySr draw, nb := Config.anyNb draw,
    bi := Config.anyBi draw % 2 ^ (q.w + 1), hok := Config.anyHok draw }

/-! ### START and the end of a command -/

/-- The START of rule R53 on an idle block: the two contract checks of rule R45, then the registers. -/
def start (op : Op) (s : State) : Host.Outcome State Fault Refusal :=
  if s.n > s.params.pixcap then .refused .npixAbovePixcap
  else if op = .encode ∧ s.l > s.params.mcap then .refused .mlenAboveMcap
  else .next { s with status := Status.started op, olen := 0, work := Work.started }

/-- The end of a command (rules R107, R113, R137): `raise` with an error code, the plain end with `OK`. Nothing is saved
and control goes nowhere; the working registers become unspecified. There is no return operation (rule R109). -/
def finish (r : Result) (s : State) : State :=
  { s with status := s.status.completed r, work := Work.any s.params s.draws, draws := s.draws + 1 }

/-- The end of a DECODE: after it every entry of `OUT` from index `n` on is unspecified (rule R25; U1). -/
def finishDecode (r : Result) (n : Nat) (s : State) : State :=
  finish r { s with out := s.out.below n, outDraw := s.draws }

/-! ### Reset -/

/-- The samples an ENCODE of `b` frame bits may write (rules R36, R120). -/
def spanAddresses (b : Nat) : List Nat :=
  (List.range b).map slot ++ (List.range (spanPixels b)).map alphaAddr

/-- The listed samples replaced by unspecified ones. -/
def scramble (m : Memory Byte) (draw : Nat) : List Nat → Memory Byte
  | [] => m
  | a :: as => scramble (m.put a (Config.anySample draw a)) draw as

/-- What an abandoned command leaves (rule R120; U7): the span of an ENCODE that fits is unspecified, and so is all of
`OUT` after a DECODE. -/
def abandon (s : State) : State :=
  match s.status.op with
  | .encode =>
    if s.overfull then s
    else { s with pix := scramble s.pix s.draws (spanAddresses (requiredBits s.l)) }
  | .decode => { s with out := [], outDraw := s.draws }

/-- The reset event (rules R119, R120): the registers of rule R28, a running command abandoned, the working registers
unspecified, the memories not written. -/
def resetEvent (s : State) : State :=
  let a := if s.status.busy then abandon s else s
  { a with npix := 0, mlen := 0, status := Status.reset, olen := 0,
           work := Work.any s.params s.draws, draws := s.draws + 1 }

end Sys2Proof.Machine
end

