-- ==== Sys2Proof/Machine/Serial.lean ====
section
/-! DEFINITION. The serializer and the deserializer (43_bit_text_conversion.md), as functions on sequences and as the
shift register that realises them. -/

namespace Sys2Proof.Machine

/-- A bit sequence of whole bytes: what `T2B` produces (rule R94) and the only thing `B2T` takes (rule R96; U6). -/
abbrev WholeBytes := { bits : List Bool // bits.length % 8 = 0 }

theorem serialize_whole (bytes : List Byte) : (serialize bytes).length % 8 = 0 := by
  induction bytes with
  | nil => rfl
  | cons b bs ih =>
    have h : (serialize (b :: bs)).length = 8 + (serialize bs).length := by
      rw [serialize, List.flatMap_cons, List.length_append]; rfl
    omega

/-- `T2B` (rule R93): each code point gives the 8 bits of its low byte, bit 7 first. -/
def t2b (m : List Nat) : WholeBytes := ⟨serialize (m.map trunc8), serialize_whole _⟩

/-- The bytes of the groups of 8 bits at the head of a sequence, the first bit of a group the most significant (rule
R51). -/
def bytesOf : List Bool → List Byte
  | b7 :: b6 :: b5 :: b4 :: b3 :: b2 :: b1 :: b0 :: rest => byteOf b7 b6 b5 b4 b3 b2 b1 b0 :: bytesOf rest
  | _ => []

/-- `B2T` (rule R95): one byte for each group of 8 bits. -/
def b2t (s : WholeBytes) : List Byte := bytesOf s.val

/-- One beat of the deserializer (rule R99): `SR <- ((SR << 1) | bit)[7:0]`. -/
def shiftIn (sr : Byte) (bit : Bool) : Byte := (sr <<< 1) ||| (if bit then 1#8 else 0#8)

/-- The bit one beat of the serializer puts out (rule R98): `SR[7]`. -/
def shiftOutBit (sr : Byte) : Bool := sr.getLsbD 7

/-- `SR` after one beat of the serializer (rule R98): `(SR << 1)[7:0]`. -/
def shiftOut (sr : Byte) : Byte := sr <<< 1

end Sys2Proof.Machine
end

