-- ==== Sys2Proof/Machine/Decoder.lean ====
section
/-! DEFINITION. The frame decoder (42_decoder.md): the completion step of `DECODE`, the beat that refines it, and what one
whole byte of the stream does. -/

namespace Sys2Proof.Machine

/-- The bytes of the extracted stream, `M` of them, the tail of fewer than 8 bits dropped (rules R84, R85, R89). -/
def State.streamBytes (s : State) : List Byte :=
  b2t ⟨(extract s.pix 0 (3 * s.n)).take (8 * wholeBytes s.n), by
    rw [List.length_take, extract, List.length_map, List.length_range', wholeBytes]; omega⟩

/-- The payload of a stream (rules R59, R86, R87, R88): the candidate is what stands before the first zero byte, if
there is one; it must begin with the header; the message is the rest of it. -/
def parseFrame (y : List Byte) : Option (List Byte) :=
  let candidate := y.takeWhile (· != terminator)
  if candidate.length < y.length ∧ magic.isPrefixOf candidate then some (candidate.drop 5) else none

/-- The completion step of rule R83. -/
def completeDecode (s : State) : State :=
  match parseFrame s.streamBytes with
  | none => finishDecode .notFound 0 s
  | some payload =>
    finishDecode .ok payload.length
      { s with olen := payload.length, out := s.out.putAll 0 payload }

/-- What a completed byte in `SR` does (rule R92): the terminator ends the command, a header byte is compared, a payload
byte goes to `OUT`. Rule R45 bounds the entries of `OUT` the engine writes (assumption log 10). -/
def byteDone (s : State) : State :=
  let w := s.work
  let j := w.bi
  if w.sr = terminator then
    if 5 ≤ j ∧ w.hok then finishDecode .ok (j - 5) { s with olen := j - 5 }
    else finishDecode .notFound 0 s
  else if j < 5 then
    { s with work := { w with hok := w.hok && w.sr == magicByte j, bi := w.bi + 1 } }
  else
    { s with out := if j - 5 < outBound s.n then s.out.put (j - 5) w.sr else s.out,
             work := { w with bi := w.bi + 1 } }

/-- The end of a command that has reached `P = NPIX` without a stop (rules R89, R92). -/
def endExhausted (s : State) : State :=
  if s.status.busy ∧ s.n ≤ s.work.p then finishDecode .notFound 0 s else s

/-- One beat of DECODE (rule R92): one slot shifted in, the whole byte acted on at the eighth, and the end with the last
slot of the buffer (rule R135). A buffer of no pixels has no slot and ends at once (assumption log 14). -/
def decodeBeat (s : State) : State :=
  if s.work.p < s.n then
    let w := s.work
    let bit := lsb (pixAt s.pix (4 * w.p + w.ch.val))
    let t := { s with work := { w.advance with sr := shiftIn w.sr bit, nb := w.nb + 1 } }
    endExhausted (if w.nb = 7 then byteDone t else t)
  else finishDecode .notFound 0 s

/-- A byte taken from the stream whole: its 8 slots are passed, `SR` holds it (rule R99), and it acts. -/
def takeByte (s : State) (b : Byte) : State :=
  byteDone { s with work := { s.work.advanceBy 8 with sr := b } }

/-- Bytes taken in order; after the end of the command nothing more is read (rule R91). -/
def takeBytes (bytes : List Byte) (s : State) : State :=
  bytes.foldl (fun t b => if t.status.busy then takeByte t b else t) s

/-- The bits the decoder still has before it, at most the 40 of the longest symbol. -/
def State.streamAhead (s : State) : List Bool :=
  extract s.pix s.work.cursor (min 40 (3 * s.n - s.work.cursor))

/-- The next symbol of the stream being decoded (rules R48, R59, R86), or the decoder's rejection of a tail. -/
def decodeSymbol (s : State) : Decoded := decode (.stream (s.work.bi = 0) s.streamAhead)

end Sys2Proof.Machine
end

