-- ==== Sys2Proof/Machine/Encoder.lean ====
section
/-! DEFINITION. The frame encoder (41_encoder.md): the completion step of `ENCODE`, the beat that refines it, and the
frame symbols the beats emit. -/

namespace Sys2Proof.Machine

/-- The completion step of rule R71: the capacity check before any write (rules R73, R78), then the frame bits in the
slots `0 .. B − 1` (rule R74), then the alpha of the span (rule R75). -/
def completeEncode (s : State) : State :=
  if s.overfull then finish .capacityExceeded s
  else
    finish .ok { s with
      pix := forceAlphas (embed s.pix 0 (serialize (frameBytes s.message))) (spanPixels (requiredBits s.l)) }

/-- One frame bit (rule R82): the serializer shifts, the bit goes to the slot the cursor stands at, the alpha of the
pixel is forced when its last written slot is done, and the counters and the cursor move on. -/
def emitBit (s : State) : State :=
  let w := s.work
  let colour := s.pix.put (4 * w.p + w.ch.val)
    (withLsb (pixAt s.pix (4 * w.p + w.ch.val)) (shiftOutBit w.sr))
  let pix := if w.ch = 2 ∨ w.cursor = requiredBits s.l - 1 then alphaForce colour w.p else colour
  let w := { w with sr := shiftOut w.sr, nb := w.nb + 1, bi := if w.nb = 7 then w.bi + 1 else w.bi }
  { s with pix := pix, work := w.advance }

/-- One beat of ENCODE (rule R82): the capacity check, a frame bit while the cursor is below `B`, then the end. A frame
byte is loaded when `NB = 0`. -/
def encodeBeat (s : State) : State :=
  if s.overfull then finish .capacityExceeded s
  else if s.work.cursor < requiredBits s.l then
    emitBit (if s.work.nb = 0 then { s with work := { s.work with sr := s.frameByte s.work.bi } } else s)
  else finish .ok s

/-- The beats of one frame byte: the byte is loaded and shifted out, no bit of it past the end of the frame. -/
def emitByte (s : State) (b : Byte) : State :=
  (List.range 8).foldl (fun t _ => if t.work.cursor < requiredBits t.l then emitBit t else t)
    { s with work := { s.work with sr := b } }

/-- Frame bytes emitted at the cursor; the command ends with `OK` once all `B` bits are out (rule R74), and with
`CapacityExceeded` before any write when they cannot be (rule R73). -/
def emitBytes (bytes : List Byte) (s : State) : State :=
  if s.overfull then finish .capacityExceeded s
  else
    let t := bytes.foldl emitByte s
    if t.work.cursor < requiredBits t.l then t else finish .ok t

/-- The next symbol of the frame being encoded (rules R48, R82), none after the terminator. -/
def encodeSymbol (s : State) : Option Instr :=
  let j := s.work.bi
  if j = 0 then some .magic
  else if j < 5 + s.l then some (.data (s.frameByte j))
  else if j = 5 + s.l then some .term
  else none

end Sys2Proof.Machine
end

