-- ==== Sys2Proof/Machine/Commands.lean ====
section
/-! DEFINITION. The three commands of rule R54. ENCODE and DECODE run in two phases (92_eei_decisions.md D2): on an idle
block the command is accepted, the START of rule R53; on a block that is busy with it the command is carried out, the
completion step of rule R71 or R83. A `CTRL` write to a busy block never gets here: the port ignores it (rule R53). -/

namespace Sys2Proof.Machine

/-- `ENCODE` (rules R53, R71). -/
def execEncode (s : State) : Host.Outcome State Fault Refusal :=
  if s.status.busy then
    match s.status.op with
    | .encode => .next (completeEncode s)
    | .decode => .next s
  else start .encode s

/-- `DECODE` (rules R53, R83). -/
def execDecode (s : State) : Host.Outcome State Fault Refusal :=
  if s.status.busy then
    match s.status.op with
    | .encode => .next s
    | .decode => .next (completeDecode s)
  else start .decode s

/-- `NOP` (rule R56): it changes no state. -/
def execNop (s : State) : Host.Outcome State Fault Refusal := .next s

end Sys2Proof.Machine
end

