-- ==== Sys2Proof/Machine/Symbols.lean ====
section
/-! DEFINITION. The three frame symbols (rules R47, R48, R52), as the part of the reference sequence one symbol takes:
an ENCODE emits it at the cursor (rule R82), a DECODE takes it in (rule R92). On an idle block the engine touches
nothing (rule R39). -/

namespace Sys2Proof.Machine

/-- The bytes of a symbol given to whichever command runs. -/
def passBytes (bytes : List Byte) (s : State) : Host.Outcome State Fault Refusal :=
  if s.status.busy then
    match s.status.op with
    | .encode => .next (emitBytes bytes s)
    | .decode => .next (takeBytes bytes s)
  else .next s

/-- `MAGIC`: the five header bytes (rule R47). -/
def execMagic (s : State) : Host.Outcome State Fault Refusal := passBytes magic s

/-- `DATA`: one message byte (rule R52). -/
def execData (d : Byte) (s : State) : Host.Outcome State Fault Refusal := passBytes [d] s

/-- `TERM`: the zero byte that ends the frame (rule R48). -/
def execTerm (s : State) : Host.Outcome State Fault Refusal := passBytes [terminator] s

end Sys2Proof.Machine
end

