-- ==== Sys2Proof/Machine/Port.lean ====
section
/-! DEFINITION. What the two agents' moves do (rules R14, R30, R39, R53, R119): which of them run an instruction, and the
effect of the others. -/

namespace Sys2Proof.Machine

/-- What a step has to do: run an instruction in a state, or nothing more than an outcome that is already settled. -/
inductive Fetched
  | run (i : Instr) (s : State)
  | settled (o : Host.Outcome State Fault Refusal)

/-- A host read of a register, allowed at any time (rules R14, R123); `CTRL` reads as 0 (rule R15). A register of fewer
bits than `STATUS` has fields shows the low ones (assumption log 2). -/
def readReg (s : State) : Reg → Nat
  | .ctrl => 0
  | .npix => s.npix
  | .mlen => s.mlen
  | .status => registerWord s.params s.status.word
  | .olen => s.olen

/-- A host write of a register: ignored while busy (rules R16, R17, R53, R125) and to a read-only register (rule R14);
a write to `CTRL` issues the command its word selects. -/
def writeReg (s : State) (r : Reg) (v : Nat) : Fetched :=
  if s.status.busy then .settled (.next s)
  else
    match r with
    | .ctrl => .run (decodeCommand (registerWord s.params v)) s
    | .npix => .settled (.next { s with npix := registerWord s.params v })
    | .mlen => .settled (.next { s with mlen := registerWord s.params v })
    | .status => .settled (.next s)
    | .olen => .settled (.next s)

/-- A host access to a memory: refused while busy (rule R39), a fault where there is no entry (rule R30; assumption log
12). Between the completion and the host's read of `DONE = 1` it is allowed. DEDUCED (assumption log 20): rules R39 and
R112, U3 and D12 refuse only while `STATUS.BUSY = 1`, rule R124 words the hazard up to that read. -/
def hostAccess (s : State) (entries a : Nat) (absent : Fault) (t : State) : Fetched :=
  if s.status.busy then .settled (.refused .memoryAccessWhileBusy)
  else if a < entries then .settled (.next t)
  else .settled (.fault absent)

/-- One host move. -/
def hostMove (m : HostMove) (s : State) : Fetched :=
  match m with
  | .wrReg r v => writeReg s r v
  | .rdReg r => .settled (.next { s with reads := .reg r (readReg s r) :: s.reads })
  | .wrPix a v => hostAccess s (4 * s.params.pixcap) a .absentSample { s with pix := s.pix.put a v }
  | .rdPix a => hostAccess s (4 * s.params.pixcap) a .absentSample
      { s with reads := .pix a (pixAt s.pix a) :: s.reads }
  | .wrMsg i v => hostAccess s s.params.mcap i .absentMessageEntry { s with msg := s.msg.put i (entryValue s.params v) }
  | .rdMsg i => hostAccess s s.params.mcap i .absentMessageEntry
      { s with reads := .msg i (msgAt s.params s.msg i) :: s.reads }
  | .wrOut i v => hostAccess s s.params.ocap i .absentOutputEntry { s with out := s.out.put i v }
  | .rdOut i => hostAccess s s.params.ocap i .absentOutputEntry
      { s with reads := .out i (outAt s.out s.outDraw i) :: s.reads }
  | .reset => .settled (.next (resetEvent s))

/-- The command a busy block is carrying out, which `STATUS.OP` holds (rule R22). -/
def currentCommand (s : State) : Instr :=
  match s.status.op with
  | .encode => .encode
  | .decode => .decode

/-- The next frame symbol of the running command. Symbols stand at byte boundaries (rules R85, R94), so inside a byte the
move is not enabled; past the last symbol the command ends. -/
def fetchSymbol (s : State) : Fetched :=
  if s.work.nb = 0 then
    match s.status.op with
    | .encode =>
      match encodeSymbol s with
      | some i => .run i s
      | none => .settled (.next (encodeBeat s))
    | .decode =>
      match decodeSymbol s with
      | .instr i _ => .run i s
      | .rejected .partialByte => .settled (.next (finishDecode .notFound 0 s))
  else .settled (.next s)

/-- One beat of the running command. -/
def engineBeat (s : State) : State :=
  match s.status.op with
  | .encode => encodeBeat s
  | .decode => decodeBeat s

/-- One move of the engine. None is enabled on an idle block (rules R39, R118), where it changes nothing. -/
def engineMove (e : EngineMove) (s : State) : Fetched :=
  if s.status.busy then
    match e with
    | .complete => .run (currentCommand s) s
    | .symbol => fetchSymbol s
    | .beat => .settled (.next (engineBeat s))
  else .settled (.next s)

/-- The next move: the first of the input list. When the host has nothing more to do, a started command is still carried
out (rule R134), and an idle block stays as it is (rules R118, R121). -/
def fetch (s : State) : Fetched :=
  match s.inputs with
  | [] => engineMove .complete s
  | .host m :: rest => hostMove m { s with inputs := rest }
  | .engine e :: rest => engineMove e { s with inputs := rest }

/-! ### Host notation (rules R61, R62) -/

/-- `PIX[a ..] := bytes`. -/
def writePix (a : Nat) : List Byte → List Move
  | [] => []
  | v :: vs => .host (.wrPix a v) :: writePix (a + 1) vs

/-- `MSG[i ..] := cps`. -/
def writeMsg (i : Nat) : List Nat → List Move
  | [] => []
  | v :: vs => .host (.wrMsg i v) :: writeMsg (i + 1) vs

/-- `OUT[0 .. n − 1] → bytes`. -/
def readOut (n : Nat) : List Move := (List.range n).map fun i => .host (.rdOut i)

/-- `WAIT`: the engine's completion step occurs and the host reads `DONE = 1`. -/
def wait : List Move := [.engine .complete, .host (.rdReg .status)]

/-- The pseudo-operation `ENCODE n, text`. -/
def encodeProgram (n : Nat) (text : List Nat) : List Move :=
  writeMsg 0 text
    ++ [.host (.wrReg .npix n), .host (.wrReg .mlen text.length), .host (.wrReg .ctrl 3)]
    ++ wait ++ [.host (.rdReg .status)]

/-- The pseudo-operation `DECODE n`, up to the read of `OLEN`; `readOut` of that value follows it. -/
def decodeProgram (n : Nat) : List Move :=
  [.host (.wrReg .npix n), .host (.wrReg .ctrl 1)] ++ wait ++ [.host (.rdReg .status), .host (.rdReg .olen)]

/-- The pseudo-operation `NOP`. -/
def nopProgram : List Move := [.host (.wrReg .ctrl 0)]

/-! ### Placing an instruction where the next step runs it (assumption log 8) -/

/-- A sample that holds a frame bit, its other bits as they were where something wrote them. -/
def placeBit (m : Memory Byte) (k : Nat) (b : Bool) : Memory Byte :=
  m.put (slot k) (withLsb ((m.get? (slot k)).getD 0) b)

/-- The bits of a list placed in the slots from `k` on. -/
def placeBits (m : Memory Byte) (k : Nat) : List Bool → Memory Byte
  | [] => m
  | b :: bs => placeBits (placeBit m k b) (k + 1) bs

/-- The state in which the next step runs the instruction of a code: a host about to write a command word to an idle
block, or a DECODE that stands at the first slot of a buffer holding the symbol's bits. -/
def place (c : Code) (s : State) : State :=
  match c with
  | .ctrl w => { s with status := { s.status with busy := false }, inputs := .host (.wrReg .ctrl w) :: s.inputs }
  | .stream _ bits =>
    { s with npix := if s.n < 14 then 14 else s.npix, status := Status.started .decode, work := Work.started,
             pix := placeBits s.pix 0 bits, inputs := .engine .symbol :: s.inputs }

end Sys2Proof.Machine
end

