-- ==== Sys2Proof/Machine/Dispatch.lean ====
section
/-! DEFINITION. One arm per constructor of `Instr`. -/

namespace Sys2Proof.Machine

def exec (i : Instr) (s : State) : Host.Outcome State Fault Refusal :=
  match i with
  | .encode => Sys2Proof.Machine.execEncode s
  | .decode => Sys2Proof.Machine.execDecode s
  | .nop => Sys2Proof.Machine.execNop s
  | .magic => Sys2Proof.Machine.execMagic s
  | .data d => Sys2Proof.Machine.execData d s
  | .term => Sys2Proof.Machine.execTerm s

end Sys2Proof.Machine
end

