-- ==== Sys2Proof/Machine/Step.lean ====
section
/-! DEFINITION. One step of the block: the next move of one of its two agents. -/

namespace Sys2Proof.Machine

/-- One move (rules R7, R43): the instruction it issues is run, any other move has the effect `fetch` settles. -/
def step (s : State) : Host.Outcome State Fault Refusal :=
  match fetch s with
  | .run i t => exec i t
  | .settled o => o

/-- The state with an instruction, given as the opcode table numbers its bits, where the next step runs it. -/
def State.withFetchWord (s : State) (nbits w : Nat) : State := place (tableCode nbits w) s

end Sys2Proof.Machine
end

