-- ==== Sys2Proof/Safety.lean ====
section
/-! DEFINITION. What claims about the block are stated in: the invariant of its states, the observations of the host, and
the bytes of a stream by their formula. -/

namespace Sys2Proof.Machine

/-! ### The invariant -/

/-- The memories are in canonical form and list only entries that exist (rules R23, R24, R25). -/
structure State.MemoryInv (s : State) : Prop where
  pixWf : s.pix.wf
  msgWf : s.msg.wf
  outWf : s.out.wf
  pixBound : ∀ e ∈ s.pix, e.1 < 4 * s.params.pixcap
  msgBound : ∀ e ∈ s.msg, e.1 < s.params.mcap
  outBound : ∀ e ∈ s.out, e.1 < s.params.ocap

/-- Every register and entry holds a value of its width (rules R14, R21, R24). -/
structure State.WidthInv (s : State) : Prop where
  npix : s.npix < 2 ^ s.params.w
  mlen : s.mlen < 2 ^ s.params.w
  olen : s.olen < 2 ^ s.params.w
  p : s.work.p < 2 ^ s.params.w
  bi : s.work.bi < 2 ^ (s.params.w + 1)
  entries : ∀ e ∈ s.msg, e.2 < 2 ^ s.params.cpw

/-- The values `STATUS` and `OLEN` can have (rules R18, R19; the table of 95_test_vectors.md T9). -/
structure State.ResultInv (s : State) : Prop where
  busyNotDone : s.status.busy = true → s.status.done = false
  busyOk : s.status.busy = true → s.status.result = .ok
  errorDone : s.status.result ≠ .ok → s.status.done = true
  capacityOfEncode : s.status.result = .capacityExceeded → s.status.op = .encode
  notFoundOfDecode : s.status.result = .notFound → s.status.op = .decode
  busyOlen : s.status.busy = true → s.olen = 0
  encodeOlen : s.status.op = .encode → s.olen = 0
  errorOlen : s.status.result ≠ .ok → s.olen = 0
  olenBound : s.olen ≤ s.params.ocap

/-- A running command: its operands are within the memories (rule R45), the frame byte index and the bit counter say where
the cursor stands (rules R20, R21), and the cursor stays within the frame or the buffer. -/
structure State.CommandInv (s : State) : Prop where
  pixels : s.status.busy = true → s.n ≤ s.params.pixcap
  entries : s.status.busy = true → s.status.op = .encode → s.l ≤ s.params.mcap
  aligned : s.status.busy = true → 8 * s.work.bi + s.work.nb.toNat = s.work.cursor
  encodeCursor : s.status.busy = true → s.status.op = .encode →
    s.work.cursor = 0 ∨ (requiredBits s.l ≤ capacity s.n ∧ s.work.cursor ≤ requiredBits s.l)
  decodeCursor : s.status.busy = true → s.status.op = .decode → s.work.cursor ≤ 3 * s.n

/-- The invariant of the block: it holds after reset and every step keeps it. -/
structure State.Inv (s : State) : Prop where
  params : s.params.wf
  memory : s.MemoryInv
  widths : s.WidthInv
  result : s.ResultInv
  command : s.CommandInv

/-! ### Observations -/

/-- A sample of the buffer. -/
def State.pixel (s : State) (a : Nat) : Byte := pixAt s.pix a

/-- A message entry. -/
def State.entry (s : State) (i : Nat) : Nat := msgAt s.params s.msg i

/-- An output entry. -/
def State.output (s : State) (i : Nat) : Byte := outAt s.out s.outDraw i

/-- The decoded message: `OUT[0 .. OLEN − 1]` (rule R25). -/
def State.decodedBytes (s : State) : List Byte := (List.range s.olen).map s.output

/-- A state carrying out a command. -/
def State.Running (s : State) (op : Op) : Prop := s.status.busy = true ∧ s.status.op = op

/-- A state in which a `CTRL` write with `START` is accepted as the given command (rule R53). -/
def State.Accepts (s : State) (op : Op) : Prop :=
  s.status.busy = false ∧ s.n ≤ s.params.pixcap ∧ (op = .encode → s.l ≤ s.params.mcap)

/-! ### Frames and streams by their formulas -/

/-- Frame bit `f[k]` of the message in `MSG`: bit `7 − k mod 8` of frame byte `k div 8` (rule R49). -/
def State.frameBit (s : State) (k : Nat) : Bool := (s.frameByte (k / 8)).getLsbD (7 - k % 8)

/-- Byte `j` of the extracted stream, `Σ s[8j + i]·2^(7 − i)` (rule R51). -/
def State.streamByte (s : State) (j : Nat) : Nat :=
  ((List.range 8).map fun i => (lsbGet s.pix (8 * j + i)).toNat * 2 ^ (7 - i)).sum

/-- The terminator of the stream stands at byte `t`: the first zero byte (rule R86). -/
def State.TerminatorAt (s : State) (t : Nat) : Prop :=
  t < wholeBytes s.n ∧ s.streamByte t = 0 ∧ ∀ j < t, s.streamByte j ≠ 0

/-- The first five bytes of the stream are the header (rule R87). -/
def State.HeaderMatches (s : State) : Prop := ∀ i < 5, s.streamByte i = (magicByte i).toNat

/-- `SR` after a number of beats of the serializer (rule R98). -/
def shiftOutBy (sr : Byte) : Nat → Byte
  | 0 => sr
  | n + 1 => shiftOut (shiftOutBy sr n)

/-! ### Runs -/

/-- A command issued on an idle block and carried out: the two phases of 92_eei_decisions.md D2 after one another. -/
def Issued (i : Instr) (s t : State) : Prop :=
  ∃ u, exec i s = .next u ∧ exec i u = .next t

end Sys2Proof.Machine
end

