-- ==== Sys2Proof/Certificates/Slice0/Obligations.lean ====
section
/-! DEFINITION. The statements about the block, from the numbered rules of the spec. -/

open Sys2Proof Sys2Proof.Machine

/-! ### Encodings (30_encoding.md) -/

/-- The opcode map of rule R54: a word selects the row whose `match` it equals under the row's `mask`, and every word
selects one. -/
def Obligations.CommandWordSelectsItsRow : Prop :=
  ∀ c : Nat,
    (c &&& 0x3 = 0x3 → decodeCommand c = .encode) ∧
    (c &&& 0x3 = 0x1 → decodeCommand c = .decode) ∧
    (c &&& 0x1 = 0x0 → decodeCommand c = .nop) ∧
    (c &&& 0x3 = 0x3 ∨ c &&& 0x3 = 0x1 ∨ c &&& 0x1 = 0x0)

/-- A few words written out from rules R47, R48, R54 (95_test_vectors.md T9, T3) decode to what they stand for. -/
def Obligations.TableWordsDecode : Prop :=
  decode (.ctrl 0x3) = .instr .encode [] ∧ decode (.ctrl 0x1) = .instr .decode [] ∧
  decode (.ctrl 0x2) = .instr .nop [] ∧ decode (.ctrl 0xFFFFFFFD) = .instr .decode [] ∧
  decode (.stream true
    [false, true, false, true, false, false, true, true, false, true, false, true, false, true, false, false,
     false, true, false, false, false, true, false, true, false, true, false, false, false, true, true, true,
     false, true, false, false, true, true, true, true]) = .instr .magic [] ∧
  decode (.stream false [false, true, true, false, true, false, false, false]) = .instr (.data 0x68#8) [] ∧
  decode (.stream false [false, false, false, false, false, false, false, false]) = .instr .term [] ∧
  decode (.stream false [false, false, false]) = .rejected .partialByte

/-- Decoding the encoding of a well-formed instruction gives it back with nothing left, a symbol in a longer stream gives
it back with the rest, and the one ill-formed term, `DATA` of a zero byte, is read as `TERM` (rule R57). -/
def Obligations.DecodeOfEncodeIsIdentity : Prop :=
  (∀ i : Instr, i.wf = true → decode (encode i) = .instr i []) ∧
  (∀ (i : Instr) (start : Bool) (bits rest : List Bool), i.wf = true → encode i = .stream start bits →
    decode (.stream start (bits ++ rest)) = .instr i rest) ∧
  decode (encode (.data 0#8)) = .instr .term []

/-- The bits of a whole frame, whatever follows them, are read as its symbols: the header, one `DATA` per message byte,
the terminator (rules R48, R60). -/
def Obligations.WholeFrameDecodesToItsSymbols : Prop :=
  ∀ (payload : List Byte) (rest : List Bool), (∀ d ∈ payload, d ≠ 0#8) →
    readSymbols (payload.length + 2) true (serialize (magic ++ payload ++ [0#8]) ++ rest) =
      (.magic :: payload.map .data ++ [.term], rest)

/-! ### Steps and the register port -/

/-- A step on an idle block whose next move is a write to `CTRL` runs the instruction its word decodes to. -/
def Obligations.StepRunsTheIssuedCommand : Prop :=
  ∀ (s : State) (c : Nat) (rest : List Move) (i : Instr) (bits : List Bool),
    s.inputs = .host (.wrReg .ctrl c) :: rest → s.status.busy = false →
    decode (.ctrl (registerWord s.params c)) = .instr i bits →
    step s = exec i { s with inputs := rest }

/-- A step in which the engine completes runs the command that `STATUS.OP` names; so does a step of a busy block when no
move is left (rule R134). -/
def Obligations.StepCarriesOutTheRunningCommand : Prop :=
  ∀ (s : State) (rest : List Move), s.status.busy = true →
    (s.inputs = .engine .complete :: rest → s.status.op = .encode → step s = exec .encode { s with inputs := rest }) ∧
    (s.inputs = .engine .complete :: rest → s.status.op = .decode → step s = exec .decode { s with inputs := rest }) ∧
    (s.inputs = [] → s.status.op = .encode → step s = exec .encode s) ∧
    (s.inputs = [] → s.status.op = .decode → step s = exec .decode s)

/-- A step in which the engine takes a frame symbol runs it. That a step may be one symbol, and which, is the model's
reading, DEDUCED (assumption log 15): in DECODE it is what the bits at the cursor decode to, and a tail that is no byte
ends the command, as rule R89 ends it; in ENCODE it is the symbol that rule R48 has at frame byte `BI`. -/
def Obligations.StepRunsTheNextSymbol : Prop :=
  ∀ (s : State) (rest : List Move), s.inputs = .engine .symbol :: rest → s.status.busy = true → s.work.nb = 0 →
    (s.status.op = .decode →
      (∀ i bits, decode (.stream (s.work.bi = 0) s.streamAhead) = .instr i bits →
        step s = exec i { s with inputs := rest }) ∧
      (decode (.stream (s.work.bi = 0) s.streamAhead) = .rejected .partialByte →
        ∃ t, step s = .next t ∧ t.status = s.status.completed .notFound)) ∧
    (s.status.op = .encode →
      (s.work.bi = 0 → step s = exec .magic { s with inputs := rest }) ∧
      (0 < s.work.bi → s.work.bi < 5 + s.l →
        step s = exec (.data (s.frameByte s.work.bi)) { s with inputs := rest }) ∧
      (s.work.bi = 5 + s.l → step s = exec .term { s with inputs := rest }))

/-- Rule R53: the effect of a write to `CTRL`, `c` the `W` bits of the value written, and that the command then completes
by the completion step of the `OP` it latched. -/
def Obligations.CtrlWriteStartsACommand : Prop :=
  (∀ (s : State) (v c : Nat) (rest : List Move), s.inputs = .host (.wrReg .ctrl v) :: rest →
    c = v % 2 ^ s.params.w →
    (s.status.busy = true → step s = .next { s with inputs := rest }) ∧
    (s.status.busy = false → c.testBit 0 = false → step s = .next { s with inputs := rest }) ∧
    (s.status.busy = false → c.testBit 0 = true →
      (s.params.pixcap < s.n → step s = .refused .npixAbovePixcap) ∧
      (s.n ≤ s.params.pixcap → c.testBit 1 = true → s.params.mcap < s.l → step s = .refused .mlenAboveMcap) ∧
      (s.n ≤ s.params.pixcap → (c.testBit 1 = true → s.l ≤ s.params.mcap) →
        step s = .next { s with
          inputs := rest
          status := { busy := true, done := false, result := .ok, op := if c.testBit 1 then .encode else .decode }
          olen := 0
          work := { p := 0, ch := 0, sr := 0, nb := 0, bi := 0, hok := true } }))) ∧
  (∀ (s : State) (rest : List Move), s.inputs = .engine .complete :: rest → s.status.busy = true →
    (s.status.op = .encode → step s = .next (completeEncode { s with inputs := rest })) ∧
    (s.status.op = .decode → step s = .next (completeDecode { s with inputs := rest })))

/-- Rule R56: `NOP`, the ignored bits of a command word, and that no write to `CTRL` faults. -/
def Obligations.CtrlWriteWithoutStartIsNop : Prop :=
  (∀ s : State, exec .nop s = .next s) ∧
  (∀ (s : State) (c : Nat) (rest : List Move), s.inputs = .host (.wrReg .ctrl c) :: rest →
    (c.testBit 0 = false → step s = .next { s with inputs := rest }) ∧
    (s.status.busy = true → step s = .next { s with inputs := rest }) ∧
    (∀ r, step s ≠ .fault r)) ∧
  (∀ (s : State) (c c' : Nat) (rest : List Move), c.testBit 0 = c'.testBit 0 → c.testBit 1 = c'.testBit 1 →
    step { s with inputs := .host (.wrReg .ctrl c) :: rest } =
      step { s with inputs := .host (.wrReg .ctrl c') :: rest })

/-- Rule R125: a write to `NPIX`, `MLEN` or `CTRL` while `STATUS.BUSY = 1` has no effect and is not queued. -/
def Obligations.RegisterWritesWhileBusyAreLost : Prop :=
  ∀ (s : State) (r : Reg) (v : Nat) (rest : List Move), r = .npix ∨ r = .mlen ∨ r = .ctrl →
    s.inputs = .host (.wrReg r v) :: rest → s.status.busy = true → step s = .next { s with inputs := rest }

/-- The register port (rules R14 to R19): what each register reads as, at any time, and what a write to each but `CTRL`
does on an idle block: `NPIX` and `MLEN` take the `W` bits of the value written, and one of `W` bits is stored as it is.
Reading has no other effect. What `STATUS` reads as with `W` below 5 is the model's reading, DEDUCED (assumption log 2). -/
def Obligations.RegisterPortReadsAndWrites : Prop :=
  ∀ (s : State) (rest : List Move),
    (∀ r, s.inputs = .host (.rdReg r) :: rest →
      step s = .next { s with
        inputs := rest
        reads := .reg r (match r with
          | .ctrl => 0 | .npix => s.npix | .mlen => s.mlen | .status => s.status.word % 2 ^ s.params.w
          | .olen => s.olen) :: s.reads }) ∧
    (5 ≤ s.params.w → s.status.word % 2 ^ s.params.w = s.status.word) ∧
    (∀ v, s.status.busy = false →
      (s.inputs = .host (.wrReg .npix v) :: rest →
        step s = .next { s with inputs := rest, npix := v % 2 ^ s.params.w }) ∧
      (s.inputs = .host (.wrReg .mlen v) :: rest →
        step s = .next { s with inputs := rest, mlen := v % 2 ^ s.params.w })) ∧
    (∀ v, v < 2 ^ s.params.w → v % 2 ^ s.params.w = v) ∧
    (∀ v, s.inputs = .host (.wrReg .status v) :: rest → step s = .next { s with inputs := rest }) ∧
    (∀ v, s.inputs = .host (.wrReg .olen v) :: rest → step s = .next { s with inputs := rest })

/-- The fields of the `STATUS` word (rule R18): `BUSY` bit 0, `DONE` bit 1, `RESULT` bits 3..2, `OP` bit 4, the rest 0. -/
def Obligations.StatusWordHoldsItsFields : Prop :=
  ∀ t : Status,
    t.word.testBit 0 = t.busy ∧ t.word.testBit 1 = t.done ∧
    (t.word >>> 2) &&& 3 = (match t.result with | .ok => 0 | .capacityExceeded => 1 | .notFound => 2) ∧
    t.word.testBit 4 = (t.op == .encode) ∧
    ∀ i, 5 ≤ i → t.word.testBit i = false

/-! ### The host and the memories (20_memory.md) -/

/-- A host access to `PIX`, `MSG` or `OUT` while `STATUS.BUSY = 1` is outside the contract (rule R39, item 5). -/
def Obligations.MemoryAccessWhileBusyIsRefused : Prop :=
  ∀ (s : State) (m : HostMove) (rest : List Move), s.status.busy = true → s.inputs = .host m :: rest →
    (∃ a v, m = .wrPix a v) ∨ (∃ a, m = .rdPix a) ∨ (∃ i v, m = .wrMsg i v) ∨ (∃ i, m = .rdMsg i) ∨
      (∃ i v, m = .wrOut i v) ∨ (∃ i, m = .rdOut i) →
    step s = .refused .memoryAccessWhileBusy

/-- A host write on an idle block sets one entry and changes nothing else (rule R35); an entry of `MSG` has `CPW` bits. That
an idle block takes it before the host has read `DONE = 1` is the model's reading, DEDUCED (assumption log 20). -/
def Obligations.HostMemoryWriteSetsOneEntry : Prop :=
  ∀ (s : State) (rest : List Move), s.status.busy = false →
    (∀ a v, s.inputs = .host (.wrPix a v) :: rest → a < 4 * s.params.pixcap →
      ∃ t, step s = .next t ∧ t.pixel a = v ∧ (∀ b, b ≠ a → t.pixel b = s.pixel b) ∧
        t = { s with inputs := rest, pix := t.pix }) ∧
    (∀ i v, s.inputs = .host (.wrMsg i v) :: rest → i < s.params.mcap →
      ∃ t, step s = .next t ∧ t.entry i = v % 2 ^ s.params.cpw ∧ (∀ j, j ≠ i → t.entry j = s.entry j) ∧
        t = { s with inputs := rest, msg := t.msg }) ∧
    (∀ i v, s.inputs = .host (.wrOut i v) :: rest → i < s.params.ocap →
      ∃ t, step s = .next t ∧ t.output i = v ∧ (∀ j, j ≠ i → t.output j = s.output j) ∧
        t = { s with inputs := rest, out := t.out })

/-- A host read on an idle block gives the entry and changes nothing (rules R35, R37). That an idle block gives it before
the host has read `DONE = 1` is the model's reading, DEDUCED (assumption log 20). -/
def Obligations.HostMemoryReadGivesTheEntry : Prop :=
  ∀ (s : State) (rest : List Move), s.status.busy = false →
    (∀ a, s.inputs = .host (.rdPix a) :: rest → a < 4 * s.params.pixcap →
      step s = .next { s with inputs := rest, reads := .pix a (s.pixel a) :: s.reads }) ∧
    (∀ i, s.inputs = .host (.rdMsg i) :: rest → i < s.params.mcap →
      step s = .next { s with inputs := rest, reads := .msg i (s.entry i) :: s.reads }) ∧
    (∀ i, s.inputs = .host (.rdOut i) :: rest → i < s.params.ocap →
      step s = .next { s with inputs := rest, reads := .out i (s.output i) :: s.reads })

/-- An access of an idle block's host to an entry outside the ranges of rule R30 faults: the model's choice (assumption
log 12), since the rule gives the ranges and no effect beyond them. -/
def Obligations.AbsentEntryFaults : Prop :=
  ∀ (s : State) (rest : List Move), s.status.busy = false →
    (∀ a v, 4 * s.params.pixcap ≤ a →
      (s.inputs = .host (.wrPix a v) :: rest → step s = .fault .absentSample) ∧
      (s.inputs = .host (.rdPix a) :: rest → step s = .fault .absentSample)) ∧
    (∀ i v, s.params.mcap ≤ i →
      (s.inputs = .host (.wrMsg i v) :: rest → step s = .fault .absentMessageEntry) ∧
      (s.inputs = .host (.rdMsg i) :: rest → step s = .fault .absentMessageEntry)) ∧
    (∀ i v, s.params.ocap ≤ i →
      (s.inputs = .host (.wrOut i v) :: rest → step s = .fault .absentOutputEntry) ∧
      (s.inputs = .host (.rdOut i) :: rest → step s = .fault .absentOutputEntry))

/-- What only the host writes, and not while a command runs: `MSG` by a write of an entry, `NPIX` and `MLEN` by a register
write or a reset (rules R16, R17, R24, R42); on an idle block `PIX` and `OUT` too change only by a host write of an entry
(rule R39, item 1). The parameters of the block never change (rule R29). -/
def Obligations.OnlyTheHostWritesTheOperands : Prop :=
  ∀ s t : State, step s = .next t →
    t.params = s.params ∧
    (t.msg ≠ s.msg → s.status.busy = false ∧ ∃ i v, s.inputs.head? = some (.host (.wrMsg i v))) ∧
    (t.npix ≠ s.npix → s.inputs.head? = some (.host .reset) ∨
      (s.status.busy = false ∧ ∃ v, s.inputs.head? = some (.host (.wrReg .npix v)))) ∧
    (t.mlen ≠ s.mlen → s.inputs.head? = some (.host .reset) ∨
      (s.status.busy = false ∧ ∃ v, s.inputs.head? = some (.host (.wrReg .mlen v)))) ∧
    (s.status.busy = false → t.pix ≠ s.pix → ∃ a v, s.inputs.head? = some (.host (.wrPix a v))) ∧
    (s.status.busy = false → t.out ≠ s.out ∨ t.outDraw ≠ s.outDraw →
      ∃ i v, s.inputs.head? = some (.host (.wrOut i v)))

/-! ### The multiplexer (40_lsb_channel_mux.md) -/

/-- `SLOT` (rule R63): its formula, the pixel and the channel of a slot, its properties, its corner cases and example. -/
def Obligations.SlotProperties : Prop :=
  (∀ k, slot k = 4 * (k / 3) + k % 3 ∧ slot k / 4 = k / 3 ∧ slot k % 4 = k % 3) ∧
  (∀ j k, j < k → slot j < slot k) ∧ (∀ j k, slot j = slot k → j = k) ∧ (∀ k, slot k % 4 ≠ 3) ∧
  (∀ k n, slot k < 4 * n ↔ k < 3 * n) ∧ (∀ a, a % 4 ≠ 3 → slot (3 * (a / 4) + a % 4) = a) ∧
  slot 0 = 0 ∧ (∀ n, 1 ≤ n → slot (3 * n - 1) = 4 * n - 2) ∧
  (List.range 8).map slot = [0, 1, 2, 4, 5, 6, 8, 9] ∧ slot 63 = 84

/-- `LSBPUT(k, b)` (rule R65): the sample becomes `(sample & 0xFE) | b`, so the slot's bit becomes `b`, no other slot's bit
changes, bits 7 to 1 of the sample and all other samples stay, and the sample changes by at most 1; the corner cases. -/
def Obligations.LsbPutReplacesOneBit : Prop :=
  ∀ (m : Memory Byte) (k : Nat) (b : Bool),
    pixAt (lsbPut m k b) (slot k) = (pixAt m (slot k) &&& 0xFE#8) ||| BitVec.zeroExtend 8 (BitVec.ofBool b) ∧
    lsbGet (lsbPut m k b) k = b ∧
    (∀ j, j ≠ k → lsbGet (lsbPut m k b) j = lsbGet m j) ∧
    (∀ i, 1 ≤ i → (pixAt (lsbPut m k b) (slot k)).getLsbD i = (pixAt m (slot k)).getLsbD i) ∧
    (∀ a, a ≠ slot k → pixAt (lsbPut m k b) a = pixAt m a) ∧
    (lsbGet m k = b → pixAt (lsbPut m k b) (slot k) = pixAt m (slot k)) ∧
    (pixAt (lsbPut m k b) (slot k)).toNat ≤ (pixAt m (slot k)).toNat + 1 ∧
    (pixAt m (slot k)).toNat ≤ (pixAt (lsbPut m k b) (slot k)).toNat + 1 ∧
    withLsb 0xFF#8 false = 0xFE#8 ∧ withLsb 0xFF#8 true = 0xFF#8 ∧ withLsb 0x00#8 true = 0x01#8 ∧
    withLsb 0x00#8 false = 0x00#8

/-- One advance of the cursor (rules R20, R67): the next slot, never the alpha channel, and `SLOT(k) = 4·P + CH`. -/
def Obligations.CursorAdvancesOneSlot : Prop :=
  ∀ w : Work,
    w.advance.cursor = w.cursor + 1 ∧
    slot w.cursor = 4 * w.p + w.ch.val ∧
    slot w.advance.cursor = 4 * w.advance.p + w.advance.ch.val ∧
    (w.ch = 2 → w.advance.ch = 0 ∧ w.advance.p = w.p + 1) ∧
    (w.ch ≠ 2 → w.advance.ch.val = w.ch.val + 1 ∧ w.advance.p = w.p) ∧
    w.advance.sr = w.sr ∧ w.advance.nb = w.nb ∧ w.advance.bi = w.bi ∧ w.advance.hok = w.hok

/-- What the engine never does (rule R69), in every state of the invariant and for each of its moves: it never stops; it
changes no sample at `4·NPIX` or above and no bits 7 to 1 of a colour sample; it writes no alpha but 255; a DECODE
changes no sample at all. -/
def Obligations.EngineWritesStayInsideTheBuffer : Prop :=
  ∀ s : State, s.Inv → s.status.busy = true → (s.inputs = [] ∨ ∃ e rest, s.inputs = .engine e :: rest) →
    ∃ t, step s = .next t ∧
      (∀ a, 4 * s.n ≤ a → t.pixel a = s.pixel a) ∧
      (∀ a i, a % 4 ≠ 3 → 1 ≤ i → (t.pixel a).getLsbD i = (s.pixel a).getLsbD i) ∧
      (∀ a, a % 4 = 3 → t.pixel a = s.pixel a ∨ t.pixel a = 255#8) ∧
      (s.status.op = .decode → t.pix = s.pix)

/-! ### Serializer and deserializer (43_bit_text_conversion.md) -/

/-- The inverse laws 1 to 3 of rule R97. -/
def Obligations.SerializerAndDeserializerAreInverse : Prop :=
  (∀ b : List Byte, b2t (t2b (b.map zextCpw)) = b) ∧
  (∀ m : List Nat, b2t (t2b m) = m.map trunc8) ∧
  (∀ m : List Nat, (b2t (t2b m)).map zextCpw = m ↔ ∀ c ∈ m, c ≤ 255) ∧
  (∀ s : WholeBytes, t2b ((b2t s).map zextCpw) = s)

/-- Rule R94: 8 bits per code point, so a frame of `L` code points has `8·(5 + L + 1)` bits and its byte `j` begins at
bit `8j`. -/
def Obligations.SerializedLengthIsEightPerCodePoint : Prop :=
  (∀ m : List Nat, (t2b m).val.length = 8 * m.length) ∧
  (∀ m : List Nat, (serialize (frameBytes m)).length = 8 * (5 + m.length + 1)) ∧
  (∀ (m : List Nat) (j : Nat) (b : Byte), (frameBytes m)[j]? = some b →
    ((serialize (frameBytes m)).drop (8 * j)).take 8 = byteBits b)

/-- The serializer's shift register (rule R98): the eight beats of a loaded byte put out the bits of `T2B`. -/
def Obligations.ShiftRegisterSerializes : Prop :=
  ∀ b : Byte, (List.range 8).map (fun i => shiftOutBit (shiftOutBy b i)) = byteBits b

/-- The deserializer's shift register (rule R99): after eight beats, whatever it held, it holds the `B2T` of the bits. -/
def Obligations.ShiftRegisterDeserializes : Prop :=
  ∀ (sr : Byte) (s : WholeBytes), s.val.length = 8 → b2t s = [s.val.foldl shiftIn sr]

/-! ### START -/

/-- ENCODE and DECODE accepted by an idle block: the START of rule R53, and nothing else changes. -/
def Obligations.CommandStartsOnAnIdleBlock : Prop :=
  ∀ s : State,
    (s.Accepts .encode →
      exec .encode s = .next { s with
        status := { busy := true, done := false, result := .ok, op := .encode }
        olen := 0
        work := { p := 0, ch := 0, sr := 0, nb := 0, bi := 0, hok := true } }) ∧
    (s.Accepts .decode →
      exec .decode s = .next { s with
        status := { busy := true, done := false, result := .ok, op := .decode }
        olen := 0
        work := { p := 0, ch := 0, sr := 0, nb := 0, bi := 0, hok := true } })

/-- Operands larger than the memories (rule R45): a START of either command with `NPIX > PIXCAP`, and of an ENCODE with
`MLEN > MCAP`, is refused; a DECODE does not look at `MLEN`. -/
def Obligations.OversizedOperandsAreRefused : Prop :=
  ∀ s : State, s.status.busy = false →
    (s.params.pixcap < s.n →
      exec .encode s = .refused .npixAbovePixcap ∧ exec .decode s = .refused .npixAbovePixcap) ∧
    (s.n ≤ s.params.pixcap → s.params.mcap < s.l → exec .encode s = .refused .mlenAboveMcap) ∧
    (s.n ≤ s.params.pixcap → ∃ t, exec .decode s = .next t)

/-! ### ENCODE (41_encoder.md) -/

/-- ENCODE of a message that fits (rules R71, R74, R75, R76, R77): the frame bits go to the LSBs of the slots below `B`,
the alphas of the span become 255, and every other sample, register, memory and field stays. -/
def Obligations.EncodeEmbedsTheFrame : Prop :=
  ∀ s : State, s.Running .encode → requiredBits s.l ≤ capacity s.n →
    ∃ t, exec .encode s = .next t ∧
      t.status = { busy := false, done := true, result := .ok, op := .encode } ∧
      (∀ k < requiredBits s.l, t.pixel (slot k) = withLsb (s.pixel (slot k)) (s.frameBit k)) ∧
      (∀ p < spanPixels (requiredBits s.l), t.pixel (4 * p + 3) = 255#8) ∧
      (∀ a, (∀ k < requiredBits s.l, a ≠ slot k) → (∀ p < spanPixels (requiredBits s.l), a ≠ 4 * p + 3) →
        t.pixel a = s.pixel a) ∧
      t = { s with status := t.status, pix := t.pix, work := t.work, draws := t.draws }

/-- Rule R78: a frame that does not fit leaves everything but `STATUS` as it was. The working registers are unspecified
outside a command, and the draw they take is the model's own counter (assumption log 5). -/
def Obligations.CapacityExceededTouchesNothing : Prop :=
  ∀ s : State, s.Running .encode → capacity s.n < requiredBits s.l →
    ∃ t, exec .encode s = .next t ∧
      t.status = { busy := false, done := true, result := .capacityExceeded, op := .encode } ∧
      t = { s with status := t.status, work := t.work, draws := t.draws }

/-- The capacity check by its thresholds (rule R73): it depends on `L` and `N` alone; the least `N` that succeeds is
`ceil(8·(L + 6)/3)`, the largest `L` is `floor(3N/8) − 6`, and none succeeds below 16 pixels. -/
def Obligations.CapacityCheckThresholds : Prop :=
  ∀ s : State, s.Running .encode →
    ∃ t, exec .encode s = .next t ∧
      (t.status.result = .ok ↔ (8 * (s.l + 6) + 2) / 3 ≤ s.n) ∧
      (t.status.result = .ok ↔ 6 ≤ 3 * s.n / 8 ∧ s.l ≤ 3 * s.n / 8 - 6) ∧
      (s.n < 16 → t.status.result = .capacityExceeded) ∧
      (t.status.result = .ok ∨ t.status.result = .capacityExceeded)

/-- ENCODE run twice with the same operands (rule R81): the second run changes no sample. -/
def Obligations.SecondEncodeChangesNoSample : Prop :=
  ∀ s : State, s.Accepts .encode →
    ∃ t u, Issued .encode s t ∧ Issued .encode t u ∧ (∀ a, u.pixel a = t.pixel a) ∧ u.status = t.status

/-! ### DECODE (42_decoder.md) -/

/-- Rule R59: the classification of every extracted stream, by its first zero byte and its first five bytes. -/
def Obligations.DecodeClassifiesEveryStream : Prop :=
  ∀ s : State, s.Running .decode →
    ∃ t, exec .decode s = .next t ∧
      ((∀ x, ¬ s.TerminatorAt x) →
        t.status = { busy := false, done := true, result := .notFound, op := .decode } ∧ t.olen = s.olen) ∧
      (∀ x, s.TerminatorAt x → x < 5 →
        t.status = { busy := false, done := true, result := .notFound, op := .decode } ∧ t.olen = s.olen) ∧
      (∀ x, s.TerminatorAt x → 5 ≤ x → ¬ s.HeaderMatches →
        t.status = { busy := false, done := true, result := .notFound, op := .decode } ∧ t.olen = s.olen) ∧
      (∀ x, s.TerminatorAt x → 5 ≤ x → s.HeaderMatches →
        t.status = { busy := false, done := true, result := .ok, op := .decode } ∧ t.olen = x - 5 ∧
        ∀ i < x - 5, (t.output i).toNat = s.streamByte (5 + i))

/-- What DECODE leaves (rules R90, R25): `PIX`, `MSG` and the operand registers as they were, and every entry of `OUT`
from `OLEN` on unspecified. -/
def Obligations.DecodeLeavesBufferAndOperands : Prop :=
  ∀ s : State, s.Running .decode →
    ∃ t, exec .decode s = .next t ∧ t.status.busy = false ∧ t.status.done = true ∧ t.status.op = .decode ∧
      (∀ i, t.olen ≤ i → t.output i = Config.anyOut s.draws i) ∧
      t = { s with status := t.status, olen := t.olen, out := t.out, outDraw := t.outDraw, work := t.work,
                   draws := t.draws }

/-- No returned byte is zero, and `OLEN` is at most `floor(3N/8) − 6` (rules R19, R88). -/
def Obligations.DecodedMessageIsBoundedAndHasNoZero : Prop :=
  ∀ s : State, s.Running .decode → s.olen = 0 →
    ∃ t, exec .decode s = .next t ∧ t.olen ≤ 3 * s.n / 8 - 6 ∧ ∀ i < t.olen, t.output i ≠ 0#8

/-- Alpha samples and bits 7 to 1 of colour samples have no influence on any result of DECODE (rule R84): two DECODEs
over the same number of pixels whose colour LSBs agree report the same, whatever else differs. `OLEN = 0` is what the
START leaves (rule R53). The extracted sequence is bit 0 of the samples at `SLOT(k)`, `k` below `3N`. -/
def Obligations.DecodeSeesOnlyTheColourLsbs : Prop :=
  (∀ (s : State) (k : Nat), (extract s.pix 0 (3 * s.n))[k]? =
    if k < 3 * s.n then some ((s.pixel (slot k)).getLsbD 0) else none) ∧
  ∀ s s' : State, s.Running .decode → s'.Running .decode → s.olen = 0 → s'.olen = 0 → s.npix = s'.npix →
    (∀ k < 3 * s.n, (s.pixel (slot k)).getLsbD 0 = (s'.pixel (slot k)).getLsbD 0) →
    ∃ t t', exec .decode s = .next t ∧ exec .decode s' = .next t' ∧
      t.status = t'.status ∧ t.olen = t'.olen ∧ t.decodedBytes = t'.decodedBytes

/-! ### Both commands -/

/-- The round trip (rule R97, law 4): DECODE after ENCODE of a message that fits is `OK`, and the text is the message's
low bytes cut before the first that is zero; for entries in `1 .. 255` it is the message. -/
def Obligations.DecodeAfterEncodeReturnsTheMessage : Prop :=
  ∀ s : State, s.Accepts .encode → requiredBits s.l ≤ capacity s.n →
    ∃ t u, Issued .encode s t ∧ Issued .decode t u ∧
      u.status = { busy := false, done := true, result := .ok, op := .decode } ∧
      u.decodedBytes = (s.message.map trunc8).takeWhile (· != 0#8) ∧
      ((∀ c ∈ s.message, 1 ≤ c ∧ c ≤ 255) → u.olen = s.mlen ∧ u.decodedText = s.message)

/-- Rule R27: the outcome of a command is a function of its operands as they stand at the START, and of nothing else in
the state. -/
def Obligations.OutcomeDependsOnlyOnTheOperands : Prop :=
  (∀ s s' : State, s.Accepts .encode → s'.Accepts .encode → s.npix = s'.npix → s.mlen = s'.mlen →
    (∀ i < s.l, s.entry i = s'.entry i) → (∀ a < 4 * s.n, s.pixel a = s'.pixel a) →
    ∃ t t', Issued .encode s t ∧ Issued .encode s' t' ∧ t.status = t'.status ∧ t.olen = t'.olen ∧
      ∀ a < 4 * s.n, t.pixel a = t'.pixel a) ∧
  (∀ s s' : State, s.Accepts .decode → s'.Accepts .decode → s.npix = s'.npix →
    (∀ a < 4 * s.n, s.pixel a = s'.pixel a) →
    ∃ t t', Issued .decode s t ∧ Issued .decode s' t' ∧ t.status = t'.status ∧ t.olen = t'.olen ∧
      t.decodedBytes = t'.decodedBytes)

/-- A command ends in exactly one of its outcomes, idle and ready for the next START (rules R100, R106, R107, R137):
ENCODE with `OK` or `CapacityExceeded`, DECODE with `OK` or `NotFound`, with `BUSY = 0` and `DONE = 1`; an error leaves
`OLEN`. -/
def Obligations.EveryCommandEndsWithItsOutcome : Prop :=
  ∀ s : State,
    (s.Running .encode → ∃ t, exec .encode s = .next t ∧ t.status.busy = false ∧ t.status.done = true ∧
      t.status.op = .encode ∧ t.olen = s.olen ∧
      (t.status.result = .ok ∨ t.status.result = .capacityExceeded)) ∧
    (s.Running .decode → ∃ t, exec .decode s = .next t ∧ t.status.busy = false ∧ t.status.done = true ∧
      t.status.op = .decode ∧
      (t.status.result = .ok ∨ (t.status.result = .notFound ∧ t.olen = s.olen)))

/-- Rule R110: the block never retries, so an idle block with no move to come stays as it is; re-issuing a failed
command with the same operands gives the same failure. -/
def Obligations.ReissuedFailureFailsAgain : Prop :=
  (∀ s t : State, s.Accepts .encode → Issued .encode s t → t.status.result = .capacityExceeded →
    t.status.busy = false ∧ step { t with inputs := [] } = .next { t with inputs := [] } ∧
    ∃ u, Issued .encode t u ∧ u.status = t.status ∧ ∀ a, u.pixel a = s.pixel a) ∧
  (∀ s t : State, s.Accepts .decode → Issued .decode s t → t.status.result = .notFound →
    t.status.busy = false ∧ step { t with inputs := [] } = .next { t with inputs := [] } ∧
    ∃ u, Issued .decode t u ∧ u.status = t.status ∧ u.olen = t.olen)

/-! ### Frame symbols (rules R47, R48, R52, R82, R92) -/

/-- A frame symbol and an engine move on an idle block change nothing (rule R39, item 1: the engine makes no access; rule
R118). That the model has such moves at all, and that they do nothing, is its own reading. DEDUCED (assumption log 11). -/
def Obligations.SymbolsDoNothingOnAnIdleBlock : Prop :=
  ∀ s : State, s.status.busy = false →
    exec .magic s = .next s ∧ (∀ d, exec (.data d) s = .next s) ∧ exec .term s = .next s ∧
    ∀ e rest, s.inputs = .engine e :: rest → step s = .next { s with inputs := rest }

/-- A frame symbol emitted by ENCODE, with `K` the cursor and `E` the slot after its last bit, or `B`. A symbol emitted at
any cursor, whatever stands there, is the model's reading of the beats of rule R82, DEDUCED (assumption log 15): its bits
go to the slots `K .. E − 1`; the alpha of every pixel whose last slot of the frame is among them becomes 255. While the
command goes on the cursor stands at `E`, `SR` has shifted all its bits out, `NB` and `HOK` are as they were and `BI` has
passed its bytes; the command ends with `OK` when `E = B`; nothing else changes. -/
def Obligations.EncodeEmitsASymbol : Prop :=
  ∀ (s : State) (i : Instr) (start : Bool) (bits : List Bool),
    s.Running .encode → requiredBits s.l ≤ capacity s.n → encode i = .stream start bits →
    ∃ t, exec i s = .next t ∧
      (∀ k, s.work.cursor ≤ k → k < min (s.work.cursor + bits.length) (requiredBits s.l) →
        t.pixel (slot k) = withLsb (s.pixel (slot k)) (bits.getD (k - s.work.cursor) false)) ∧
      (∀ k, k < s.work.cursor ∨ min (s.work.cursor + bits.length) (requiredBits s.l) ≤ k →
        t.pixel (slot k) = s.pixel (slot k)) ∧
      (∀ p, t.pixel (4 * p + 3) =
        if s.work.cursor ≤ min (3 * p + 2) (requiredBits s.l - 1) ∧
            min (3 * p + 2) (requiredBits s.l - 1) < min (s.work.cursor + bits.length) (requiredBits s.l) ∧
            3 * p < requiredBits s.l
        then 255#8 else s.pixel (4 * p + 3)) ∧
      (s.work.cursor + bits.length < requiredBits s.l →
        t.status = s.status ∧ t.work.cursor = s.work.cursor + bits.length ∧ t.work.nb = s.work.nb ∧
        t.work.bi = s.work.bi + bits.length / 8 ∧ t.work.sr = 0#8 ∧ t.work.hok = s.work.hok) ∧
      (requiredBits s.l ≤ s.work.cursor + bits.length → t.status = s.status.completed .ok) ∧
      t = { s with status := t.status, pix := t.pix, work := t.work, draws := t.draws }

/-- A frame symbol of a frame that does not fit: the capacity error of rule R73, before any write. That the check is made
again at every symbol and cursor is the model's choice, DESIGN CHOICE (assumption log 14), and a symbol as a step is its
reading, DEDUCED (assumption log 15). -/
def Obligations.SymbolOfAnOverfullFrameFails : Prop :=
  ∀ (s : State) (i : Instr) (start : Bool) (bits : List Bool),
    s.Running .encode → capacity s.n < requiredBits s.l → encode i = .stream start bits →
    ∃ t, exec i s = .next t ∧ t.status = s.status.completed .capacityExceeded ∧
      t = { s with status := t.status, work := t.work, draws := t.draws }

/-- A whole byte other than zero taken in by DECODE. A byte taken in at any cursor, whatever the stream holds, is the
model's reading of the beats of rule R92, DEDUCED (assumption log 15): the cursor passes 8 slots; a header byte is
compared, a payload byte goes to `OUT`. Where rule R45 leaves no entry for it nothing is written (assumption log 10). -/
def Obligations.DecodeTakesADataByte : Prop :=
  ∀ (s : State) (d : Byte), s.Running .decode → d ≠ 0#8 →
    ∃ t, exec (.data d) s = .next t ∧
      t.work.cursor = s.work.cursor + 8 ∧
      t.work.sr = d ∧ t.work.nb = s.work.nb ∧ t.work.bi = s.work.bi + 1 ∧
      (s.work.bi < 5 →
        t.work.hok = (s.work.hok && d == magicByte s.work.bi) ∧ t.out = s.out) ∧
      (5 ≤ s.work.bi → t.work.hok = s.work.hok ∧
        (s.work.bi - 5 < 3 * s.n / 8 - 6 → t.output (s.work.bi - 5) = d) ∧
        (3 * s.n / 8 - 6 ≤ s.work.bi - 5 → t.out = s.out) ∧
        (∀ i, i ≠ s.work.bi - 5 → t.output i = s.output i)) ∧
      t = { s with work := t.work, out := t.out }

/-- The header taken in by DECODE is its five bytes taken in one after the other; at frame byte 0 it leaves the header flag
as it was and the cursor 40 slots on. `MAGIC` at any frame byte is the model's reading of rules R47 and R92, DEDUCED
(assumption log 15). -/
def Obligations.DecodeTakesTheHeader : Prop :=
  ∀ s : State, s.Running .decode →
    (∃ a b c d e, exec (.data 0x53#8) s = .next a ∧ exec (.data 0x54#8) a = .next b ∧
      exec (.data 0x45#8) b = .next c ∧ exec (.data 0x47#8) c = .next d ∧ exec (.data 0x4F#8) d = .next e ∧
      exec .magic s = .next e) ∧
    (s.work.bi = 0 →
      ∃ t, exec .magic s = .next t ∧ t.work.cursor = s.work.cursor + 40 ∧ t.work.bi = 5 ∧
        t.work.hok = s.work.hok ∧ t.work.nb = s.work.nb ∧ t = { s with work := t.work })

/-- The terminator taken in by DECODE, and a zero byte read as it (rule R57): `OK` with `OLEN = BI − 5` after a whole
matching header, `NotFound` otherwise (rules R86, R87, R88, R92). A terminator taken in at any cursor, whatever the stream
holds, is the model's reading, DEDUCED (assumption log 15). -/
def Obligations.TerminatorEndsDecode : Prop :=
  ∀ s : State, s.Running .decode →
    exec (.data 0#8) s = exec .term s ∧
    ∃ t, exec .term s = .next t ∧
      (5 ≤ s.work.bi → s.work.hok = true →
        t.status = s.status.completed .ok ∧ t.olen = s.work.bi - 5 ∧
        (∀ i < s.work.bi - 5, outAt t.out s.outDraw i = s.output i) ∧
        (∀ i, s.work.bi - 5 ≤ i → t.output i = Config.anyOut s.draws i)) ∧
      (s.work.bi < 5 ∨ s.work.hok = false →
        t.status = s.status.completed .notFound ∧ t.olen = s.olen ∧ ∀ i, t.output i = Config.anyOut s.draws i) ∧
      t = { s with status := t.status, olen := t.olen, out := t.out, outDraw := t.outDraw, work := t.work,
                   draws := t.draws }

/-! ### The reference sequences refine the completion steps (rules R43, R82, R92, R135) -/

/-- The beats of ENCODE from the START on, as many as rule R135 counts or more, end in the very state of the completion
step. -/
def Obligations.EncodeBeatsRefineCompletion : Prop :=
  ∀ (s : State) (n : Nat) (rest : List Move), s.status = Status.started .encode → s.work = Work.started → s.pix.wf →
    1 + requiredBits s.l ≤ n →
    core.run n { s with inputs := List.replicate n (.engine .beat) ++ rest } =
      core.run 1 { s with inputs := .engine .complete :: rest }

/-- The beats of DECODE from the START on, as many as rule R135 counts or more, end in the very state of the completion
step. A buffer of no pixels, for which the rule counts none, takes one: DESIGN CHOICE (assumption log 14). -/
def Obligations.DecodeBeatsRefineCompletion : Prop :=
  ∀ (s : State) (n : Nat) (rest : List Move), s.status = Status.started .decode → s.work = Work.started →
    3 * s.n ≤ n → 1 ≤ n →
    core.run n { s with inputs := List.replicate n (.engine .beat) ++ rest } =
      core.run 1 { s with inputs := .engine .complete :: rest }

/-- The symbols of a command from the START on end in the very state of the completion step: the header, `L` data bytes and
the terminator of ENCODE; for DECODE at most one per whole byte and one that ends it. That a command may run symbol by
symbol is the model's reading, DEDUCED (assumption log 15); how many moves the end takes is its choice, DESIGN CHOICE
(assumption log 14). -/
def Obligations.SymbolsRefineCompletion : Prop :=
  ∀ (s : State) (n : Nat) (rest : List Move), s.work = Work.started →
    (s.status = Status.started .encode → s.pix.wf → s.l + 2 ≤ n →
      core.run n { s with inputs := List.replicate n (.engine .symbol) ++ rest } =
        core.run 1 { s with inputs := .engine .complete :: rest }) ∧
    (s.status = Status.started .decode → wholeBytes s.n + 1 ≤ n →
      core.run n { s with inputs := List.replicate n (.engine .symbol) ++ rest } =
        core.run 1 { s with inputs := .engine .complete :: rest })

/-- The beats that the table of rule R135 counts: with fewer the command still runs, with as many it has ended. A DECODE
over no pixels, for which the table counts none, ends with its first: DESIGN CHOICE (assumption log 14). -/
def Obligations.CommandsTakeTheirBeats : Prop :=
  ∀ (s : State) (rest : List Move) (count : Nat), s.work = Work.started →
    (s.status = Status.started .encode ∧ capacity s.n < requiredBits s.l ∧ count = 1 ∨
      s.status = Status.started .encode ∧ requiredBits s.l ≤ capacity s.n ∧ count = 1 + requiredBits s.l ∨
      s.status = Status.started .decode ∧ (∃ x, s.TerminatorAt x ∧ count = 8 * (x + 1)) ∨
      s.status = Status.started .decode ∧ (∀ x, ¬ s.TerminatorAt x) ∧ count = max (3 * s.n) 1) →
    ∀ n, ∃ t, core.run n { s with inputs := List.replicate n (.engine .beat) ++ rest } = .next t ∧
      (n < count → t.status.busy = true) ∧ (count ≤ n → t.status.busy = false)

/-! ### Reset, idling, termination (70_reset_and_hazards.md) -/

/-- What reset leaves where the spec gives the value (rule R28); the block is idle. -/
def Obligations.ResetStateHoldsTheSpecsValues : Prop :=
  State.reset.npix = 0 ∧ State.reset.mlen = 0 ∧ State.reset.olen = 0 ∧
  State.reset.status = { busy := false, done := false, result := .ok, op := .decode } ∧
  State.reset.status.word = 0 ∧
  State.reset.pix = [] ∧ State.reset.msg = [] ∧ State.reset.out = [] ∧ step State.reset = .next State.reset

/-- The reset event on an idle block (rules R28, R119, R121): the registers take their reset values, the memories are not
written, and the block stays idle. The working registers become unspecified. -/
def Obligations.ResetOnAnIdleBlock : Prop :=
  ∀ (s : State) (rest : List Move), s.status.busy = false → s.inputs = .host .reset :: rest →
    ∃ t, step s = .next t ∧
      t = { s with inputs := rest, npix := 0, mlen := 0, olen := 0,
                   status := { busy := false, done := false, result := .ok, op := .decode },
                   work := t.work, draws := t.draws }

/-- Rule R120, reset while `STATUS.BUSY = 1`: no result; the samples an ENCODE was allowed to write are unspecified, all
others as they were; `OUT` is unspecified after a DECODE. No other move ends a command without a result. -/
def Obligations.ResetAbandonsTheCommand : Prop :=
  (∀ (s : State) (rest : List Move), s.status.busy = true → s.inputs = .host .reset :: rest →
    ∃ t, step s = .next t ∧ t.status = { busy := false, done := false, result := .ok, op := .decode } ∧
      t.npix = 0 ∧ t.mlen = 0 ∧ t.olen = 0 ∧ t.msg = s.msg ∧ t.inputs = rest ∧ t.params = s.params ∧
      t.reads = s.reads ∧
      (s.status.op = .encode → t.out = s.out ∧ t.outDraw = s.outDraw ∧
        (requiredBits s.l ≤ capacity s.n →
          (∀ k < requiredBits s.l, t.pixel (slot k) = Config.anySample s.draws (slot k)) ∧
          (∀ p < spanPixels (requiredBits s.l), t.pixel (4 * p + 3) = Config.anySample s.draws (4 * p + 3)) ∧
          (∀ a, (∀ k < requiredBits s.l, a ≠ slot k) → (∀ p < spanPixels (requiredBits s.l), a ≠ 4 * p + 3) →
            t.pixel a = s.pixel a)) ∧
        (capacity s.n < requiredBits s.l → t.pix = s.pix)) ∧
      (s.status.op = .decode → t.pix = s.pix ∧ ∀ i, t.output i = Config.anyOut s.draws i)) ∧
  (∀ s t : State, s.status.busy = true → s.inputs.head? ≠ some (.host .reset) → step s = .next t →
    t.status.busy = true ∨ t.status.done = true)

/-- An idle block starts nothing by itself and keeps its result: any move but a reset and a `CTRL` write with `START = 1`
leaves `STATUS` and `OLEN` (rules R109, R118, R121), and every entry of `OUT`, the decoded message among them, reads as
before but for one the host writes. -/
def Obligations.ResultHoldsUntilTheNextStart : Prop :=
  ∀ s t : State, s.status.busy = false → s.inputs.head? ≠ some (.host .reset) →
    (∀ c, s.inputs.head? = some (.host (.wrReg .ctrl c)) → (c % 2 ^ s.params.w).testBit 0 = false) →
    step s = .next t →
    t.status = s.status ∧ t.olen = s.olen ∧
    (∀ i, (∀ v, s.inputs.head? ≠ some (.host (.wrOut i v))) → t.output i = s.output i) ∧
    ((∀ i v, s.inputs.head? ≠ some (.host (.wrOut i v))) → t.decodedBytes = s.decodedBytes)

/-- A started command never hangs (rules R134, R136): once the moves still to come, if they are register reads and engine
moves, have been made, one more step leaves the block idle. -/
def Obligations.CommandEndsOnceTheMovesAreMade : Prop :=
  ∀ s : State, (∀ m ∈ s.inputs, (∃ r, m = .host (.rdReg r)) ∨ ∃ e, m = .engine e) →
    ∃ t, core.run (s.inputs.length + 1) s = .next t ∧ t.status.busy = false

/-! ### The invariant -/

/-- The invariant holds at reset. That the parameters of the block of `State.reset` meet rule R9 rests on the values chosen
for them, the model's choice: DESIGN CHOICE (assumption logs 2 and 3). -/
def Obligations.InvariantHoldsAtReset : Prop := State.reset.Inv

/-- Every step keeps the invariant: memories in canonical form and within their sizes, every register and entry within its
width, `STATUS` and `OLEN` among the values rule R18 and rule R19 allow, the operands of a running command within the
memories, its cursor at frame byte `BI`, bit `NB`, and within the frame or the buffer. -/
def Obligations.EveryStepKeepsTheInvariant : Prop :=
  ∀ s t : State, s.Inv → step s = .next t → t.Inv
end

