-- ==== Sys2Proof/Laws/State.lean ====
section
/-! SUPPORT. One lemma per field per shared update of the state, so that no later proof unfolds a record update. -/

namespace Sys2Proof.Machine

/-! ### `STATUS` -/

@[simp] theorem Status.started_busy (op : Op) : (Status.started op).busy = true := rfl
@[simp] theorem Status.started_done (op : Op) : (Status.started op).done = false := rfl
@[simp] theorem Status.started_result (op : Op) : (Status.started op).result = .ok := rfl
@[simp] theorem Status.started_op (op : Op) : (Status.started op).op = op := rfl
@[simp] theorem Status.completed_busy (t : Status) (r : Result) : (t.completed r).busy = false := rfl
@[simp] theorem Status.completed_done (t : Status) (r : Result) : (t.completed r).done = true := rfl
@[simp] theorem Status.completed_result (t : Status) (r : Result) : (t.completed r).result = r := rfl
@[simp] theorem Status.completed_op (t : Status) (r : Result) : (t.completed r).op = t.op := rfl
@[simp] theorem Status.reset_busy : Status.reset.busy = false := rfl
@[simp] theorem Status.reset_done : Status.reset.done = false := rfl
@[simp] theorem Status.reset_result : Status.reset.result = .ok := rfl
@[simp] theorem Status.reset_op : Status.reset.op = .decode := rfl

/-! ### The end of a command -/

section
variable (r : Result) (k : Nat) (s : State)

@[simp] theorem finish_npix : (finish r s).npix = s.npix := rfl
@[simp] theorem finish_mlen : (finish r s).mlen = s.mlen := rfl
@[simp] theorem finish_status : (finish r s).status = s.status.completed r := rfl
@[simp] theorem finish_olen : (finish r s).olen = s.olen := rfl
@[simp] theorem finish_work : (finish r s).work = Work.any s.params s.draws := rfl
@[simp] theorem finish_pix : (finish r s).pix = s.pix := rfl
@[simp] theorem finish_msg : (finish r s).msg = s.msg := rfl
@[simp] theorem finish_out : (finish r s).out = s.out := rfl
@[simp] theorem finish_params : (finish r s).params = s.params := rfl
@[simp] theorem finish_outDraw : (finish r s).outDraw = s.outDraw := rfl
@[simp] theorem finish_draws : (finish r s).draws = s.draws + 1 := rfl
@[simp] theorem finish_inputs : (finish r s).inputs = s.inputs := rfl
@[simp] theorem finish_reads : (finish r s).reads = s.reads := rfl

@[simp] theorem finishDecode_npix : (finishDecode r k s).npix = s.npix := rfl
@[simp] theorem finishDecode_mlen : (finishDecode r k s).mlen = s.mlen := rfl
@[simp] theorem finishDecode_status : (finishDecode r k s).status = s.status.completed r := rfl
@[simp] theorem finishDecode_olen : (finishDecode r k s).olen = s.olen := rfl
@[simp] theorem finishDecode_work : (finishDecode r k s).work = Work.any s.params s.draws := rfl
@[simp] theorem finishDecode_pix : (finishDecode r k s).pix = s.pix := rfl
@[simp] theorem finishDecode_msg : (finishDecode r k s).msg = s.msg := rfl
@[simp] theorem finishDecode_out : (finishDecode r k s).out = s.out.below k := rfl
@[simp] theorem finishDecode_params : (finishDecode r k s).params = s.params := rfl
@[simp] theorem finishDecode_outDraw : (finishDecode r k s).outDraw = s.draws := rfl
@[simp] theorem finishDecode_draws : (finishDecode r k s).draws = s.draws + 1 := rfl
@[simp] theorem finishDecode_inputs : (finishDecode r k s).inputs = s.inputs := rfl
@[simp] theorem finishDecode_reads : (finishDecode r k s).reads = s.reads := rfl

end

/-! ### Reset -/

section
variable (s : State)

@[simp] theorem resetEvent_npix : (resetEvent s).npix = 0 := rfl
@[simp] theorem resetEvent_mlen : (resetEvent s).mlen = 0 := rfl
@[simp] theorem resetEvent_status : (resetEvent s).status = Status.reset := rfl
@[simp] theorem resetEvent_olen : (resetEvent s).olen = 0 := rfl
@[simp] theorem resetEvent_work : (resetEvent s).work = Work.any s.params s.draws := rfl
@[simp] theorem resetEvent_draws : (resetEvent s).draws = s.draws + 1 := rfl
theorem resetEvent_pix : (resetEvent s).pix = (if s.status.busy then abandon s else s).pix := rfl
theorem resetEvent_out : (resetEvent s).out = (if s.status.busy then abandon s else s).out := rfl
theorem resetEvent_outDraw : (resetEvent s).outDraw = (if s.status.busy then abandon s else s).outDraw := rfl

@[simp] theorem abandon_msg : (abandon s).msg = s.msg := by
  unfold abandon; split <;> (try split) <;> rfl
@[simp] theorem abandon_params : (abandon s).params = s.params := by
  unfold abandon; split <;> (try split) <;> rfl
@[simp] theorem abandon_inputs : (abandon s).inputs = s.inputs := by
  unfold abandon; split <;> (try split) <;> rfl
@[simp] theorem abandon_reads : (abandon s).reads = s.reads := by
  unfold abandon; split <;> (try split) <;> rfl

@[simp] theorem resetEvent_msg : (resetEvent s).msg = s.msg := by
  unfold resetEvent; split <;> simp
@[simp] theorem resetEvent_params : (resetEvent s).params = s.params := by
  unfold resetEvent; split <;> simp
@[simp] theorem resetEvent_inputs : (resetEvent s).inputs = s.inputs := by
  unfold resetEvent; split <;> simp
@[simp] theorem resetEvent_reads : (resetEvent s).reads = s.reads := by
  unfold resetEvent; split <;> simp

end

/-! ### The parts of a command that change only memories and working registers -/

section
variable (s : State)

@[simp] theorem emitBit_npix : (emitBit s).npix = s.npix := rfl
@[simp] theorem emitBit_mlen : (emitBit s).mlen = s.mlen := rfl
@[simp] theorem emitBit_status : (emitBit s).status = s.status := rfl
@[simp] theorem emitBit_olen : (emitBit s).olen = s.olen := rfl
@[simp] theorem emitBit_msg : (emitBit s).msg = s.msg := rfl
@[simp] theorem emitBit_out : (emitBit s).out = s.out := rfl
@[simp] theorem emitBit_params : (emitBit s).params = s.params := rfl
@[simp] theorem emitBit_outDraw : (emitBit s).outDraw = s.outDraw := rfl
@[simp] theorem emitBit_draws : (emitBit s).draws = s.draws := rfl
@[simp] theorem emitBit_inputs : (emitBit s).inputs = s.inputs := rfl
@[simp] theorem emitBit_reads : (emitBit s).reads = s.reads := rfl

end

/-! ### The end of a step -/

/-- A step is the fetch of the next move and the run of the instruction it issues, if it issues one. -/
theorem step_of_run {s t : State} {i : Instr} (h : fetch s = .run i t) : step s = exec i t := by
  simp [step, h]

theorem step_of_settled {s : State} {o : Host.Outcome State Fault Refusal} (h : fetch s = .settled o) :
    step s = o := by
  simp [step, h]

end Sys2Proof.Machine
end

