-- ==== Sys2Proof/Laws/Memory.lean ====
section
/-! SUPPORT. The laws of a memory: a read after a write, the entries a write leaves alone, the canonical form every
operation keeps, and that canonical memories with equal entries are equal. -/

namespace Sys2Proof.Machine

variable {α : Type}

/-! ### Reading after writing -/

@[simp] theorem get?_nil (a : Nat) : Memory.get? ([] : Memory α) a = none := rfl

@[simp] theorem get?_put_self (m : Memory α) (a : Nat) (v : α) : (m.put a v).get? a = some v := by
  induction m with
  | nil => simp [Memory.put, Memory.get?]
  | cons e m ih =>
    obtain ⟨b, u⟩ := e
    simp only [Memory.put]
    split
    · simp [Memory.get?]
    · split
      · simp [Memory.get?]
      · simp [Memory.get?, *]

theorem get?_put_ne (m : Memory α) {a c : Nat} (v : α) (h : c ≠ a) : (m.put a v).get? c = m.get? c := by
  induction m with
  | nil => simp [Memory.put, Memory.get?, h]
  | cons e m ih =>
    obtain ⟨b, u⟩ := e
    simp only [Memory.put]
    split
    · simp [Memory.get?, h]
    · split
      · rename_i hab; subst hab; simp [Memory.get?, h]
      · simp [Memory.get?, ih]

theorem get?_put (m : Memory α) (a c : Nat) (v : α) :
    (m.put a v).get? c = if c = a then some v else m.get? c := by
  split
  · subst_vars; simp
  · exact get?_put_ne m v ‹_›

/-! ### Which entries are listed -/

theorem mem_put {m : Memory α} {a : Nat} {v : α} {e : Nat × α} (h : e ∈ m.put a v) :
    e = (a, v) ∨ e ∈ m := by
  induction m with
  | nil => simpa [Memory.put] using h
  | cons x m ih =>
    obtain ⟨b, u⟩ := x
    simp only [Memory.put] at h
    split at h
    · simpa using h
    · split at h
      · rcases List.mem_cons.1 h with h | h
        · exact .inl h
        · exact .inr (List.mem_cons_of_mem _ h)
      · rcases List.mem_cons.1 h with h | h
        · exact .inr (h ▸ List.mem_cons_self)
        · exact (ih h).imp_right (List.mem_cons_of_mem _)

theorem put_bound {m : Memory α} {n a : Nat} {v : α} (hm : ∀ e ∈ m, e.1 < n) (ha : a < n) :
    ∀ e ∈ m.put a v, e.1 < n := by
  intro e he
  rcases mem_put he with rfl | he
  · exact ha
  · exact hm e he

theorem get?_mem {m : Memory α} {a : Nat} {v : α} (h : m.get? a = some v) : (a, v) ∈ m := by
  induction m with
  | nil => simp at h
  | cons x m ih =>
    obtain ⟨b, u⟩ := x
    simp only [Memory.get?] at h
    split at h
    · cases h; subst_vars; exact List.mem_cons_self
    · exact List.mem_cons_of_mem _ (ih h)

/-! ### The canonical form -/

theorem Memory.wf_cons {e : Nat × α} {m : Memory α} :
    Memory.wf (e :: m) ↔ (∀ x ∈ m, e.1 < x.1) ∧ Memory.wf m := by
  simp [Memory.wf, List.pairwise_cons]

theorem Memory.wf_nil : Memory.wf ([] : Memory α) := List.Pairwise.nil

theorem put_wf {m : Memory α} (a : Nat) (v : α) (h : m.wf) : (m.put a v).wf := by
  induction m with
  | nil => simp [Memory.put, Memory.wf]
  | cons e m ih =>
    obtain ⟨b, u⟩ := e
    have hc := Memory.wf_cons.1 h
    simp only [Memory.put]
    split
    · rename_i hab
      refine Memory.wf_cons.2 ⟨?_, h⟩
      intro x hx
      rcases List.mem_cons.1 hx with rfl | hx
      · exact hab
      · exact Nat.lt_trans hab (hc.1 x hx)
    · split
      · rename_i hab; subst hab
        exact Memory.wf_cons.2 ⟨hc.1, hc.2⟩
      · rename_i h1 h2
        refine Memory.wf_cons.2 ⟨?_, ih hc.2⟩
        intro x hx
        rcases mem_put hx with rfl | hx
        · simp only at *; omega
        · exact hc.1 x hx

theorem get?_eq_none_of_lt {m : Memory α} {a : Nat} (h : ∀ x ∈ m, a < x.1) : m.get? a = none := by
  induction m with
  | nil => rfl
  | cons e m ih =>
    obtain ⟨b, u⟩ := e
    have hb : a < b := h (b, u) List.mem_cons_self
    simp only [Memory.get?, if_neg (Nat.ne_of_lt hb)]
    exact ih fun x hx => h x (List.mem_cons_of_mem _ hx)

/-- Canonical memories that answer every read alike are the same list. -/
theorem Memory.ext {m m' : Memory α} (h : m.wf) (h' : m'.wf) (heq : ∀ a, m.get? a = m'.get? a) : m = m' := by
  induction m generalizing m' with
  | nil =>
    cases m' with
    | nil => rfl
    | cons e m' => obtain ⟨b, u⟩ := e; simpa [Memory.get?] using heq b
  | cons e m ih =>
    obtain ⟨b, u⟩ := e
    have hc := Memory.wf_cons.1 h
    cases m' with
    | nil => simpa [Memory.get?] using heq b
    | cons e' m' =>
      obtain ⟨b', u'⟩ := e'
      have hc' := Memory.wf_cons.1 h'
      have hbb : b = b' := by
        rcases Nat.lt_trichotomy b b' with hlt | heq' | hlt
        · have h1 := heq b
          have h2 : Memory.get? ((b', u') :: m') b = none :=
            get?_eq_none_of_lt fun x hx => by
              rcases List.mem_cons.1 hx with rfl | hx
              · exact hlt
              · exact Nat.lt_trans hlt (hc'.1 x hx)
          rw [h2] at h1; simp [Memory.get?] at h1
        · exact heq'
        · have h1 := heq b'
          have h2 : Memory.get? ((b, u) :: m) b' = none :=
            get?_eq_none_of_lt fun x hx => by
              rcases List.mem_cons.1 hx with rfl | hx
              · exact hlt
              · exact Nat.lt_trans hlt (hc.1 x hx)
          rw [h2] at h1; simp [Memory.get?] at h1
      subst hbb
      have huu : u = u' := by simpa [Memory.get?] using heq b
      subst huu
      congr 1
      refine ih hc.2 hc'.2 fun a => ?_
      by_cases hab : a = b
      · subst hab
        rw [get?_eq_none_of_lt hc.1, get?_eq_none_of_lt hc'.1]
      · simpa [Memory.get?, hab] using heq a

/-- Writing the value an entry already holds changes nothing. -/
theorem put_same {m : Memory α} (h : m.wf) {a : Nat} {v : α} (hv : m.get? a = some v) : m.put a v = m :=
  Memory.ext (put_wf a v h) h fun c => by
    rw [get?_put]; split
    · subst_vars; exact hv.symm
    · rfl

/-! ### The entries below an index -/

theorem below_wf {m : Memory α} (n : Nat) (h : m.wf) : (m.below n).wf := by
  unfold Memory.wf Memory.below
  exact List.Pairwise.sublist (List.Sublist.map _ List.filter_sublist) h

theorem below_bound {m : Memory α} {n k : Nat} (h : ∀ e ∈ m, e.1 < k) : ∀ e ∈ m.below n, e.1 < k := by
  intro e he
  exact h e (List.mem_of_mem_filter he)

theorem get?_below (m : Memory α) (n a : Nat) : (m.below n).get? a = if a < n then m.get? a else none := by
  unfold Memory.below
  induction m with
  | nil => simp
  | cons e m ih =>
    obtain ⟨b, u⟩ := e
    by_cases hb : b < n
    · rw [List.filter_cons_of_pos (by simpa using hb)]
      simp only [Memory.get?, ih]
      split
      · subst_vars; simp [hb]
      · rfl
    · rw [List.filter_cons_of_neg (by simpa using hb), ih]
      simp only [Memory.get?]
      split
      · rw [if_neg (by omega)]
      · rfl

@[simp] theorem below_zero (m : Memory α) : m.below 0 = [] := by simp [Memory.below]

/-! ### Writing a list of values -/

theorem putAll_wf {m : Memory α} (vs : List (α)) (i : Nat) (h : m.wf) : (m.putAll i vs).wf := by
  induction vs generalizing m i with
  | nil => exact h
  | cons v vs ih => exact ih (i + 1) (put_wf i v h)

theorem putAll_bound {m : Memory α} {n : Nat} (vs : List (α)) (i : Nat) (h : ∀ e ∈ m, e.1 < n)
    (hn : i + vs.length ≤ n) : ∀ e ∈ m.putAll i vs, e.1 < n := by
  induction vs generalizing m i with
  | nil => exact h
  | cons v vs ih =>
    simp only [List.length_cons] at hn
    exact ih (i + 1) (put_bound h (by omega)) (by omega)

theorem get?_putAll (m : Memory α) (vs : List (α)) (i a : Nat) :
    (m.putAll i vs).get? a = if i ≤ a ∧ a < i + vs.length then vs[a - i]? else m.get? a := by
  induction vs generalizing m i with
  | nil =>
    rw [if_neg (by simp)]; rfl
  | cons v vs ih =>
    simp only [Memory.putAll, ih, List.length_cons, get?_put]
    by_cases h1 : i + 1 ≤ a ∧ a < i + 1 + vs.length
    · have : a - i = (a - (i + 1)) + 1 := by omega
      rw [if_pos h1, if_pos (by omega), this, List.getElem?_cons_succ]
    · rw [if_neg h1]
      by_cases h2 : a = i
      · subst h2; simp
      · rw [if_neg h2, if_neg (by omega)]

/-! ### The three memories -/

theorem pixAt_put (m : Memory Byte) (a c : Nat) (v : Byte) :
    pixAt (m.put a v) c = if c = a then v else pixAt m c := by
  simp only [pixAt, get?_put]; split <;> rfl

@[simp] theorem pixAt_put_self (m : Memory Byte) (a : Nat) (v : Byte) : pixAt (m.put a v) a = v := by
  simp [pixAt_put]

theorem pixAt_put_ne (m : Memory Byte) {a c : Nat} (v : Byte) (h : c ≠ a) : pixAt (m.put a v) c = pixAt m c := by
  simp [pixAt_put, h]

theorem msgAt_put (q : Params) (m : Memory Nat) (a c : Nat) (v : Nat) :
    msgAt q (m.put a v) c = if c = a then v else msgAt q m c := by
  simp only [msgAt, get?_put]; split <;> rfl

theorem outAt_put (m : Memory Byte) (d a c : Nat) (v : Byte) :
    outAt (m.put a v) d c = if c = a then v else outAt m d c := by
  simp only [outAt, get?_put]; split <;> rfl

/-- Canonical pixel memories that list the same addresses and read alike are the same list. -/
theorem Memory.ext_of_listed {m m' : Memory Byte} (h : m.wf) (h' : m'.wf)
    (hl : ∀ a, (m.get? a).isSome = (m'.get? a).isSome) (hr : ∀ a, pixAt m a = pixAt m' a) : m = m' := by
  refine Memory.ext h h' fun a => ?_
  have h1 := hl a
  have h2 := hr a
  unfold pixAt at h2
  cases hm : m.get? a <;> cases hm' : m'.get? a <;> simp_all

end Sys2Proof.Machine
end

