-- ==== Sys2Proof/Laws/Mux.lean ====
section
/-! SUPPORT. The laws of the LSB-channel multiplexer: the arithmetic of `SLOT`, one sample's bit, what writing a run of
slots or alphas does to every sample, and the cursor. -/

namespace Sys2Proof.Machine

/-! ### `SLOT` -/

theorem slot_mod (k : Nat) : slot k % 4 = k % 3 := by unfold slot; omega

theorem slot_inj {j k : Nat} : slot j = slot k ↔ j = k := by unfold slot; omega

theorem slot_lt {k n : Nat} : slot k < 4 * n ↔ k < 3 * n := by unfold slot; omega

theorem slot_strictMono {j k : Nat} (h : j < k) : slot j < slot k := by unfold slot; omega

theorem slot_ne_alpha (k p : Nat) : slot k ≠ alphaAddr p := by unfold slot alphaAddr; omega

theorem slot_cursor (p : Nat) (c : Fin 3) : slot (3 * p + c.val) = 4 * p + c.val := by
  have := c.isLt; unfold slot; omega

theorem alphaAddr_inj {p q : Nat} : alphaAddr p = alphaAddr q ↔ p = q := by unfold alphaAddr; omega

theorem alphaAddr_lt {p n : Nat} : alphaAddr p < 4 * n ↔ p < n := by unfold alphaAddr; omega

/-- Every address is a slot or an alpha sample. -/
theorem slot_or_alpha (a : Nat) : (∃ k, a = slot k) ∨ ∃ p, a = alphaAddr p := by
  by_cases h : a % 4 = 3
  · exact .inr ⟨a / 4, by unfold alphaAddr; omega⟩
  · exact .inl ⟨3 * (a / 4) + a % 4, by unfold slot; omega⟩

/-! ### One sample -/

@[simp] theorem lsb_withLsb (v : Byte) (b : Bool) : lsb (withLsb v b) = b := by
  cases b <;> simp [lsb, withLsb]

theorem withLsb_bit (v : Byte) (b : Bool) {i : Nat} (hi : 0 < i) : (withLsb v b).getLsbD i = v.getLsbD i := by
  rcases Nat.lt_or_ge i 8 with h | h
  · cases b <;> (simp only [withLsb, BitVec.getLsbD_or, BitVec.getLsbD_and]; interval_cases i <;> simp)
  · simp [BitVec.getLsbD_of_ge, h]

@[simp] theorem withLsb_withLsb (v : Byte) (b c : Bool) : withLsb (withLsb v b) c = withLsb v c := by
  apply BitVec.eq_of_getLsbD_eq
  intro i _
  rcases Nat.eq_zero_or_pos i with rfl | hi
  · exact (lsb_withLsb _ _).trans (lsb_withLsb _ _).symm
  · rw [withLsb_bit _ _ hi, withLsb_bit _ _ hi, withLsb_bit _ _ hi]

theorem withLsb_lsb (v : Byte) : withLsb v (lsb v) = v := by
  apply BitVec.eq_of_getLsbD_eq
  intro i _
  rcases Nat.eq_zero_or_pos i with rfl | hi
  · exact lsb_withLsb _ _
  · exact withLsb_bit _ _ hi

/-! ### One slot, one alpha -/

theorem get?_lsbPut (m : Memory Byte) (k : Nat) (b : Bool) (a : Nat) :
    (lsbPut m k b).get? a = if a = slot k then some (withLsb (pixAt m a) b) else m.get? a := by
  unfold lsbPut
  rw [get?_put]
  split
  · subst_vars; rfl
  · rfl

theorem get?_alphaForce (m : Memory Byte) (p a : Nat) :
    (alphaForce m p).get? a = if a = alphaAddr p then some alphaForced else m.get? a := get?_put _ _ _ _

theorem pixAt_lsbPut (m : Memory Byte) (k : Nat) (b : Bool) (a : Nat) :
    pixAt (lsbPut m k b) a = if a = slot k then withLsb (pixAt m a) b else pixAt m a := by
  unfold lsbPut
  rw [pixAt_put]
  split
  · subst_vars; rfl
  · rfl

theorem pixAt_alphaForce (m : Memory Byte) (p a : Nat) :
    pixAt (alphaForce m p) a = if a = alphaAddr p then alphaForced else pixAt m a := pixAt_put _ _ _ _

/-- `LSBGET` after `LSBPUT` (rule R65). -/
theorem lsbGet_lsbPut (m : Memory Byte) (j k : Nat) (b : Bool) :
    lsbGet (lsbPut m k b) j = if j = k then b else lsbGet m j := by
  unfold lsbGet
  rw [pixAt_lsbPut]
  by_cases h : j = k
  · simp [h]
  · rw [if_neg (mt slot_inj.1 h), if_neg h]

@[simp] theorem lsbGet_alphaForce (m : Memory Byte) (p k : Nat) : lsbGet (alphaForce m p) k = lsbGet m k := by
  unfold lsbGet
  rw [pixAt_alphaForce, if_neg (slot_ne_alpha k p)]

theorem lsbPut_wf {m : Memory Byte} (k : Nat) (b : Bool) (h : m.wf) : (lsbPut m k b).wf := put_wf _ _ h

theorem alphaForce_wf {m : Memory Byte} (p : Nat) (h : m.wf) : (alphaForce m p).wf := put_wf _ _ h

theorem lsbPut_bound {m : Memory Byte} {n k : Nat} (b : Bool) (h : ∀ e ∈ m, e.1 < n) (hk : slot k < n) :
    ∀ e ∈ lsbPut m k b, e.1 < n := put_bound h hk

theorem alphaForce_bound {m : Memory Byte} {n p : Nat} (h : ∀ e ∈ m, e.1 < n) (hp : alphaAddr p < n) :
    ∀ e ∈ alphaForce m p, e.1 < n := put_bound h hp

/-! ### A run of slots -/

theorem get?_embed (bits : List Bool) (m : Memory Byte) (k a : Nat) :
    (embed m k bits).get? a =
      if h : ∃ j, j < bits.length ∧ a = slot (k + j) then
        some (withLsb (pixAt m a) (bits.getD h.choose false)) else m.get? a := by
  induction bits generalizing m k with
  | nil => simp [embed]
  | cons b bs ih =>
    simp only [embed, ih]
    by_cases h1 : ∃ j, j < bs.length ∧ a = slot (k + 1 + j)
    · have h2 : ∃ j, j < (b :: bs).length ∧ a = slot (k + j) := by
        obtain ⟨j, hj, ha⟩ := h1
        exact ⟨j + 1, by simpa using hj, by rw [ha]; congr 1; omega⟩
      rw [dif_pos h1, dif_pos h2]
      have e1 := h1.choose_spec
      have e2 := h2.choose_spec
      have e3 : h2.choose = h1.choose + 1 := by
        have := e1.2.symm.trans e2.2
        rw [slot_inj] at this; omega
      rw [pixAt_lsbPut, e3, List.getD_cons_succ]
      split
      · simp
      · rfl
    · rw [dif_neg h1, get?_lsbPut]
      by_cases h3 : a = slot k
      · have h2 : ∃ j, j < (b :: bs).length ∧ a = slot (k + j) := ⟨0, by simp, by simpa using h3⟩
        rw [dif_pos h2, if_pos h3]
        have e2 := h2.choose_spec
        have e3 : h2.choose = 0 := by
          have := h3.symm.trans e2.2
          rw [slot_inj] at this; omega
        rw [e3]; rfl
      · rw [if_neg h3, dif_neg]
        rintro ⟨j, hj, ha⟩
        cases j with
        | zero => exact h3 (by simpa using ha)
        | succ j => exact h1 ⟨j, by simpa using hj, by rw [ha]; congr 1; omega⟩

/-- The entry of a slot of the run. -/
theorem get?_embed_slot (bits : List Bool) (m : Memory Byte) {k i : Nat} (h1 : k ≤ i) (h2 : i < k + bits.length) :
    (embed m k bits).get? (slot i) = some (withLsb (pixAt m (slot i)) (bits.getD (i - k) false)) := by
  have h : ∃ j, j < bits.length ∧ slot i = slot (k + j) := ⟨i - k, by omega, by congr 1; omega⟩
  rw [get?_embed, dif_pos h]
  have e := h.choose_spec.2
  rw [slot_inj] at e
  rw [show h.choose = i - k by omega]

/-- The entry of an address outside the run. -/
theorem get?_embed_other (bits : List Bool) (m : Memory Byte) {k a : Nat}
    (h : ∀ i, k ≤ i → i < k + bits.length → a ≠ slot i) : (embed m k bits).get? a = m.get? a := by
  rw [get?_embed, dif_neg]
  rintro ⟨j, hj, ha⟩
  exact h (k + j) (by omega) (by omega) ha

theorem pixAt_embed_slot (bits : List Bool) (m : Memory Byte) {k i : Nat} (h1 : k ≤ i) (h2 : i < k + bits.length) :
    pixAt (embed m k bits) (slot i) = withLsb (pixAt m (slot i)) (bits.getD (i - k) false) := by
  rw [pixAt, get?_embed_slot _ _ h1 h2]; rfl

theorem pixAt_embed_other (bits : List Bool) (m : Memory Byte) {k a : Nat}
    (h : ∀ i, k ≤ i → i < k + bits.length → a ≠ slot i) : pixAt (embed m k bits) a = pixAt m a := by
  rw [pixAt, get?_embed_other _ _ h]; rfl

theorem embed_wf (bits : List Bool) {m : Memory Byte} (k : Nat) (h : m.wf) : (embed m k bits).wf := by
  induction bits generalizing m k with
  | nil => exact h
  | cons b bs ih => exact ih (k + 1) (lsbPut_wf k b h)

theorem embed_bound (bits : List Bool) {m : Memory Byte} {n k : Nat} (h : ∀ e ∈ m, e.1 < 4 * n)
    (hk : k + bits.length ≤ 3 * n) : ∀ e ∈ embed m k bits, e.1 < 4 * n := by
  induction bits generalizing m k with
  | nil => exact h
  | cons b bs ih =>
    simp only [List.length_cons] at hk
    exact ih (lsbPut_bound b h (slot_lt.2 (by omega))) (by omega)

/-! ### A run of alphas -/

theorem get?_forceAlphas (m : Memory Byte) (n a : Nat) :
    (forceAlphas m n).get? a = if a % 4 = 3 ∧ a / 4 < n then some alphaForced else m.get? a := by
  induction n with
  | zero => simp [forceAlphas]
  | succ n ih =>
    rw [forceAlphas, get?_alphaForce, ih]
    unfold alphaAddr
    by_cases h : a = 4 * n + 3
    · rw [if_pos h, if_pos (by omega)]
    · rw [if_neg h]; congr 1; exact propext ⟨fun _ => by omega, fun _ => by omega⟩

theorem pixAt_forceAlphas_slot (m : Memory Byte) (n k : Nat) :
    pixAt (forceAlphas m n) (slot k) = pixAt m (slot k) := by
  rw [pixAt, get?_forceAlphas, if_neg (by rw [slot_mod]; omega)]; rfl

theorem pixAt_forceAlphas_alpha (m : Memory Byte) (n p : Nat) :
    pixAt (forceAlphas m n) (alphaAddr p) = if p < n then alphaForced else pixAt m (alphaAddr p) := by
  rw [pixAt, get?_forceAlphas]
  have h1 : alphaAddr p % 4 = 3 := by unfold alphaAddr; omega
  have h2 : alphaAddr p / 4 = p := by unfold alphaAddr; omega
  rw [h1, h2]
  by_cases h : p < n <;> simp [h, pixAt]

@[simp] theorem lsbGet_forceAlphas (m : Memory Byte) (n k : Nat) : lsbGet (forceAlphas m n) k = lsbGet m k := by
  unfold lsbGet; rw [pixAt_forceAlphas_slot]

theorem forceAlphas_wf {m : Memory Byte} (n : Nat) (h : m.wf) : (forceAlphas m n).wf := by
  induction n with
  | zero => exact h
  | succ n ih => exact alphaForce_wf n ih

theorem forceAlphas_bound {m : Memory Byte} {n k : Nat} (h : ∀ e ∈ m, e.1 < 4 * k) (hn : n ≤ k) :
    ∀ e ∈ forceAlphas m n, e.1 < 4 * k := by
  induction n with
  | zero => exact h
  | succ n ih => exact alphaForce_bound (ih (by omega)) (alphaAddr_lt.2 (by omega))

/-! ### Extraction -/

@[simp] theorem extract_length (m : Memory Byte) (k n : Nat) : (extract m k n).length = n := by simp [extract]

theorem extract_getElem? (m : Memory Byte) (k n i : Nat) :
    (extract m k n)[i]? = if i < n then some (lsbGet m (k + i)) else none := by
  unfold extract
  rw [List.getElem?_map]
  by_cases h : i < n
  · simp [h]
  · simp [h]

theorem extract_append (m : Memory Byte) (k i j : Nat) :
    extract m k (i + j) = extract m k i ++ extract m (k + i) j := by
  unfold extract
  rw [← List.map_append, ← List.range'_append_1]

/-- Two buffers whose slots hold the same bits give the same stream. -/
theorem extract_congr {m m' : Memory Byte} {k n : Nat} (h : ∀ i, k ≤ i → i < k + n → lsbGet m i = lsbGet m' i) :
    extract m k n = extract m' k n := by
  unfold extract
  refine List.map_congr_left fun i hi => ?_
  rw [List.mem_range'_1] at hi
  exact h i hi.1 (by omega)

/-! ### Unspecified samples -/

theorem get?_scramble (m : Memory Byte) (d : Nat) (as : List Nat) (a : Nat) :
    (scramble m d as).get? a = if a ∈ as then some (Config.anySample d a) else m.get? a := by
  induction as generalizing m with
  | nil => simp [scramble]
  | cons b bs ih =>
    rw [scramble, ih, get?_put]
    by_cases h1 : a ∈ bs
    · simp [h1]
    · by_cases h2 : a = b <;> simp [h1, h2]

theorem scramble_wf {m : Memory Byte} (d : Nat) (as : List Nat) (h : m.wf) : (scramble m d as).wf := by
  induction as generalizing m with
  | nil => exact h
  | cons b bs ih => exact ih (put_wf _ _ h)

theorem scramble_bound {m : Memory Byte} {n : Nat} (d : Nat) (as : List Nat) (h : ∀ e ∈ m, e.1 < n)
    (has : ∀ a ∈ as, a < n) : ∀ e ∈ scramble m d as, e.1 < n := by
  induction as generalizing m with
  | nil => exact h
  | cons b bs ih =>
    exact ih (put_bound h (has b List.mem_cons_self)) fun a ha => has a (List.mem_cons_of_mem _ ha)

theorem mem_spanAddresses {b a : Nat} :
    a ∈ spanAddresses b ↔ (∃ k < b, a = slot k) ∨ ∃ p < spanPixels b, a = alphaAddr p := by
  simp [spanAddresses, eq_comm]

/-! ### The cursor -/

@[simp] theorem cursor_advance (w : Work) : w.advance.cursor = w.cursor + 1 := by
  have hc := w.ch.isLt
  unfold Work.advance Work.cursor
  split
  · rename_i h2
    simp only [h2]; simp; omega
  · rename_i h2
    have h3 : w.ch.val ≠ 2 := fun h => h2 (Fin.ext h)
    have h4 : (w.ch + 1).val = w.ch.val + 1 := by
      rw [Fin.val_add]; simp; omega
    simp only [h4]; omega

@[simp] theorem advance_sr (w : Work) : w.advance.sr = w.sr := by unfold Work.advance; split <;> rfl
@[simp] theorem advance_nb (w : Work) : w.advance.nb = w.nb := by unfold Work.advance; split <;> rfl
@[simp] theorem advance_bi (w : Work) : w.advance.bi = w.bi := by unfold Work.advance; split <;> rfl
@[simp] theorem advance_hok (w : Work) : w.advance.hok = w.hok := by unfold Work.advance; split <;> rfl
@[simp] theorem advanceBy_sr (w : Work) (n : Nat) : (w.advanceBy n).sr = w.sr := by
  induction n with
  | zero => rfl
  | succ n ih => simp [Work.advanceBy, ih]
@[simp] theorem advanceBy_nb (w : Work) (n : Nat) : (w.advanceBy n).nb = w.nb := by
  induction n with
  | zero => rfl
  | succ n ih => simp [Work.advanceBy, ih]
@[simp] theorem advanceBy_bi (w : Work) (n : Nat) : (w.advanceBy n).bi = w.bi := by
  induction n with
  | zero => rfl
  | succ n ih => simp [Work.advanceBy, ih]
@[simp] theorem advanceBy_hok (w : Work) (n : Nat) : (w.advanceBy n).hok = w.hok := by
  induction n with
  | zero => rfl
  | succ n ih => simp [Work.advanceBy, ih]

@[simp] theorem cursor_advanceBy (w : Work) (n : Nat) : (w.advanceBy n).cursor = w.cursor + n := by
  induction n with
  | zero => rfl
  | succ n ih => rw [Work.advanceBy, cursor_advance, ih, Nat.add_assoc]

@[simp] theorem started_cursor : Work.started.cursor = 0 := rfl

/-- The address the beats use is the slot of the cursor (rule R67). -/
theorem slot_of_cursor (w : Work) : slot w.cursor = 4 * w.p + w.ch.val := slot_cursor _ _

theorem cursor_div (w : Work) : w.cursor / 3 = w.p := by
  have := w.ch.isLt; unfold Work.cursor; omega

theorem cursor_mod (w : Work) : w.cursor % 3 = w.ch.val := by
  have := w.ch.isLt; unfold Work.cursor; omega

theorem ch_eq_two (w : Work) : w.ch = 2 ↔ w.cursor % 3 = 2 := by
  rw [cursor_mod]; exact ⟨fun h => congrArg Fin.val h, fun h => Fin.ext h⟩

/-- The cursor is a matter of `P` and `CH` alone. -/
theorem cursor_with (w : Work) (sr : Byte) (nb : BitVec 3) (bi : Nat) (hok : Bool) :
    ({ w with sr := sr, nb := nb, bi := bi, hok := hok } : Work).cursor = w.cursor := rfl

/-- The advance is a matter of `P` and `CH` alone. -/
theorem advance_with (w : Work) (sr : Byte) (nb : BitVec 3) (bi : Nat) (hok : Bool) :
    ({ w with sr := sr, nb := nb, bi := bi, hok := hok } : Work).advance =
      { w.advance with sr := sr, nb := nb, bi := bi, hok := hok } := by
  unfold Work.advance; split <;> rfl

end Sys2Proof.Machine
end

