-- ==== Sys2Proof/Laws/Bits.lean ====
section
/-! SUPPORT. The laws of the serializer and the deserializer: a byte and its 8 bits, the inverse laws over sequences, the
shift register, and the frame of a message. -/

namespace Sys2Proof.Machine

/-! ### A byte and its bits -/

@[simp] theorem byteBits_length (b : Byte) : (byteBits b).length = 8 := rfl

theorem byteBits_getElem? (b : Byte) {i : Nat} (h : i < 8) : (byteBits b)[i]? = some (b.getLsbD (7 - i)) := by
  interval_cases i <;> rfl

theorem byteOf_byteBits (b : Byte) :
    byteOf (b.getLsbD 7) (b.getLsbD 6) (b.getLsbD 5) (b.getLsbD 4) (b.getLsbD 3) (b.getLsbD 2) (b.getLsbD 1)
      (b.getLsbD 0) = b := by
  revert b; decide

theorem byteBits_byteOf (b7 b6 b5 b4 b3 b2 b1 b0 : Bool) :
    byteBits (byteOf b7 b6 b5 b4 b3 b2 b1 b0) = [b7, b6, b5, b4, b3, b2, b1, b0] := by
  revert b7 b6 b5 b4 b3 b2 b1 b0; decide

theorem byteOf_toNat (b7 b6 b5 b4 b3 b2 b1 b0 : Bool) :
    (byteOf b7 b6 b5 b4 b3 b2 b1 b0).toNat = 128 * b7.toNat + 64 * b6.toNat + 32 * b5.toNat + 16 * b4.toNat
      + 8 * b3.toNat + 4 * b2.toNat + 2 * b1.toNat + b0.toNat := by
  revert b7 b6 b5 b4 b3 b2 b1 b0; decide

theorem trunc8_zextCpw (b : Byte) : trunc8 (zextCpw b) = b := by revert b; decide

theorem zextCpw_trunc8 {c : Nat} (h : c ≤ 255) : zextCpw (trunc8 c) = c := by
  simp only [zextCpw, trunc8, BitVec.toNat_ofNat]
  exact Nat.mod_eq_of_lt (by omega)

/-! ### Sequences -/

@[simp] theorem serialize_nil : serialize [] = [] := rfl

@[simp] theorem serialize_cons (b : Byte) (bs : List Byte) : serialize (b :: bs) = byteBits b ++ serialize bs := rfl

@[simp] theorem serialize_append (bs cs : List Byte) : serialize (bs ++ cs) = serialize bs ++ serialize cs := by
  simp [serialize]

@[simp] theorem serialize_length (bs : List Byte) : (serialize bs).length = 8 * bs.length := by
  induction bs with
  | nil => rfl
  | cons b bs ih => rw [serialize_cons, List.length_append, ih, byteBits_length, List.length_cons]; omega

@[simp] theorem t2b_val (m : List Nat) : (t2b m).val = serialize (m.map trunc8) := rfl

theorem bytesOf_byteBits_append (b : Byte) (rest : List Bool) : bytesOf (byteBits b ++ rest) = b :: bytesOf rest := by
  show byteOf _ _ _ _ _ _ _ _ :: bytesOf rest = b :: bytesOf rest
  rw [byteOf_byteBits]

/-- `B2T` undoes `T2B` on bytes (rule R97, law 1). -/
@[simp] theorem bytesOf_serialize (bs : List Byte) : bytesOf (serialize bs) = bs := by
  induction bs with
  | nil => rfl
  | cons b bs ih => rw [serialize_cons, bytesOf_byteBits_append, ih]

theorem bytesOf_serialize_append (bs : List Byte) (rest : List Bool) : bytesOf (serialize bs ++ rest) = bs ++ bytesOf rest := by
  induction bs with
  | nil => rfl
  | cons b bs ih => rw [serialize_cons, List.append_assoc, bytesOf_byteBits_append, ih, List.cons_append]

/-- `T2B` undoes `B2T` on whole bytes (rule R97, law 3). -/
theorem serialize_bytesOf (n : Nat) : ∀ s : List Bool, s.length = 8 * n → serialize (bytesOf s) = s := by
  induction n with
  | zero => intro s h; have : s = [] := List.length_eq_zero_iff.1 (by omega); subst this; rfl
  | succ n ih =>
    intro s h
    match s, h with
    | b7 :: b6 :: b5 :: b4 :: b3 :: b2 :: b1 :: b0 :: rest, h =>
      simp only [List.length_cons] at h
      rw [bytesOf, serialize_cons, byteBits_byteOf, ih rest (by omega)]
      rfl
    | [], h | [_], h | [_, _], h | [_, _, _], h | [_, _, _, _], h | [_, _, _, _, _], h | [_, _, _, _, _, _], h
    | [_, _, _, _, _, _, _], h => simp only [List.length_cons, List.length_nil] at h; omega

theorem bytesOf_length (n : Nat) {s : List Bool} (h : s.length = 8 * n) : (bytesOf s).length = n := by
  have := congrArg List.length (serialize_bytesOf n s h)
  rw [serialize_length, h] at this; omega

/-- `B2T` of `T2B` is the low bytes of the code points (rule R97, law 2). -/
theorem b2t_t2b (m : List Nat) : b2t (t2b m) = m.map trunc8 := bytesOf_serialize _

/-- `B2T` of a sequence of whole bytes serializes to the sequence (rule R97, law 3). -/
theorem serialize_b2t (s : WholeBytes) : serialize (b2t s) = s.val :=
  serialize_bytesOf (s.val.length / 8) s.val (by have := s.property; omega)

/-- Bit `k` of serialized bytes: bit `7 − k mod 8` of byte `k div 8` (rule R49). -/
theorem serialize_getElem? (bs : List Byte) (k : Nat) :
    (serialize bs)[k]? = (bs[k / 8]?).map fun b => b.getLsbD (7 - k % 8) := by
  induction bs generalizing k with
  | nil => simp
  | cons b bs ih =>
    rw [serialize_cons]
    by_cases h : k < 8
    · rw [List.getElem?_append_left (by simpa using h), byteBits_getElem? b h, Nat.div_eq_of_lt h,
        Nat.mod_eq_of_lt h]; rfl
    · rw [List.getElem?_append_right (by simp; omega), byteBits_length, ih]
      have h1 : k / 8 = (k - 8) / 8 + 1 := by omega
      have h2 : k % 8 = (k - 8) % 8 := by omega
      rw [h1, List.getElem?_cons_succ, ← h2]

theorem serialize_getD {bs : List Byte} {k : Nat} (h : k / 8 < bs.length) :
    (serialize bs).getD k false = (bs.getD (k / 8) 0).getLsbD (7 - k % 8) := by
  rw [List.getD_eq_getElem?_getD, serialize_getElem?, List.getD_eq_getElem?_getD, List.getElem?_eq_getElem h]
  rfl

/-- Byte `j` of a sequence: the 8 bits from `8j` on, the first worth 128 (rules R51, R95). -/
theorem bytesOf_getElem? (n : Nat) (s : List Bool) (h : s.length = 8 * n) (j : Nat) :
    (bytesOf s)[j]? = if j < n then some (byteOf (s.getD (8 * j) false) (s.getD (8 * j + 1) false)
      (s.getD (8 * j + 2) false) (s.getD (8 * j + 3) false) (s.getD (8 * j + 4) false) (s.getD (8 * j + 5) false)
      (s.getD (8 * j + 6) false) (s.getD (8 * j + 7) false)) else none := by
  by_cases hj : j < n
  · rw [if_pos hj]
    have hl : j < (bytesOf s).length := by rw [bytesOf_length n h]; exact hj
    have hs := serialize_bytesOf n s h
    have bit : ∀ i, i < 8 → s.getD (8 * j + i) false = ((bytesOf s).getD j 0).getLsbD (7 - i) := by
      intro i hi
      have h1 : (8 * j + i) / 8 = j := by omega
      have h2 : (8 * j + i) % 8 = i := by omega
      conv => lhs; rw [← hs]
      rw [serialize_getD (by rw [h1]; exact hl), h1, h2]
    have b0 := bit 0 (by omega)
    rw [Nat.add_zero] at b0
    rw [b0, bit 1 (by omega), bit 2 (by omega), bit 3 (by omega), bit 4 (by omega), bit 5 (by omega),
      bit 6 (by omega), bit 7 (by omega), byteOf_byteBits, List.getD_eq_getElem?_getD, List.getElem?_eq_getElem hl]
    rfl
  · rw [if_neg hj, List.getElem?_eq_none]
    rw [bytesOf_length n h]; omega

/-! ### The shift register -/

/-- Eight bits shifted in leave the byte they spell, whatever `SR` held (rule R99). -/
theorem shiftIn_eight (sr : Byte) (b7 b6 b5 b4 b3 b2 b1 b0 : Bool) :
    [b7, b6, b5, b4, b3, b2, b1, b0].foldl shiftIn sr = byteOf b7 b6 b5 b4 b3 b2 b1 b0 := by
  apply BitVec.eq_of_getLsbD_eq
  intro i hi
  have h : ∀ j, j < 8 → (byteOf b7 b6 b5 b4 b3 b2 b1 b0).getLsbD (7 - j)
      = [b7, b6, b5, b4, b3, b2, b1, b0].getD j false := by
    intro j hj
    rw [← byteBits_byteOf, List.getD_eq_getElem?_getD, byteBits_getElem? _ hj]; rfl
  have h' := h (7 - i) (by omega)
  rw [show 7 - (7 - i) = i by omega] at h'
  rw [h']
  have one : ∀ b : Bool, (if b = true then (1#8) else 0#8) = (BitVec.ofBool b).zeroExtend 8 := by decide
  simp only [List.foldl, shiftIn, one]
  interval_cases i <;>
    simp

/-- The bit the serializer puts out on beat `i` of a byte is bit `7 − i` of it (rule R98). -/
theorem shiftOutBit_shiftOutBy (b : Byte) {i : Nat} (h : i < 8) :
    shiftOutBit (shiftOutBy b i) = b.getLsbD (7 - i) := by
  have : ∀ b : Byte, shiftOutBit (shiftOutBy b i) = b.getLsbD (7 - i) := by
    interval_cases i <;> decide
  exact this b

/-- Eight beats of the serializer shift every bit of the byte out. -/
theorem shiftOutBy_eight (b : Byte) : shiftOutBy b 8 = 0 := by revert b; decide

/-! ### The fixed bytes and the frame -/

@[simp] theorem magic_length : magic.length = 5 := rfl

theorem magicByte_ne_terminator {i : Nat} (h : i < 5) : magicByte i ≠ terminator := by
  interval_cases i <;> decide

theorem magic_getElem? {i : Nat} (h : i < 5) : magic[i]? = some (magicByte i) := by
  interval_cases i <;> rfl

@[simp] theorem frameBytes_length (m : List Nat) : (frameBytes m).length = 5 + m.length + 1 := by
  simp [frameBytes]; omega

@[simp] theorem message_length (s : State) : s.message.length = s.l := by simp [State.message]

theorem message_getElem? (s : State) {i : Nat} (h : i < s.l) : s.message[i]? = some (msgAt s.params s.msg i) := by
  simp [State.message, h]

/-- The frame of the message in `MSG`, byte by byte (rule R48). -/
theorem frameBytes_getElem? (s : State) {j : Nat} (h : j < 5 + s.l + 1) :
    (frameBytes s.message)[j]? = some (s.frameByte j) := by
  unfold frameBytes State.frameByte
  by_cases h1 : j < 5
  · rw [if_pos h1, List.append_assoc, List.getElem?_append_left (by simpa using h1), magic_getElem? h1]
  · rw [if_neg h1]
    by_cases h2 : j < 5 + s.l
    · rw [if_pos h2, List.getElem?_append_left (by simp; omega), List.getElem?_append_right (by simp; omega),
        List.getElem?_map, magic_length, message_getElem? s (by omega)]; rfl
    · rw [if_neg h2, List.getElem?_append_right (by simp; omega)]
      simp only [List.length_append, magic_length, List.length_map, message_length]
      rw [show j - (5 + s.l) = 0 by omega]; rfl

theorem frameBytes_getD (s : State) {j : Nat} (h : j < 5 + s.l + 1) (d : Byte) :
    (frameBytes s.message).getD j d = s.frameByte j := by
  rw [List.getD_eq_getElem?_getD, frameBytes_getElem? s h]; rfl

@[simp] theorem frameBits_length (s : State) : (serialize (frameBytes s.message)).length = requiredBits s.l := by
  simp [requiredBits]

/-- The frame bits are those of rule R49's formula. -/
theorem frameBits_getD (s : State) {k : Nat} (h : k < requiredBits s.l) :
    (serialize (frameBytes s.message)).getD k false = s.frameBit k := by
  unfold requiredBits at h
  rw [serialize_getD (by simp; omega), frameBytes_getD s (by omega)]; rfl

/-! ### Parsing a stream -/

theorem takeWhile_append_stop {p : Byte → Bool} {l : List Byte} {b : Byte} (hl : ∀ x ∈ l, p x = true)
    (hb : p b = false) (r : List Byte) : (l ++ b :: r).takeWhile p = l := by
  induction l with
  | nil => simp [hb]
  | cons a l ih =>
    rw [List.cons_append, List.takeWhile_cons_of_pos (hl a List.mem_cons_self),
      ih fun x hx => hl x (List.mem_cons_of_mem _ hx)]

/-- A stream whose first zero byte stands at `t` (rule R59): the message if the header matches, else nothing. -/
theorem parseFrame_of_terminator {c r : List Byte} (hc : ∀ x ∈ c, x ≠ terminator) :
    parseFrame (c ++ terminator :: r) = if magic.isPrefixOf c then some (c.drop 5) else none := by
  have h : (c ++ terminator :: r).takeWhile (· != terminator) = c :=
    takeWhile_append_stop (fun x hx => by simpa using hc x hx) (by simp) r
  unfold parseFrame
  simp only [h]
  simp

/-- A stream without a zero byte holds no message (rule R89). -/
theorem parseFrame_of_no_terminator {y : List Byte} (h : ∀ x ∈ y, x ≠ terminator) : parseFrame y = none := by
  have : y.takeWhile (· != terminator) = y := List.takeWhile_eq_self_iff.2 fun x hx => by simpa using h x hx
  unfold parseFrame
  simp [this]

end Sys2Proof.Machine
end

