-- ==== Sys2Proof/Laws/Decoder.lean ====
section
/-! SUPPORT. What the frame decoder does: the extracted stream by its formula, what a run of bytes taken in can have changed,
and that eight beats take in one byte. -/

namespace Sys2Proof.Machine

/-! ### The stream -/

theorem wholeBytes_mul (n : Nat) : 8 * wholeBytes n ≤ 3 * n := by unfold wholeBytes; omega

/-- The bytes of the stream are whole bytes of the slots from 0 on. -/
theorem streamBytes_eq (s : State) : s.streamBytes = bytesOf (extract s.pix 0 (8 * wholeBytes s.n)) := by
  show bytesOf ((extract s.pix 0 (3 * s.n)).take (8 * wholeBytes s.n)) = _
  congr 1
  have h := wholeBytes_mul s.n
  have e := extract_append s.pix 0 (8 * wholeBytes s.n) (3 * s.n - 8 * wholeBytes s.n)
  rw [show 8 * wholeBytes s.n + (3 * s.n - 8 * wholeBytes s.n) = 3 * s.n by omega] at e
  rw [e, List.take_left' (extract_length _ _ _)]

@[simp] theorem streamBytes_length (s : State) : s.streamBytes.length = wholeBytes s.n := by
  rw [streamBytes_eq, bytesOf_length _ (extract_length _ _ _)]

/-- The byte in the eight slots from slot `k` on. -/
def byteAt (m : Memory Byte) (k : Nat) : Byte :=
  byteOf (lsbGet m k) (lsbGet m (k + 1)) (lsbGet m (k + 2)) (lsbGet m (k + 3)) (lsbGet m (k + 4))
    (lsbGet m (k + 5)) (lsbGet m (k + 6)) (lsbGet m (k + 7))

theorem extract_eight (m : Memory Byte) (k : Nat) : extract m k 8 = byteBits (byteAt m k) := by
  rw [byteAt, byteBits_byteOf]; rfl

theorem streamBytes_getElem? (s : State) (j : Nat) :
    s.streamBytes[j]? = if j < wholeBytes s.n then some (byteAt s.pix (8 * j)) else none := by
  rw [streamBytes_eq, bytesOf_getElem? _ _ (extract_length _ _ _)]
  split
  · have g : ∀ i < 8, (extract s.pix 0 (8 * wholeBytes s.n)).getD (8 * j + i) false = lsbGet s.pix (8 * j + i) := by
      intro i hi
      rw [List.getD_eq_getElem?_getD, extract_getElem?, if_pos (by omega), Nat.zero_add]; rfl
    have g0 := g 0 (by omega)
    rw [Nat.add_zero] at g0
    rw [g0, g 1 (by omega), g 2 (by omega), g 3 (by omega), g 4 (by omega), g 5 (by omega), g 6 (by omega),
      g 7 (by omega)]
    rfl
  · rfl

/-- Byte `j` of the stream by rule R51's sum. -/
theorem streamByte_eq (s : State) (j : Nat) : s.streamByte j = (byteAt s.pix (8 * j)).toNat := by
  rw [byteAt, byteOf_toNat]
  simp [State.streamByte, List.range_succ]
  omega

theorem streamBytes_getD (s : State) {j : Nat} (h : j < wholeBytes s.n) (d : Byte) :
    (s.streamBytes.getD j d).toNat = s.streamByte j := by
  rw [List.getD_eq_getElem?_getD, streamBytes_getElem?, if_pos h, streamByte_eq]; rfl

/-- Two buffers with the same number of pixels whose slots hold the same bits give the same stream. -/
theorem streamBytes_congr {s s' : State} (hn : s.n = s'.n) (h : ∀ k < 3 * s.n, lsbGet s.pix k = lsbGet s'.pix k) :
    s.streamBytes = s'.streamBytes := by
  have := wholeBytes_mul s.n
  rw [streamBytes_eq, streamBytes_eq, ← hn]
  congr 1
  exact extract_congr fun i _ hi => h i (by omega)

/-! ### The completion step -/

theorem completeDecode_of_none {s : State} (h : parseFrame s.streamBytes = none) :
    completeDecode s = finishDecode .notFound 0 s := by
  unfold completeDecode; rw [h]

theorem completeDecode_of_some {s : State} {y : List Byte} (h : parseFrame s.streamBytes = some y) :
    completeDecode s = finishDecode .ok y.length
      { s with olen := y.length, out := s.out.putAll 0 y } := by
  unfold completeDecode; rw [h]

/-- A message found in a stream: its bytes are not zero, and the header and the terminator stood before and after it. -/
theorem parseFrame_some {ys y : List Byte} (h : parseFrame ys = some y) :
    (∀ x ∈ y, x ≠ terminator) ∧ y.length + 6 ≤ ys.length ∧ ∀ i < y.length, ys[5 + i]? = y[i]? := by
  unfold parseFrame at h
  simp only at h
  split at h
  · rename_i hc
    cases h
    have hp : (ys.takeWhile (· != terminator)) <+: ys := List.takeWhile_prefix _
    have h5 : 5 ≤ (ys.takeWhile (· != terminator)).length := by
      have := (List.isPrefixOf_iff_prefix.1 hc.2).length_le
      simpa using this
    refine ⟨fun x hx => ?_, ?_, fun i hi => ?_⟩
    · have := List.mem_takeWhile_imp (List.mem_of_mem_drop hx)
      simpa using this
    · rw [List.length_drop]; omega
    · rw [List.length_drop] at hi
      rw [List.getElem?_drop]
      obtain ⟨r, hr⟩ := hp
      conv => lhs; rw [← hr]
      rw [List.getElem?_append_left (by omega)]
  · cases h

theorem payload_length {s : State} {y : List Byte} (h : parseFrame s.streamBytes = some y) :
    y.length ≤ outBound s.n := by
  have := (parseFrame_some h).2.1
  rw [streamBytes_length] at this
  unfold outBound; unfold wholeBytes at this; omega

/-! ### The classification of a stream -/

/-- What stands before the first zero byte. -/
theorem parseFrame_at {ys : List Byte} {t : Nat} (ht : t < ys.length) (hz : ys[t]? = some terminator)
    (hb : ∀ j < t, ys[j]? ≠ some terminator) :
    parseFrame ys = if magic.isPrefixOf (ys.take t) then some ((ys.take t).drop 5) else none := by
  have e : ys = ys.take t ++ terminator :: ys.drop (t + 1) := by
    rw [List.getElem?_eq_getElem ht] at hz
    have := Option.some.inj hz
    conv => lhs; rw [← List.take_append_drop t ys]
    rw [List.drop_eq_getElem_cons ht, this]
  conv => lhs; rw [e]
  apply parseFrame_of_terminator
  intro x hx hxt
  obtain ⟨j, hj, hjx⟩ := List.mem_iff_getElem.1 hx
  rw [List.length_take] at hj
  apply hb j (by omega)
  rw [List.getElem?_eq_getElem (by omega)]
  rw [List.getElem_take] at hjx
  rw [hjx, hxt]

theorem streamBytes_zero (s : State) {j : Nat} (h : j < wholeBytes s.n) :
    s.streamBytes[j]? = some terminator ↔ s.streamByte j = 0 := by
  rw [streamBytes_getElem?, if_pos h, streamByte_eq]
  constructor
  · intro h; rw [Option.some.inj h]; rfl
  · intro h; congr 1; exact BitVec.eq_of_toNat_eq h

theorem header_iff (s : State) {t : Nat} (ht : t < wholeBytes s.n) (h5 : 5 ≤ t) : magic.isPrefixOf
    (s.streamBytes.take t) ↔ s.HeaderMatches := by
  rw [List.isPrefixOf_iff_prefix, List.prefix_iff_getElem?]
  constructor
  · intro h i hi
    have := h i (by simpa using hi)
    rw [List.getElem?_take, if_pos (by omega), streamBytes_getElem?, if_pos (by omega)] at this
    rw [streamByte_eq, Option.some.inj this]
    have := magic_getElem? hi
    rw [List.getElem?_eq_getElem (by simpa using hi)] at this
    rw [Option.some.inj this]
  · intro h i hi
    have hi5 : i < 5 := by simpa using hi
    rw [List.getElem?_take, if_pos (by omega), streamBytes_getElem?, if_pos (by omega)]
    have := magic_getElem? hi5
    rw [List.getElem?_eq_getElem hi] at this
    rw [Option.some.inj this]
    congr 1
    apply BitVec.eq_of_toNat_eq
    rw [← streamByte_eq, h i hi5]

/-- The payload of a stream by rule R59's classification. -/
theorem parseFrame_stream (s : State) :
    (∀ t, s.TerminatorAt t → 5 ≤ t → s.HeaderMatches →
      parseFrame s.streamBytes = some ((s.streamBytes.take t).drop 5)) ∧
    ((∀ x, ¬ s.TerminatorAt x) ∨ (∃ x, s.TerminatorAt x ∧ x < 5) ∨
      (∃ x, s.TerminatorAt x ∧ 5 ≤ x ∧ ¬ s.HeaderMatches) → parseFrame s.streamBytes = none) := by
  have key : ∀ t, s.TerminatorAt t → parseFrame s.streamBytes =
      if magic.isPrefixOf (s.streamBytes.take t) then some ((s.streamBytes.take t).drop 5) else none := by
    intro t ht
    refine parseFrame_at (by rw [streamBytes_length]; exact ht.1)
        ((streamBytes_zero s ht.1).2 ht.2.1) fun j hj h => ?_
    exact ht.2.2 j hj ((streamBytes_zero s (by have := ht.1; omega)).1 h)
  refine ⟨fun t ht h5 hm => ?_, ?_⟩
  · rw [key t ht, if_pos ((header_iff s ht.1 h5).2 hm)]
  · rintro (h | ⟨x, hx, h5⟩ | ⟨x, hx, h5, hm⟩)
    · apply parseFrame_of_no_terminator
      intro x hx hxt
      obtain ⟨j, hj, hjx⟩ := List.mem_iff_getElem.1 hx
      rw [streamBytes_length] at hj
      -- least
      have hex : ∃ j, j < wholeBytes s.n ∧ s.streamByte j = 0 := ⟨j, hj, (streamBytes_zero s hj).1
          (by rw [List.getElem?_eq_getElem (by simpa using hj), hjx, hxt])⟩
      classical
      have h1 := Nat.find_spec hex
      refine h (Nat.find hex) ⟨h1.1, h1.2, fun i hi => ?_⟩
      have h2 := Nat.find_min hex hi
      exact fun h3 => h2 ⟨by omega, h3⟩
    · rw [key x hx, if_neg]
      rw [List.isPrefixOf_iff_prefix]
      intro hp
      have := hp.length_le
      rw [List.length_take, magic_length] at this
      omega
    · rw [key x hx, if_neg (fun h => hm ((header_iff s hx.1 h5).1 h))]

theorem outAt_completed {s : State} {y : List Byte} (i : Nat) (d : Nat) :
    outAt ((s.out.putAll 0 y).below y.length) d i = if i < y.length then y.getD i 0 else Config.anyOut d i := by
  unfold outAt
  rw [get?_below, get?_putAll]
  by_cases h : i < y.length
  · rw [if_pos h, if_pos ⟨Nat.zero_le _, by omega⟩, if_pos h, Nat.sub_zero, List.getElem?_eq_getElem h,
        List.getD_eq_getElem?_getD, List.getElem?_eq_getElem h]; rfl
  · rw [if_neg h, if_neg h]; rfl

theorem decodedBytes_of_some {s : State} {y : List Byte} (hy : parseFrame s.streamBytes = some y) :
    (completeDecode s).decodedBytes = y := by
  rw [completeDecode_of_some hy]
  unfold State.decodedBytes
  rw [finishDecode_olen]
  dsimp only
  apply List.ext_getElem?
  intro i
  rw [List.getElem?_map]
  by_cases hi : i < y.length
  · rw [List.getElem?_range hi]
    show some (outAt ((s.out.putAll 0 _).below _) s.draws i) = _
    rw [outAt_completed, if_pos hi, List.getD_eq_getElem?_getD, List.getElem?_eq_getElem hi]; rfl
  · rw [List.getElem?_eq_none (by simpa using hi), List.getElem?_eq_none (by simpa using hi)]; rfl

/-! ### One byte taken in -/

/-- What a completed byte does, with the working registers it finds. -/
theorem byteDone_with (s : State) (w : Work) :
    byteDone { s with work := w } =
      if w.sr = terminator then
        if 5 ≤ w.bi ∧ w.hok = true then
          finishDecode .ok (w.bi - 5) { s with olen := w.bi - 5 }
        else finishDecode .notFound 0 s
      else if w.bi < 5 then
        { s with work := { w with hok := w.hok && w.sr == magicByte w.bi, bi := w.bi + 1 } }
      else
        { s with out := if w.bi - 5 < outBound s.n then s.out.put (w.bi - 5) w.sr else s.out,
                 work := { w with bi := w.bi + 1 } } := rfl

/-- The working registers after a byte other than zero. -/
def Work.afterByte (w : Work) (b : Byte) : Work :=
  { w.advanceBy 8 with
    sr := b, bi := w.bi + 1,
    hok := if w.bi < 5 then w.hok && b == magicByte w.bi else w.hok }

/-- `OUT` after a byte other than zero. -/
def outAfterByte (s : State) (b : Byte) : Memory Byte :=
  if 5 ≤ s.work.bi ∧ s.work.bi - 5 < outBound s.n then s.out.put (s.work.bi - 5) b else s.out

/-- A byte other than zero taken in: the working registers and `OUT`, and nothing else. -/
theorem takeByte_nonzero (s : State) {b : Byte} (hb : b ≠ terminator) :
    takeByte s b = { s with work := s.work.afterByte b, out := outAfterByte s b } := by
  unfold takeByte
  rw [byteDone_with]
  simp only [if_neg hb, advanceBy_bi, advanceBy_hok, Work.afterByte, outAfterByte]
  by_cases h : s.work.bi < 5
  · rw [if_pos h, if_neg (show ¬ (5 ≤ s.work.bi ∧ _) by omega), if_pos h]
  · rw [if_neg h, if_neg h]
    by_cases h2 : s.work.bi - 5 < outBound s.n
    · rw [if_pos h2, if_pos (show 5 ≤ s.work.bi ∧ _ from ⟨by omega, h2⟩)]
    · rw [if_neg h2, if_neg (show ¬ (5 ≤ s.work.bi ∧ _) from fun hh => h2 hh.2)]

/-- A zero byte taken in ends the command. -/
theorem takeByte_zero (s : State) :
    takeByte s terminator =
      if 5 ≤ s.work.bi ∧ s.work.hok = true then
        finishDecode .ok (s.work.bi - 5) { s with olen := s.work.bi - 5 }
      else finishDecode .notFound 0 s := by
  unfold takeByte
  rw [byteDone_with]
  simp only [if_true, advanceBy_bi, advanceBy_hok]

/-- A byte taken in: the working registers the completed byte finds. -/
theorem takeByte_work (s : State) (b : Byte) :
    ∃ w : Work, takeByte s b = byteDone { s with work := w } ∧ w.sr = b ∧ w.nb = s.work.nb ∧ w.bi = s.work.bi ∧
      w.hok = s.work.hok ∧ w.cursor = s.work.cursor + 8 := by
  have h1 := advanceBy_nb s.work 8
  have h2 := advanceBy_bi s.work 8
  have h3 := advanceBy_hok s.work 8
  have h4 := cursor_advanceBy s.work 8
  unfold takeByte
  generalize s.work.advanceBy 8 = w at *
  exact ⟨_, rfl, rfl, h1, h2, h3, h4⟩

@[simp] theorem afterByte_cursor (w : Work) (b : Byte) : (w.afterByte b).cursor = w.cursor + 8 := by
  unfold Work.afterByte
  dsimp only
  rw [cursor_with, cursor_advanceBy]

@[simp] theorem afterByte_sr (w : Work) (b : Byte) : (w.afterByte b).sr = b := rfl
@[simp] theorem afterByte_nb (w : Work) (b : Byte) : (w.afterByte b).nb = w.nb := by
  unfold Work.afterByte; dsimp only; exact advanceBy_nb w 8
@[simp] theorem afterByte_bi (w : Work) (b : Byte) : (w.afterByte b).bi = w.bi + 1 := rfl
theorem afterByte_hok (w : Work) (b : Byte) :
    (w.afterByte b).hok = if w.bi < 5 then w.hok && b == magicByte w.bi else w.hok := rfl

/-! ### Bytes taken in from frame byte 0 -/

/-- Taking the bytes in one after the other, while they are not zero. -/
def afterBytes (s : State) (c : List Byte) : State := c.foldl takeByte s

theorem afterBytes_snoc (s : State) (c : List Byte) (b : Byte) :
    afterBytes s (c ++ [b]) = takeByte (afterBytes s c) b := by simp [afterBytes]

/-- The state a DECODE is in after the nonzero bytes `c`, from frame byte 0 on. -/
structure Taken (s₀ : State) (c : List Byte) (s : State) : Prop where
  frame : s = { s₀ with work := s.work, out := s.out }
  nb : s.work.nb = s₀.work.nb
  bi : s.work.bi = c.length
  cursor : s.work.cursor = s₀.work.cursor + 8 * c.length
  hok : s.work.hok = true ↔ s₀.work.hok = true ∧ ∀ i < 5, i < c.length → c.getD i 0 = magicByte i
  out : s.out = s₀.out.putAll 0 ((c.drop 5).take (outBound s₀.n))

theorem Taken.refl {s : State} (h : s.work.bi = 0) : Taken s [] s where
  frame := rfl
  nb := rfl
  bi := by rw [h]; rfl
  cursor := rfl
  hok := by simp
  out := by simp [Memory.putAll]

theorem putAll_snoc {α : Type} (m : Memory α) (i : Nat) (vs : List α) (v : α) :
    m.putAll i (vs ++ [v]) = (m.putAll i vs).put (i + vs.length) v := by
  induction vs generalizing m i with
  | nil => rfl
  | cons u vs ih =>
    simp only [List.cons_append, Memory.putAll, ih, List.length_cons]
    congr 1; omega

theorem Taken.snoc {s₀ s : State} {c : List Byte} (h : Taken s₀ c s) {b : Byte} (hb : b ≠ terminator) :
    Taken s₀ (c ++ [b]) (takeByte s b) := by
  rw [takeByte_nonzero s hb]
  have hn : s.n = s₀.n := by rw [h.frame]; rfl
  have hbi := h.bi
  refine ⟨?_, ?_, ?_, ?_, ?_, ?_⟩
  · exact congrArg (fun t : State => { t with work := s.work.afterByte b, out := outAfterByte s b }) h.frame
  · exact (afterByte_nb _ _).trans h.nb
  · show s.work.bi + 1 = _
    rw [hbi, List.length_append, List.length_singleton]
  · show (s.work.afterByte b).cursor = _
    rw [afterByte_cursor, h.cursor, List.length_append, List.length_singleton]; omega
  · show (s.work.afterByte b).hok = true ↔ _
    rw [afterByte_hok, hbi]
    have hget : ∀ i < c.length, (c ++ [b]).getD i 0 = c.getD i 0 := fun i hi => by
      rw [List.getD_eq_getElem?_getD, List.getElem?_append_left hi, List.getD_eq_getElem?_getD]
    have hlast : (c ++ [b]).getD c.length 0 = b := by
      rw [List.getD_eq_getElem?_getD, List.getElem?_append_right (Nat.le_refl _), Nat.sub_self]; rfl
    rw [List.length_append, List.length_singleton]
    by_cases h5 : c.length < 5
    · rw [if_pos h5, Bool.and_eq_true, h.hok, beq_iff_eq]
      constructor
      · rintro ⟨⟨h0, h1⟩, h2⟩
        refine ⟨h0, fun i hi hic => ?_⟩
        by_cases hi' : i = c.length
        · subst hi'; rw [hlast]; exact h2
        · rw [hget i (by omega)]; exact h1 i hi (by omega)
      · rintro ⟨h0, h1⟩
        refine ⟨⟨h0, fun i hi hic => ?_⟩, ?_⟩
        · rw [← hget i hic]; exact h1 i hi (by omega)
        · rw [← hlast]; exact h1 c.length h5 (by omega)
    · rw [if_neg h5, h.hok]
      constructor
      · rintro ⟨h0, h1⟩
        exact ⟨h0, fun i hi _ => by rw [hget i (by omega)]; exact h1 i hi (by omega)⟩
      · rintro ⟨h0, h1⟩
        exact ⟨h0, fun i hi hic => by rw [← hget i hic]; exact h1 i hi (by omega)⟩
  · show outAfterByte s b = _
    unfold outAfterByte
    rw [hbi, hn, h.out]
    by_cases h5 : 5 ≤ c.length
    · rw [List.drop_append_of_le_length h5]
      by_cases hlt' : c.length - 5 < outBound s₀.n
      · rw [if_pos ⟨h5, hlt'⟩, List.take_of_length_le (by simp; omega), List.take_of_length_le (by simp; omega),
          putAll_snoc]
        simp
      · rw [if_neg fun hh => hlt' hh.2, List.take_append_of_le_length (by simp; omega)]
    · rw [if_neg fun hh => h5 hh.1, List.drop_eq_nil_of_le (by omega), List.drop_eq_nil_of_le (by simp; omega)]

/-- The state after bytes none of which is zero, by the bytes. -/
theorem taken_afterBytes {s : State} (h : s.work.bi = 0) (c : List Byte) (hc : ∀ x ∈ c, x ≠ terminator) :
    Taken s c (afterBytes s c) := by
  induction c using List.reverseRecOn with
  | nil => exact Taken.refl h
  | append_singleton c b ih =>
    rw [afterBytes_snoc]
    exact (ih fun x hx => hc x (List.mem_append_left _ hx)).snoc (hc b (List.mem_append_right _ List.mem_cons_self))

/-! ### Beats -/

/-- The working registers after one slot is shifted in. -/
def Work.beat (w : Work) (m : Memory Byte) : Work :=
  { w.advance with sr := shiftIn w.sr (lsbGet m w.cursor), nb := w.nb + 1 }

@[simp] theorem beat_cursor (w : Work) (m : Memory Byte) : (w.beat m).cursor = w.cursor + 1 := by
  unfold Work.beat; dsimp only; rw [cursor_with, cursor_advance]
@[simp] theorem beat_sr (w : Work) (m : Memory Byte) : (w.beat m).sr = shiftIn w.sr (lsbGet m w.cursor) := rfl
@[simp] theorem beat_nb (w : Work) (m : Memory Byte) : (w.beat m).nb = w.nb + 1 := rfl
@[simp] theorem beat_bi (w : Work) (m : Memory Byte) : (w.beat m).bi = w.bi := advance_bi w
@[simp] theorem beat_hok (w : Work) (m : Memory Byte) : (w.beat m).hok = w.hok := advance_hok w

theorem endExhausted_of_idle {s : State} (h : s.status.busy = false) : endExhausted s = s := by
  unfold endExhausted; rw [h, if_neg fun hh => Bool.false_ne_true hh.1]

theorem endExhausted_of_lt {s : State} (h : s.work.cursor < 3 * s.n) : endExhausted s = s := by
  have := cursor_div s.work
  unfold endExhausted; rw [if_neg fun hh => by omega]

theorem endExhausted_of_end {s : State} (hb : s.status.busy = true) (h : 3 * s.n ≤ s.work.cursor) :
    endExhausted s = finishDecode .notFound 0 s := by
  have := cursor_div s.work
  unfold endExhausted; rw [if_pos ⟨hb, by omega⟩]

/-- The end takes nothing back: what it leaves is the state or its end. -/
theorem endExhausted_cases (s : State) :
    endExhausted s = s ∨ (s.status.busy = true ∧ endExhausted s = finishDecode .notFound 0 s) := by
  unfold endExhausted
  split
  · rename_i h; exact .inr ⟨h.1, rfl⟩
  · exact .inl rfl

theorem endExhausted_byteDone {s : State} (h : s.work.cursor < 3 * s.n ∨ s.work.sr = terminator) :
    endExhausted (byteDone s) = byteDone s := by
  unfold byteDone
  dsimp only
  split
  · split <;> exact endExhausted_of_idle rfl
  · rename_i hz
    have h := h.resolve_right hz
    split <;> exact endExhausted_of_lt h

theorem endExhausted_byteDone_with (s : State) (w : Work) (h : w.cursor < 3 * s.n ∨ w.sr = terminator) :
    endExhausted (byteDone { s with work := w }) = byteDone { s with work := w } := endExhausted_byteDone h

/-- One beat below the end of the buffer, with the working registers it finds. -/
theorem decodeBeat_with (s : State) {w : Work} (h : w.cursor < 3 * s.n) :
    decodeBeat { s with work := w } = endExhausted
      (if w.nb = 7 then byteDone { s with work := w.beat s.pix } else { s with work := w.beat s.pix }) := by
  have hp : w.p < s.n := by rw [← cursor_div]; omega
  have e1 : lsb (pixAt s.pix (4 * w.p + w.ch.val)) = lsbGet s.pix w.cursor := by rw [← slot_of_cursor]; rfl
  unfold decodeBeat
  rw [if_pos (show ({ s with work := w } : State).work.p < ({ s with work := w } : State).n from hp)]
  dsimp only
  rw [e1]; rfl

/-- One beat that does not pass the last slot. -/
theorem decodeBeat_of_lt (s : State) {w : Work} (h : w.cursor + 1 < 3 * s.n) :
    decodeBeat { s with work := w } =
      if w.nb = 7 then byteDone { s with work := w.beat s.pix } else { s with work := w.beat s.pix } := by
  have hc : (w.beat s.pix).cursor < 3 * s.n := by rw [beat_cursor]; exact h
  rw [decodeBeat_with s (by omega)]
  split
  · exact endExhausted_byteDone (.inl hc)
  · exact endExhausted_of_lt hc

/-- The beat of the last slot ends the command, unless it completes a zero byte. -/
theorem decodeBeat_of_last {s : State} {w : Work} (hb : s.status.busy = true) (h : w.cursor + 1 = 3 * s.n)
    (hz : w.nb = 7 → (w.beat s.pix).sr ≠ terminator) :
    decodeBeat { s with work := w } = finishDecode .notFound 0 s := by
  have hc : (w.beat s.pix).cursor = 3 * s.n := by rw [beat_cursor]; exact h
  have clear : ∀ (u : Work) (o : Memory Byte),
      finishDecode .notFound 0 { s with work := u, out := o } = finishDecode .notFound 0 s := fun u o => by
    unfold finishDecode; rw [below_zero, below_zero]; rfl
  have ends : ∀ (u : Work) (o : Memory Byte), u.cursor = 3 * s.n →
      endExhausted { s with work := u, out := o } = finishDecode .notFound 0 s := fun u o hu =>
    (endExhausted_of_end (s := { s with work := u, out := o }) hb (Nat.le_of_eq hu.symm)).trans (clear u o)
  rw [decodeBeat_with s (by omega)]
  split
  · rename_i h7
    rw [byteDone_with, if_neg (hz h7)]
    split
    · exact ends _ s.out hc
    · exact ends _ _ hc
  · exact ends _ s.out hc

theorem decodeBeat_of_exhausted {s : State} (h : 3 * s.n ≤ s.work.cursor) :
    decodeBeat s = finishDecode .notFound 0 s := by
  have hp : ¬ s.work.p < s.n := by rw [← cursor_div]; omega
  unfold decodeBeat
  rw [if_neg hp]

/-! ### Eight beats are one byte -/

/-- A number of beats after one another. -/
def decodeBeats : Nat → State → State
  | 0, s => s
  | n + 1, s => decodeBeat (decodeBeats n s)

/-- The working registers after `i` bits of a byte shifted in, `i` at most 8. -/
def Work.shifted (w : Work) (m : Memory Byte) (i : Nat) : Work :=
  { w.advanceBy i with sr := (extract m w.cursor i).foldl shiftIn w.sr, nb := BitVec.ofNat 3 i }

@[simp] theorem shifted_cursor (w : Work) (m : Memory Byte) (i : Nat) : (w.shifted m i).cursor = w.cursor + i := by
  unfold Work.shifted; dsimp only; rw [cursor_with, cursor_advanceBy]

theorem shifted_zero {w : Work} (m : Memory Byte) (h : w.nb = 0) : w.shifted m 0 = w := by
  obtain ⟨p, ch, sr, nb, bi, hok⟩ := w
  dsimp only at h
  subst h
  rfl

theorem shifted_succ (w : Work) (m : Memory Byte) (i : Nat) : (w.shifted m i).beat m = w.shifted m (i + 1) := by
  have hi1 : BitVec.ofNat 3 i + 1 = BitVec.ofNat 3 (i + 1) := by
    apply BitVec.eq_of_toNat_eq; simp [BitVec.toNat_add]
  have hx : extract m w.cursor (i + 1) = extract m w.cursor i ++ [lsbGet m (w.cursor + i)] := extract_append _ _ _ 1
  unfold Work.beat Work.shifted
  dsimp only
  rw [advance_with, cursor_with (w.advanceBy i), cursor_advanceBy, hi1, hx, List.foldl_append, List.foldl_cons,
    List.foldl_nil, Work.advanceBy]
  dsimp only
  rw [advance_bi, advance_hok]

/-- Fewer than eight beats from a byte boundary, none of the last slot: the bits are in `SR`, the rest is as it was. -/
theorem decodeBeats_lt_eight {s : State} (hnb : s.work.nb = 0) {i : Nat} (hi : i < 8)
    (hc : s.work.cursor + i < 3 * s.n ∨ i = 0) : decodeBeats i s = { s with work := s.work.shifted s.pix i } := by
  induction i with
  | zero => rw [shifted_zero s.pix hnb]; rfl
  | succ i ih =>
    have h7 : BitVec.ofNat 3 i ≠ 7 := by
      have : i < 7 := by omega
      interval_cases i <;> decide
    rw [decodeBeats, ih (by omega) (by omega), decodeBeat_of_lt s (by rw [shifted_cursor]; omega), shifted_succ,
      if_neg (show (s.work.shifted s.pix i).nb ≠ 7 from h7)]

/-- After the eighth beat the byte of the eight slots is in `SR`. -/
theorem shifted_eight {w : Work} (m : Memory Byte) (h : w.nb = 0) :
    w.shifted m 8 = { w.advanceBy 8 with sr := byteAt m w.cursor } := by
  unfold Work.shifted
  rw [extract_eight, byteBits, shiftIn_eight, byteOf_byteBits]
  have hn : (w.advanceBy 8).nb = 0 := (advanceBy_nb w 8).trans h
  generalize w.advanceBy 8 = v at hn
  obtain ⟨p, ch, sr, nb, bi, hok⟩ := v
  dsimp only at hn
  subst hn
  rfl

/-- Eight beats from a byte boundary take in the byte of the eight slots; with the last slot of the buffer the command
ends by itself, unless the byte is zero. -/
theorem decodeBeats_eight {s : State} (hnb : s.work.nb = 0) (hc : s.work.cursor + 8 ≤ 3 * s.n)
    (h : s.work.cursor + 8 < 3 * s.n ∨ byteAt s.pix s.work.cursor = terminator) :
    decodeBeats 8 s = takeByte s (byteAt s.pix s.work.cursor) := by
  have h8 := shifted_eight s.pix hnb
  have he := endExhausted_byteDone_with s (s.work.shifted s.pix 8)
    (h.imp (fun h => by rw [shifted_cursor]; exact h) fun h => by rw [h8]; exact h)
  rw [decodeBeats, decodeBeats_lt_eight hnb (by omega : 7 < 8) (by omega),
    decodeBeat_with s (by rw [shifted_cursor]; omega), shifted_succ,
    if_pos (show (s.work.shifted s.pix 7).nb = 7 from rfl), he, h8]
  rfl

end Sys2Proof.Machine
end

