-- ==== Sys2Proof/Laws/Encoder.lean ====
section
/-! SUPPORT. What the frame encoder does: the samples after the completion step, and everything a run of emitted bits can
change. -/

namespace Sys2Proof.Machine

/-! ### Arithmetic of the frame -/

theorem requiredBits_mod (l : Nat) : requiredBits l % 8 = 0 := by unfold requiredBits; omega

theorem requiredBits_pos (l : Nat) : 0 < requiredBits l := by unfold requiredBits; omega

theorem spanPixels_le {b n : Nat} (h : b ≤ 3 * n) : spanPixels b ≤ n := by unfold spanPixels; omega

theorem lt_spanPixels {b p : Nat} : p < spanPixels b ↔ 3 * p < b := by unfold spanPixels; omega

theorem not_overfull {s : State} : ¬ s.overfull ↔ requiredBits s.l ≤ capacity s.n := Nat.not_lt

/-! ### The completion step -/

/-- `PIX` after an ENCODE that fits. -/
def State.encodedPix (s : State) : Memory Byte :=
  forceAlphas (embed s.pix 0 (serialize (frameBytes s.message))) (spanPixels (requiredBits s.l))

theorem completeEncode_of_overfull {s : State} (h : s.overfull) :
    completeEncode s = finish .capacityExceeded s := if_pos h

theorem completeEncode_of_fits {s : State} (h : ¬ s.overfull) :
    completeEncode s = finish .ok { s with pix := s.encodedPix } := if_neg h

theorem get?_encodedPix_slot (s : State) (k : Nat) :
    s.encodedPix.get? (slot k) =
      if k < requiredBits s.l then some (withLsb (pixAt s.pix (slot k)) (s.frameBit k)) else s.pix.get? (slot k) := by
  unfold State.encodedPix
  rw [get?_forceAlphas, if_neg (by rw [slot_mod]; omega)]
  split
  · rename_i h
    rw [get?_embed_slot _ _ (Nat.zero_le k) (by rw [frameBits_length]; omega), Nat.sub_zero, frameBits_getD s h]
  · rename_i h
    refine get?_embed_other _ _ fun i _ hi => ?_
    rw [frameBits_length] at hi
    exact fun he => h (by have := slot_inj.1 he; omega)

theorem get?_encodedPix_alpha (s : State) (p : Nat) :
    s.encodedPix.get? (alphaAddr p) =
      if p < spanPixels (requiredBits s.l) then some alphaForced else s.pix.get? (alphaAddr p) := by
  unfold State.encodedPix
  have h1 : alphaAddr p % 4 = 3 := by unfold alphaAddr; omega
  have h2 : alphaAddr p / 4 = p := by unfold alphaAddr; omega
  rw [get?_forceAlphas, h1, h2, get?_embed_other _ _ fun i _ _ he => slot_ne_alpha i p he.symm]
  simp

theorem pixAt_encodedPix_slot (s : State) (k : Nat) :
    pixAt s.encodedPix (slot k) =
      if k < requiredBits s.l then withLsb (pixAt s.pix (slot k)) (s.frameBit k) else pixAt s.pix (slot k) := by
  rw [pixAt, get?_encodedPix_slot]; split <;> rfl

theorem pixAt_encodedPix_alpha (s : State) (p : Nat) :
    pixAt s.encodedPix (alphaAddr p) =
      if p < spanPixels (requiredBits s.l) then alphaForced else pixAt s.pix (alphaAddr p) := by
  rw [pixAt, get?_encodedPix_alpha]; split <;> rfl

theorem encodedPix_wf {s : State} (h : s.pix.wf) : s.encodedPix.wf := forceAlphas_wf _ (embed_wf _ _ h)

theorem encodedPix_bound {s : State} {n : Nat} (h : ∀ e ∈ s.pix, e.1 < 4 * n) (hb : requiredBits s.l ≤ 3 * n) :
    ∀ e ∈ s.encodedPix, e.1 < 4 * n :=
  forceAlphas_bound (embed_bound _ h (by rw [frameBits_length]; omega)) (spanPixels_le hb)

/-- The stream a DECODE extracts after an ENCODE begins with the frame. -/
theorem extract_encodedPix (s : State) {k : Nat} (h : k ≤ requiredBits s.l) :
    extract s.encodedPix 0 k = (serialize (frameBytes s.message)).take k := by
  apply List.ext_getElem?
  intro i
  rw [extract_getElem?, List.getElem?_take, Nat.zero_add]
  split
  · rename_i hi
    have hib : i < requiredBits s.l := by omega
    unfold lsbGet
    rw [pixAt_encodedPix_slot, if_pos hib, lsb_withLsb, ← frameBits_getD s hib, List.getD_eq_getElem?_getD,
      List.getElem?_eq_getElem (by rw [frameBits_length]; exact hib)]
    rfl
  · rfl

/-! ### Emitted bits -/

/-- The slot of pixel `p` after which its alpha is forced: its Blue slot, or the last slot of the frame (rule R82). -/
def lastSlot (b p : Nat) : Nat := min (3 * p + 2) (b - 1)

/-- What `n` frame bits emitted from a state can have changed, the bit of slot `k` being `f k`: the slots from the cursor
on, the alphas whose last slot is among them, the cursor, the counters and `SR`. -/
structure Emitted (s₀ : State) (f : Nat → Bool) (n : Nat) (s : State) : Prop where
  frame : s = { s₀ with pix := s.pix, work := s.work }
  cursor : s.work.cursor = s₀.work.cursor + n
  nb : s.work.nb = s₀.work.nb + BitVec.ofNat 3 n
  bi : s.work.bi = s₀.work.bi + (s₀.work.nb.toNat + n) / 8
  hok : s.work.hok = s₀.work.hok
  slots : ∀ k, s.pix.get? (slot k) = if s₀.work.cursor ≤ k ∧ k < s₀.work.cursor + n
    then some (withLsb (pixAt s₀.pix (slot k)) (f k)) else s₀.pix.get? (slot k)
  alphas : ∀ p, s.pix.get? (alphaAddr p) =
    if s₀.work.cursor ≤ lastSlot (requiredBits s₀.l) p ∧ lastSlot (requiredBits s₀.l) p < s₀.work.cursor + n ∧
        3 * p < requiredBits s₀.l
    then some alphaForced else s₀.pix.get? (alphaAddr p)
  wf : s₀.pix.wf → s.pix.wf
  bound : ∀ m, requiredBits s₀.l ≤ 3 * m → (∀ e ∈ s₀.pix, e.1 < 4 * m) → ∀ e ∈ s.pix, e.1 < 4 * m

theorem Emitted.refl (s : State) (f : Nat → Bool) : Emitted s f 0 s where
  frame := rfl
  cursor := rfl
  nb := by simp
  bi := by
    have := s.work.nb.isLt
    have h0 : s.work.nb.toNat / 8 = 0 := Nat.div_eq_of_lt (by omega)
    simp [h0]
  hok := rfl
  slots k := by rw [if_neg (by omega)]
  alphas p := by rw [if_neg (by omega)]
  wf := id
  bound _ _ := id

/-- `SR` is no part of what the relation says. -/
theorem Emitted.load {s₀ s : State} {f : Nat → Bool} {n : Nat} (h : Emitted s₀ f n s) (b : Byte) :
    Emitted s₀ f n { s with work := { s.work with sr := b } } where
  frame := by have := h.frame; rw [this]
  cursor := h.cursor
  nb := h.nb
  bi := h.bi
  hok := h.hok
  slots := h.slots
  alphas := h.alphas
  wf := h.wf
  bound := h.bound

theorem Emitted.l {s₀ s : State} {f : Nat → Bool} {n : Nat} (h : Emitted s₀ f n s) : s.l = s₀.l := by
  rw [h.frame]; rfl

theorem Emitted.n {s₀ s : State} {f : Nat → Bool} {n : Nat} (h : Emitted s₀ f n s) : s.n = s₀.n := by
  rw [h.frame]; rfl

/-- One emitted bit, sample by sample. -/
theorem get?_emitBit (s : State) (a : Nat) :
    (emitBit s).pix.get? a =
      if a = alphaAddr (s.work.cursor / 3) ∧ (s.work.cursor % 3 = 2 ∨ s.work.cursor = requiredBits s.l - 1)
      then some alphaForced
      else if a = slot s.work.cursor then some (withLsb (pixAt s.pix a) (shiftOutBit s.work.sr))
      else s.pix.get? a := by
  have e1 : 4 * s.work.p + s.work.ch.val = slot s.work.cursor := (slot_of_cursor _).symm
  have e2 : s.work.p = s.work.cursor / 3 := (cursor_div _).symm
  have colour : (s.pix.put (slot s.work.cursor)
      (withLsb (pixAt s.pix (slot s.work.cursor)) (shiftOutBit s.work.sr))).get? a =
      if a = slot s.work.cursor then some (withLsb (pixAt s.pix a) (shiftOutBit s.work.sr)) else s.pix.get? a := by
    rw [get?_put]
    split
    · subst_vars; rfl
    · rfl
  unfold emitBit
  simp only [e1, ch_eq_two]
  by_cases h : s.work.cursor % 3 = 2 ∨ s.work.cursor = requiredBits s.l - 1
  · rw [if_pos h, get?_alphaForce, e2]
    by_cases ha : a = alphaAddr (s.work.cursor / 3)
    · rw [if_pos ha, if_pos ⟨ha, h⟩]
    · rw [if_neg ha, if_neg fun hh => ha hh.1, colour]
  · rw [if_neg h, if_neg fun hh => h hh.2, colour]

theorem emitBit_wf {s : State} (h : s.pix.wf) : (emitBit s).pix.wf := by
  unfold emitBit
  simp only
  split
  · exact alphaForce_wf _ (put_wf _ _ h)
  · exact put_wf _ _ h

theorem emitBit_bound {s : State} {m : Nat} (hc : s.work.cursor < 3 * m) (h : ∀ e ∈ s.pix, e.1 < 4 * m) :
    ∀ e ∈ (emitBit s).pix, e.1 < 4 * m := by
  have hp := cursor_div s.work
  have h1 : 4 * s.work.p + s.work.ch.val < 4 * m := by rw [← slot_of_cursor]; exact slot_lt.2 hc
  unfold emitBit
  simp only
  split
  · exact alphaForce_bound (put_bound h h1) (alphaAddr_lt.2 (by omega))
  · exact put_bound h h1

/-- One more emitted bit. -/
theorem Emitted.emitBit {s₀ s : State} {f : Nat → Bool} {n : Nat} (h : Emitted s₀ f n s)
    (hlt : s₀.work.cursor + n < requiredBits s₀.l)
    (hbit : shiftOutBit s.work.sr = f (s₀.work.cursor + n)) : Emitted s₀ f (n + 1) (emitBit s) := by
  have hl := h.l
  have hc := h.cursor
  have hpx : ∀ k, s₀.work.cursor + n ≤ k → pixAt s.pix (slot k) = pixAt s₀.pix (slot k) := by
    intro k hk
    rw [pixAt, h.slots, if_neg (by omega)]; rfl
  refine ⟨?_, ?_, ?_, ?_, ?_, ?_, ?_, fun hw => emitBit_wf (h.wf hw), fun m hm hb => ?_⟩
  · conv => lhs; rw [h.frame]
    rw [h.frame]; rfl
  · have : (Machine.emitBit s).work.cursor = s.work.cursor + 1 := by
      exact cursor_advance { s.work with sr := _, nb := _, bi := _ }
    rw [this]; omega
  · have : (Machine.emitBit s).work.nb = s.work.nb + 1 := advance_nb _
    rw [this, h.nb, BitVec.add_assoc]
    congr 1
    apply BitVec.eq_of_toNat_eq; simp [BitVec.toNat_add]
  · have : (Machine.emitBit s).work.bi = if s.work.nb = 7 then s.work.bi + 1 else s.work.bi := advance_bi _
    have hnb : s.work.nb.toNat = (s₀.work.nb.toNat + n) % 8 := by
      rw [h.nb, BitVec.toNat_add]; simp
    have h7 : s.work.nb = 7 ↔ (s₀.work.nb.toNat + n) % 8 = 7 := by
      rw [← hnb]
      exact ⟨fun h => by rw [h]; rfl, fun h => BitVec.eq_of_toNat_eq h⟩
    rw [this, h.bi]
    by_cases hh : (s₀.work.nb.toNat + n) % 8 = 7
    · rw [if_pos (h7.2 hh)]; omega
    · rw [if_neg (mt h7.1 hh), show (s₀.work.nb.toNat + (n + 1)) / 8 = (s₀.work.nb.toNat + n) / 8 by omega]
  · exact (advance_hok _).trans h.hok
  · intro k
    rw [get?_emitBit, if_neg fun hh => slot_ne_alpha _ _ hh.1, hc]
    by_cases hk : k = s₀.work.cursor + n
    · subst hk
      rw [if_pos rfl, if_pos (by omega), hbit, hpx _ (by omega)]
    · rw [if_neg (mt slot_inj.1 hk), h.slots]
      congr 1
      exact propext ⟨fun _ => by omega, fun _ => by omega⟩
  · intro p
    have hB := requiredBits_pos s₀.l
    rw [get?_emitBit, hc, hl]
    by_cases hp : p = (s₀.work.cursor + n) / 3 ∧
        ((s₀.work.cursor + n) % 3 = 2 ∨ s₀.work.cursor + n = requiredBits s₀.l - 1)
    · rw [if_pos ⟨by rw [hp.1], hp.2⟩, if_pos]
      unfold lastSlot; omega
    · rw [if_neg fun hh => hp ⟨alphaAddr_inj.1 hh.1, hh.2⟩, if_neg fun hh => slot_ne_alpha _ _ hh.symm, h.alphas]
      congr 1
      unfold lastSlot
      exact propext ⟨fun _ => by omega, fun _ => by omega⟩
  · exact emitBit_bound (by omega) (h.bound m hm hb)

/-- The beats of one frame byte: its bits, none past the end of the frame; with all of them out `SR` holds 0. -/
theorem Emitted.emitByte {s₀ s : State} {f : Nat → Bool} {n : Nat} (h : Emitted s₀ f n s) (b : Byte)
    (hle : n ≤ requiredBits s₀.l - s₀.work.cursor)
    (hbit : ∀ i < 8, s₀.work.cursor + n + i < requiredBits s₀.l →
      f (s₀.work.cursor + n + i) = b.getLsbD (7 - i)) :
    Emitted s₀ f (min (n + 8) (requiredBits s₀.l - s₀.work.cursor)) (emitByte s b) ∧
      (n + 8 ≤ requiredBits s₀.l - s₀.work.cursor → (emitByte s b).work.sr = 0) := by
  suffices H : ∀ i ≤ 8, ∃ u, (List.range i).foldl
        (fun t _ => if t.work.cursor < requiredBits t.l then Machine.emitBit t else t)
        { s with work := { s.work with sr := b } } = u ∧ ∃ m, m = min (n + i) (requiredBits s₀.l - s₀.work.cursor) ∧
      Emitted s₀ f m u ∧ (m = n + i → u.work.sr = shiftOutBy b i) by
    obtain ⟨u, hu, m, hm, he, hsr⟩ := H 8 (Nat.le_refl 8)
    rw [Machine.emitByte, hu, ← hm]
    exact ⟨he, fun h8 => (hsr (by omega)).trans (shiftOutBy_eight b)⟩
  intro i hi
  induction i with
  | zero => exact ⟨_, rfl, n, by omega, h.load b, fun _ => rfl⟩
  | succ i ih =>
    obtain ⟨t, ht, m, hm, he, hsr⟩ := ih (by omega)
    rw [List.range_succ, List.foldl_append, ht]
    simp only [List.foldl_cons, List.foldl_nil]
    refine ⟨_, rfl, ?_⟩
    have hl := he.l
    have hcur := he.cursor
    rw [hl, hcur]
    by_cases hlt : s₀.work.cursor + m < requiredBits s₀.l
    · rw [if_pos hlt]
      have hmi : m = n + i := by clear hsr he hl hcur; omega
      have hs := hsr hmi
      refine ⟨m + 1, by omega, he.emitBit hlt ?_, fun _ => ?_⟩
      · rw [hs, shiftOutBit_shiftOutBy b (by omega), ← hbit i (by omega) (by omega), hmi]; congr 1; omega
      · show (Machine.emitBit t).work.sr = shiftOut (shiftOutBy b i)
        rw [← hs]; exact advance_sr _
    · rw [if_neg hlt]
      exact ⟨m, by omega, he, fun h => by omega⟩

/-- The beats of a run of frame bytes. -/
theorem Emitted.foldl_emitByte {s₀ : State} {f : Nat → Bool} (bytes : List Byte) {s : State} {n : Nat}
    (h : Emitted s₀ f n s) (hle : n ≤ requiredBits s₀.l - s₀.work.cursor)
    (hbit : ∀ i < 8 * bytes.length, s₀.work.cursor + n + i < requiredBits s₀.l →
      f (s₀.work.cursor + n + i) = (serialize bytes).getD i false) :
    Emitted s₀ f (min (n + 8 * bytes.length) (requiredBits s₀.l - s₀.work.cursor))
        (bytes.foldl Machine.emitByte s) ∧
      (n + 8 * bytes.length ≤ requiredBits s₀.l - s₀.work.cursor → bytes ≠ [] ∨ s.work.sr = 0 →
        (bytes.foldl Machine.emitByte s).work.sr = 0) := by
  induction bytes generalizing s n with
  | nil =>
    rw [show min (n + 8 * ([] : List Byte).length) (requiredBits s₀.l - s₀.work.cursor) = n by
      simp only [List.length_nil]; omega]
    exact ⟨h, fun _ h0 => h0.resolve_left (fun h => h rfl)⟩
  | cons b bs ih =>
    simp only [List.length_cons] at hbit
    rw [List.length_cons, List.foldl_cons]
    obtain ⟨h1, hsr⟩ := h.emitByte b hle fun i hi hlt => by
      rw [hbit i (by omega) hlt, serialize_getD (by simp; omega), Nat.div_eq_of_lt hi, Nat.mod_eq_of_lt hi]; rfl
    by_cases hb : s₀.work.cursor + n + 8 ≤ requiredBits s₀.l
    · rw [show min (n + 8) (requiredBits s₀.l - s₀.work.cursor) = n + 8 by omega] at h1
      have e : ∀ i, (serialize (b :: bs)).getD (i + 8) false = (serialize bs).getD i false := fun i => by
        rw [serialize_cons, List.getD_eq_getElem?_getD, List.getElem?_append_right (by simp), byteBits_length,
          Nat.add_sub_cancel, List.getD_eq_getElem?_getD]
      have hbits : ∀ i < 8 * bs.length, s₀.work.cursor + (n + 8) + i < requiredBits s₀.l →
          f (s₀.work.cursor + (n + 8) + i) = (serialize bs).getD i false := fun i hi hlt => by
        have e' : s₀.work.cursor + n + (i + 8) = s₀.work.cursor + (n + 8) + i := by omega
        have := hbit (i + 8) (by omega) (by omega)
        rwa [e', e] at this
      obtain ⟨h2, hsr2⟩ := ih h1 (by omega) hbits
      rw [show n + 8 * (bs.length + 1) = n + 8 + 8 * bs.length by omega]
      exact ⟨h2, fun hh _ => hsr2 hh (.inr (hsr (by omega)))⟩
    · rw [show min (n + 8) (requiredBits s₀.l - s₀.work.cursor) = requiredBits s₀.l - s₀.work.cursor by omega] at h1
      have h2 := (ih h1 (by omega) fun i _ hlt => by omega).1
      rw [show min (n + 8 * (bs.length + 1)) (requiredBits s₀.l - s₀.work.cursor)
        = min (requiredBits s₀.l - s₀.work.cursor + 8 * bs.length) (requiredBits s₀.l - s₀.work.cursor) by omega]
      exact ⟨h2, fun hh _ => by omega⟩

/-! ### What ENCODE leaves alone (rule R69) -/

theorem emitted_pixel {s₀ s : State} {f : Nat → Bool} {n : Nat} (h : Emitted s₀ f n s)
    (hfit : requiredBits s₀.l ≤ capacity s₀.n)
   (hc : s₀.work.cursor + n ≤ requiredBits s₀.l) :
   (∀ a, 4 * s₀.n ≤ a → s.pixel a = s₀.pixel a) ∧
   (∀ a i, a % 4 ≠ 3 → 1 ≤ i → (s.pixel a).getLsbD i = (s₀.pixel a).getLsbD i) ∧
   (∀ a, a % 4 = 3 → s.pixel a = s₀.pixel a ∨ s.pixel a = 255#8) := by
  unfold capacity at hfit
  refine ⟨?_, ?_, ?_⟩
  · intro a ha
    unfold State.pixel pixAt
    rcases slot_or_alpha a with ⟨k, rfl⟩ | ⟨p, rfl⟩
    · rw [h.slots, if_neg]
      have h3 : ¬ k < 3 * s₀.n := fun hh => by have := slot_lt.2 hh; omega
      omega
    · rw [h.alphas, if_neg]
      unfold alphaAddr at ha
      omega
  · intro a i ha hi
    rcases slot_or_alpha a with ⟨k, rfl⟩ | ⟨p, rfl⟩
    · unfold State.pixel
      rw [pixAt, h.slots]
      split
      · exact withLsb_bit _ _ hi
      · rfl
    · unfold alphaAddr at ha; omega
  · intro a ha
    rcases slot_or_alpha a with ⟨k, rfl⟩ | ⟨p, rfl⟩
    · rw [slot_mod] at ha; omega
    · unfold State.pixel
      rw [pixAt, h.alphas]
      split
      · right; rfl
      · left; rfl

theorem encoded_pixel {s : State} (hfit : requiredBits s.l ≤ capacity s.n) :
   (∀ a, 4 * s.n ≤ a → pixAt s.encodedPix a = s.pixel a) ∧
   (∀ a i, a % 4 ≠ 3 → 1 ≤ i → (pixAt s.encodedPix a).getLsbD i = (s.pixel a).getLsbD i) ∧
   (∀ a, a % 4 = 3 → pixAt s.encodedPix a = s.pixel a ∨ pixAt s.encodedPix a = 255#8) := by
  unfold capacity at hfit
  refine ⟨?_, ?_, ?_⟩
  · intro a ha
    rcases slot_or_alpha a with ⟨k, rfl⟩ | ⟨p, rfl⟩
    · rw [pixAt_encodedPix_slot, if_neg]; rfl
      have h3 : ¬ k < 3 * s.n := fun hh => by have := slot_lt.2 hh; omega
      omega
    · rw [pixAt_encodedPix_alpha, if_neg]; rfl
      unfold alphaAddr at ha
      rw [lt_spanPixels]
      omega
  · intro a i ha hi
    rcases slot_or_alpha a with ⟨k, rfl⟩ | ⟨p, rfl⟩
    · rw [pixAt_encodedPix_slot]
      split
      · exact withLsb_bit _ _ hi
      · rfl
    · unfold alphaAddr at ha; omega
  · intro a ha
    rcases slot_or_alpha a with ⟨k, rfl⟩ | ⟨p, rfl⟩
    · rw [slot_mod] at ha; omega
    · rw [pixAt_encodedPix_alpha]
      split
      · right; rfl
      · left; rfl

end Sys2Proof.Machine
end

