-- ==== Sys2Proof/Laws/Step.lean ====
section
/-! SUPPORT. Everything one step can do, said once: the command a word selects, the START, and the inversion of a step by
the move it makes. -/

namespace Sys2Proof.Machine

/-! ### Command words -/

theorem decodeCommand_of_nop {c : Nat} (h : c.testBit 0 = false) : decodeCommand c = .nop := by
  unfold decodeCommand; rw [h]

theorem decodeCommand_of_start {c : Nat} (h : c.testBit 0 = true) :
    decodeCommand c = if c.testBit 1 then .encode else .decode := by
  unfold decodeCommand; rw [h]; cases c.testBit 1 <;> rfl

theorem decodeStream_byteBits (start : Bool) (d : Byte) (rest : List Bool)
    (h : (start && (serialize magic).isPrefixOf (byteBits d ++ rest)) = false) :
    decodeStream start (byteBits d ++ rest) = if d = terminator then .instr .term rest else .instr (.data d) rest := by
  unfold decodeStream
  rw [h]
  simp only [byteBits, List.cons_append, List.nil_append, byteOf_byteBits]
  simp

theorem decodeStream_magic (rest : List Bool) :
    decodeStream true (serialize magic ++ rest) = .instr .magic rest := by
  unfold decodeStream
  rw [if_pos (by simp [List.isPrefixOf_iff_prefix]), List.drop_left' (by simp)]

/-! ### START -/

/-- The state a START leaves. -/
def State.begun (s : State) (op : Op) : State :=
  { s with status := Status.started op, olen := 0, work := Work.started }

theorem start_of_large {s : State} (op : Op) (h : s.params.pixcap < s.n) : start op s = .refused .npixAbovePixcap :=
  if_pos h

theorem start_of_accepted {s : State} {op : Op} (h1 : s.n ≤ s.params.pixcap) (h2 : op = .encode → s.l ≤ s.params.mcap) :
    start op s = .next (s.begun op) := by
  unfold start
  rw [if_neg (by omega), if_neg fun h => by have := h2 h.1; omega]
  rfl

theorem start_of_long {s : State} (h1 : s.n ≤ s.params.pixcap) (h2 : s.params.mcap < s.l) :
    start .encode s = .refused .mlenAboveMcap := by
  unfold start
  rw [if_neg (by omega), if_pos ⟨rfl, h2⟩]

theorem start_next {s t : State} {op : Op} (h : start op s = .next t) :
    s.n ≤ s.params.pixcap ∧ (op = .encode → s.l ≤ s.params.mcap) ∧ t = s.begun op := by
  unfold start at h
  split at h
  · cases h
  · split at h
    · cases h
    · rename_i h1 h2
      cases h
      refine ⟨by omega, fun ho => ?_, rfl⟩
      by_contra h3
      exact h2 ⟨ho, by omega⟩

theorem start_ne_fault (op : Op) (s : State) (f : Fault) : start op s ≠ .fault f := by
  unfold start
  split
  · exact nofun
  · split <;> exact nofun

/-! ### The three commands -/

theorem execEncode_idle {s : State} (h : s.status.busy = false) : exec .encode s = start .encode s := by
  show execEncode s = _
  unfold execEncode; rw [h]; rfl

theorem execDecode_idle {s : State} (h : s.status.busy = false) : exec .decode s = start .decode s := by
  show execDecode s = _
  unfold execDecode; rw [h]; rfl

theorem execEncode_running {s : State} (h : s.Running .encode) : exec .encode s = .next (completeEncode s) := by
  show execEncode s = _
  unfold execEncode; rw [h.1, h.2]; rfl

theorem execDecode_running {s : State} (h : s.Running .decode) : exec .decode s = .next (completeDecode s) := by
  show execDecode s = _
  unfold execDecode; rw [h.1, h.2]; rfl

theorem begun_running (s : State) (op : Op) : (s.begun op).Running op := ⟨rfl, rfl⟩

/-- A command issued on an idle block that accepts it: the START, then the completion step. -/
theorem issued_encode {s t : State} (h : s.Accepts .encode) : Issued .encode s t ↔ t = completeEncode (s.begun .encode) := by
  unfold Issued
  rw [execEncode_idle h.1, start_of_accepted h.2.1 h.2.2]
  constructor
  · rintro ⟨u, hu, ht⟩
    cases hu
    rw [execEncode_running (begun_running s .encode)] at ht
    cases ht; rfl
  · rintro rfl
    exact ⟨_, rfl, execEncode_running (begun_running s .encode)⟩

theorem issued_decode {s t : State} (h : s.Accepts .decode) : Issued .decode s t ↔ t = completeDecode (s.begun .decode) := by
  unfold Issued
  rw [execDecode_idle h.1, start_of_accepted h.2.1 h.2.2]
  constructor
  · rintro ⟨u, hu, ht⟩
    cases hu
    rw [execDecode_running (begun_running s .decode)] at ht
    cases ht; rfl
  · rintro rfl
    exact ⟨_, rfl, execDecode_running (begun_running s .decode)⟩

/-! ### Symbols -/

/-- The bytes of a symbol. -/
def symbolBytes : Instr → List Byte
  | .encode => []
  | .decode => []
  | .nop => []
  | .magic => magic
  | .data d => [d]
  | .term => [terminator]

theorem exec_symbol {i : Instr} {start : Bool} {bits : List Bool} (h : Sys2Proof.encode i = .stream start bits)
    (s : State) : exec i s = passBytes (symbolBytes i) s ∧ bits = serialize (symbolBytes i) := by
  cases i <;> cases h <;> exact ⟨rfl, rfl⟩

theorem passBytes_encode {s : State} (h : s.Running .encode) (bytes : List Byte) :
    passBytes bytes s = .next (emitBytes bytes s) := by
  unfold passBytes; rw [h.1, h.2]; rfl

theorem passBytes_decode {s : State} (h : s.Running .decode) (bytes : List Byte) :
    passBytes bytes s = .next (takeBytes bytes s) := by
  unfold passBytes; rw [h.1, h.2]; rfl

theorem passBytes_idle {s : State} (h : s.status.busy = false) (bytes : List Byte) : passBytes bytes s = .next s := by
  unfold passBytes; rw [h]; rfl

/-- What the decoder gives back is a symbol whose bits it read. -/
theorem decodeStream_instr {start : Bool} {bits rest : List Bool} {i : Instr}
    (h : decodeStream start bits = .instr i rest) :
    bits = serialize (symbolBytes i) ++ rest ∧
      ((i = .magic ∧ start = true) ∨ (∃ d, i = .data d ∧ d ≠ terminator) ∨ i = .term) := by
  unfold decodeStream at h
  split at h
  · rename_i hp
    cases h
    rw [Bool.and_eq_true, List.isPrefixOf_iff_prefix] at hp
    obtain ⟨r, hr⟩ := hp.2
    refine ⟨?_, .inl ⟨rfl, hp.1⟩⟩
    rw [← hr, List.drop_left' (by simp)]; rfl
  · split at h
    · rename_i b7 b6 b5 b4 b3 b2 b1 b0 rest' _
      have hb := byteBits_byteOf b7 b6 b5 b4 b3 b2 b1 b0
      split at h
      · rename_i hz
        cases h
        refine ⟨?_, .inr (.inr rfl)⟩
        show _ = byteBits terminator ++ [] ++ _
        rw [← hz, hb]; rfl
      · rename_i hz
        cases h
        refine ⟨?_, .inr (.inl ⟨_, rfl, hz⟩)⟩
        show _ = byteBits _ ++ [] ++ _
        rw [hb]; rfl
    · cases h

theorem exec_decoded {start : Bool} {bits rest : List Bool} {i : Instr}
    (h : decodeStream start bits = .instr i rest) (s : State) : exec i s = passBytes (symbolBytes i) s := by
  rcases (decodeStream_instr h).2 with ⟨rfl, -⟩ | ⟨d, rfl, -⟩ | rfl <;> rfl

/-- The tail the decoder rejects has fewer than 8 bits. -/
theorem decodeStream_rejected {start : Bool} {bits : List Bool} {r : DecodeReject}
    (h : decodeStream start bits = .rejected r) : bits.length < 8 := by
  unfold decodeStream at h
  split at h
  · cases h
  · split at h
    · split at h <;> cases h
    · rename_i hne
      by_contra hl
      match bits, hl with
      | b7 :: b6 :: b5 :: b4 :: b3 :: b2 :: b1 :: b0 :: rest, _ => exact hne _ _ _ _ _ _ _ _ _ rfl
      | [], hl | [_], hl | [_, _], hl | [_, _, _], hl | [_, _, _, _], hl | [_, _, _, _, _], hl
      | [_, _, _, _, _, _], hl | [_, _, _, _, _, _, _], hl =>
        simp only [List.length_cons, List.length_nil] at hl; omega

/-! ### The inversion of a step -/

/-- The state with its next move taken off. -/
def State.popped (s : State) : State := { s with inputs := s.inputs.tail }

/-- Everything a step that gives a next state can have done. -/
inductive StepCase (s : State) : State → Prop
  /-- A lost register write, a `NOP`, an engine move that is not enabled. -/
  | nothing (h : s.inputs.head? ≠ some (.host .reset)) : StepCase s s.popped
  | read (x : ReadValue) (h : s.inputs.head? ≠ some (.host .reset)) :
    StepCase s { s.popped with reads := x :: s.reads }
  | npix (v : Nat) (hb : s.status.busy = false) (h : s.inputs.head? = some (.host (.wrReg .npix v))) :
    StepCase s { s.popped with npix := registerWord s.params v }
  | mlen (v : Nat) (hb : s.status.busy = false) (h : s.inputs.head? = some (.host (.wrReg .mlen v))) :
    StepCase s { s.popped with mlen := registerWord s.params v }
  | pix (a : Nat) (v : Byte) (hb : s.status.busy = false) (h : s.inputs.head? = some (.host (.wrPix a v)))
    (ha : a < 4 * s.params.pixcap) : StepCase s { s.popped with pix := s.pix.put a v }
  | msg (i : Nat) (v : Nat) (hb : s.status.busy = false) (h : s.inputs.head? = some (.host (.wrMsg i v)))
    (hi : i < s.params.mcap) : StepCase s { s.popped with msg := s.msg.put i (entryValue s.params v) }
  | out (i : Nat) (v : Byte) (hb : s.status.busy = false) (h : s.inputs.head? = some (.host (.wrOut i v)))
    (hi : i < s.params.ocap) : StepCase s { s.popped with out := s.out.put i v }
  | reset (h : s.inputs.head? = some (.host .reset)) : StepCase s (resetEvent s.popped)
  | start (op : Op) (c : Nat) (hb : s.status.busy = false) (h : s.inputs.head? = some (.host (.wrReg .ctrl c)))
    (hc : (registerWord s.params c).testBit 0 = true) (hn : s.n ≤ s.params.pixcap) (hl : op = .encode → s.l ≤ s.params.mcap) :
    StepCase s (s.popped.begun op)
  | completeEncode (hr : s.Running .encode) (h : s.inputs = [] ∨ s.inputs.head? = some (.engine .complete)) :
    StepCase s (completeEncode s.popped)
  | completeDecode (hr : s.Running .decode) (h : s.inputs = [] ∨ s.inputs.head? = some (.engine .complete)) :
    StepCase s (completeDecode s.popped)
  | encodeBeat (hr : s.Running .encode)
    (h : s.inputs.head? = some (.engine .beat) ∨ s.inputs.head? = some (.engine .symbol)) :
    StepCase s (encodeBeat s.popped)
  | decodeBeat (hr : s.Running .decode) (h : s.inputs.head? = some (.engine .beat)) :
    StepCase s (decodeBeat s.popped)
  | emit (i : Instr) (hr : s.Running .encode) (h : s.inputs.head? = some (.engine .symbol)) (hnb : s.work.nb = 0)
    (hi : encodeSymbol s = some i) : StepCase s (emitBytes (symbolBytes i) s.popped)
  | take (i : Instr) (rest : List Bool) (hr : s.Running .decode) (h : s.inputs.head? = some (.engine .symbol))
    (hnb : s.work.nb = 0) (hi : decodeSymbol s = .instr i rest) : StepCase s (takeBytes (symbolBytes i) s.popped)
  | tail (hr : s.Running .decode) (h : s.inputs.head? = some (.engine .symbol)) (hnb : s.work.nb = 0)
    (hi : decodeSymbol s = .rejected .partialByte) : StepCase s (finishDecode .notFound 0 s.popped)

theorem hostAccess_next {s t u : State} {n a : Nat} {f : Fault} (h : hostAccess s n a f t = .settled (.next u)) :
    s.status.busy = false ∧ a < n ∧ u = t := by
  unfold hostAccess at h
  split at h
  · cases h
  · split at h
    · cases h; exact ⟨Bool.eq_false_iff.2 ‹_›, ‹_›, rfl⟩
    · cases h

theorem hostAccess_ne_run {s t u : State} {n a : Nat} {f : Fault} {i : Instr} : hostAccess s n a f t ≠ .run i u := by
  unfold hostAccess
  split
  · exact nofun
  · split <;> exact nofun

/-- A memory access of the host that gives a next state. -/
theorem step_hostAccess {s t u s' : State} {n a : Nat} {f : Fault} (hf : fetch s = hostAccess s' n a f u)
    (h : step s = .next t) : s'.status.busy = false ∧ a < n ∧ t = u := by
  unfold step at h
  rw [hf] at h
  cases hh : hostAccess s' n a f u with
  | run i v => exact absurd hh hostAccess_ne_run
  | settled o =>
    rw [hh] at h
    simp only at h
    subst h
    exact hostAccess_next hh

theorem step_engine {s t : State} {e : EngineMove} {rest : List Move} (hin : s.inputs = .engine e :: rest)
    (h : step s = .next t) : StepCase s t := by
  have hp : s.popped = { s with inputs := rest } := by unfold State.popped; rw [hin]; rfl
  have hh : s.inputs.head? = some (.engine e) := by rw [hin]; rfl
  have hf : fetch s = engineMove e s.popped := by rw [hp]; unfold fetch; rw [hin]
  unfold step at h
  rw [hf] at h
  unfold engineMove at h
  have hbp : s.popped.status = s.status := rfl
  cases hb : s.status.busy with
  | false => rw [hbp, hb] at h; cases h; exact .nothing (by rw [hh]; exact nofun)
  | true =>
    rw [hbp, hb] at h
    cases ho : s.status.op with
    | encode =>
      have hr : s.Running .encode := ⟨hb, ho⟩
      have hrp : s.popped.Running .encode := hr
      cases e with
      | complete =>
        simp only [if_true, currentCommand, hbp, ho] at h
        rw [execEncode_running hrp] at h
        cases h; exact .completeEncode hr (.inr hh)
      | beat =>
        simp only [if_true, engineBeat, hbp, ho] at h
        cases h; exact .encodeBeat hr (.inl hh)
      | symbol =>
        simp only [if_true, fetchSymbol, hbp, ho] at h
        split at h
        · rename_i i u hfe
          split at hfe
          · rename_i hnb
            split at hfe
            · rename_i j hj
              cases hfe
              have : exec i s.popped = passBytes (symbolBytes i) s.popped := by
                unfold encodeSymbol at hj
                dsimp only at hj
                split at hj
                · cases hj; rfl
                · split at hj
                  · cases hj; rfl
                  · split at hj
                    · cases hj; rfl
                    · cases hj
              rw [this, passBytes_encode hrp] at h
              cases h; exact .emit i hr hh hnb hj
            · cases hfe
          · cases hfe
        · rename_i o hfe
          subst h
          split at hfe
          · split at hfe
            · cases hfe
            · cases hfe; exact .encodeBeat hr (.inr hh)
          · cases hfe; exact .nothing (by rw [hh]; exact nofun)
    | decode =>
      have hr : s.Running .decode := ⟨hb, ho⟩
      have hrp : s.popped.Running .decode := hr
      cases e with
      | complete =>
        simp only [if_true, currentCommand, hbp, ho] at h
        rw [execDecode_running hrp] at h
        cases h; exact .completeDecode hr (.inr hh)
      | beat =>
        simp only [if_true, engineBeat, hbp, ho] at h
        cases h; exact .decodeBeat hr hh
      | symbol =>
        simp only [if_true, fetchSymbol, hbp, ho] at h
        split at h
        · rename_i i u hfe
          split at hfe
          · rename_i hnb
            split at hfe
            · rename_i j bits hj
              cases hfe
              rw [exec_decoded hj, passBytes_decode hrp] at h
              cases h; exact .take i bits hr hh hnb hj
            · cases hfe
          · cases hfe
        · rename_i o hfe
          subst h
          split at hfe
          · rename_i hnb
            split at hfe
            · cases hfe
            · rename_i hj
              cases hfe; exact .tail hr hh hnb hj
          · cases hfe; exact .nothing (by rw [hh]; exact nofun)

/-- The engine never stops. -/
theorem engineMove_next {s : State} (hb : s.status.busy = true) (e : EngineMove) :
    (∃ i u t, engineMove e s = .run i u ∧ exec i u = .next t) ∨ ∃ t, engineMove e s = .settled (.next t) := by
  unfold engineMove
  rw [if_pos hb]
  cases ho : s.status.op with
  | encode =>
    have hr : s.Running .encode := ⟨hb, ho⟩
    cases e with
    | complete =>
      refine .inl ⟨.encode, s, _, ?_, execEncode_running hr⟩
      simp only [currentCommand, ho]
    | beat => exact .inr ⟨_, rfl⟩
    | symbol =>
      unfold fetchSymbol
      dsimp only
      split
      · rw [ho]
        dsimp only
        split
        · rename_i i hi
          refine .inl ⟨i, s, emitBytes (symbolBytes i) s, rfl, ?_⟩
          have : exec i s = passBytes (symbolBytes i) s := by
            unfold encodeSymbol at hi
            dsimp only at hi
            split at hi
            · cases hi; rfl
            · split at hi
              · cases hi; rfl
              · split at hi
                · cases hi; rfl
                · cases hi
          rw [this, passBytes_encode hr]
        · exact .inr ⟨_, rfl⟩
      · exact .inr ⟨_, rfl⟩
  | decode =>
    have hr : s.Running .decode := ⟨hb, ho⟩
    cases e with
    | complete =>
      refine .inl ⟨.decode, s, _, ?_, execDecode_running hr⟩
      simp only [currentCommand, ho]
    | beat => exact .inr ⟨_, rfl⟩
    | symbol =>
      unfold fetchSymbol
      dsimp only
      split
      · rw [ho]
        dsimp only
        split
        · rename_i i bits hi
          refine .inl ⟨i, s, takeBytes (symbolBytes i) s, rfl, ?_⟩
          rw [exec_decoded hi, passBytes_decode hr]
        · exact .inr ⟨_, rfl⟩
      · exact .inr ⟨_, rfl⟩

/-- A step of a running command on an engine move, or on none, answers a next state. -/
theorem step_engine_next {s : State} (hb : s.status.busy = true)
    (hin : s.inputs = [] ∨ ∃ e rest, s.inputs = .engine e :: rest) : ∃ t, step s = .next t := by
  have h : ∀ (e : EngineMove) (u : State), u.status.busy = true → fetch s = engineMove e u → ∃ t, step s = .next t := by
    intro e u hu hf
    rcases engineMove_next hu e with ⟨i, v, t, h1, h2⟩ | ⟨t, h1⟩
    · exact ⟨t, by rw [step_of_run (hf.trans h1), h2]⟩
    · exact ⟨t, step_of_settled (hf.trans h1)⟩
  rcases hin with hin | ⟨e, rest, hin⟩
  · exact h .complete s hb (by unfold fetch; rw [hin])
  · exact h e { s with inputs := rest } hb (by unfold fetch; rw [hin])

/-- The inversion of a step: what it did, with the guards under which it did it. -/
theorem step_cases {s t : State} (h : step s = .next t) : StepCase s t := by
  cases hin : s.inputs with
  | nil =>
    have hp : s.popped = s := by unfold State.popped; rw [hin]; cases s; simp only at hin; subst hin; rfl
    have hf : fetch s = engineMove .complete s := by unfold fetch; rw [hin]
    unfold step at h
    rw [hf] at h
    unfold engineMove at h
    cases hb : s.status.busy with
    | false =>
      rw [hb] at h; cases h
      have := StepCase.nothing (s := s) (by rw [hin]; exact nofun)
      rwa [hp] at this
    | true =>
      rw [hb] at h
      simp only [if_true, currentCommand] at h
      cases ho : s.status.op with
      | encode =>
        rw [ho] at h
        simp only at h
        rw [execEncode_running ⟨hb, ho⟩] at h
        cases h
        have := StepCase.completeEncode (s := s) ⟨hb, ho⟩ (.inl hin)
        rwa [hp] at this
      | decode =>
        rw [ho] at h
        simp only at h
        rw [execDecode_running ⟨hb, ho⟩] at h
        cases h
        have := StepCase.completeDecode (s := s) ⟨hb, ho⟩ (.inl hin)
        rwa [hp] at this
  | cons m rest =>
    cases m with
    | engine e => exact step_engine hin h
    | host m =>
      have hp : s.popped = { s with inputs := rest } := by unfold State.popped; rw [hin]; rfl
      have hh : s.inputs.head? = some (.host m) := by rw [hin]; rfl
      have hf : fetch s = hostMove m s.popped := by rw [hp]; unfold fetch; rw [hin]
      have hs : ∀ {u}, fetch s = .settled (.next u) → t = u := fun hu => by
        rw [step_of_settled hu] at h; cases h; rfl
      cases m with
      | wrReg r v =>
        have hne : s.inputs.head? ≠ some (.host .reset) := by rw [hh]; exact nofun
        cases hb : s.status.busy with
        | true =>
          have hf' : fetch s = .settled (.next s.popped) := by
            rw [hf]; show writeReg _ _ _ = _; unfold writeReg
            rw [if_pos (show s.popped.status.busy = true from hb)]
          rw [hs hf']; exact .nothing hne
        | false =>
          have hf' : fetch s = _ := hf.trans (by
            show writeReg _ _ _ = _; unfold writeReg
            rw [if_neg (show ¬ s.popped.status.busy = true by rw [show s.popped.status = s.status from rfl, hb]; nofun)])
          cases r with
          | ctrl =>
            rw [step_of_run hf'] at h
            cases h0 : (registerWord s.popped.params v).testBit 0 with
            | false =>
              rw [decodeCommand_of_nop h0] at h
              cases h; exact .nothing hne
            | true =>
              rw [decodeCommand_of_start h0] at h
              split at h
              · rw [execEncode_idle (s := s.popped) hb] at h
                obtain ⟨h1, h2, rfl⟩ := start_next h
                exact .start .encode v hb hh h0 h1 h2
              · rw [execDecode_idle (s := s.popped) hb] at h
                obtain ⟨h1, h2, rfl⟩ := start_next h
                exact .start .decode v hb hh h0 h1 h2
          | npix => rw [hs hf']; exact .npix v hb hh
          | mlen => rw [hs hf']; exact .mlen v hb hh
          | status => rw [hs hf']; exact .nothing hne
          | olen => rw [hs hf']; exact .nothing hne
      | rdReg r => rw [hs hf]; exact .read _ (by rw [hh]; exact nofun)
      | wrPix a v => obtain ⟨h1, h2, rfl⟩ := step_hostAccess hf h; exact .pix a v h1 hh h2
      | rdPix a => obtain ⟨h1, h2, rfl⟩ := step_hostAccess hf h; exact .read _ (by rw [hh]; exact nofun)
      | wrMsg a v => obtain ⟨h1, h2, rfl⟩ := step_hostAccess hf h; exact .msg a v h1 hh h2
      | rdMsg a => obtain ⟨h1, h2, rfl⟩ := step_hostAccess hf h; exact .read _ (by rw [hh]; exact nofun)
      | wrOut a v => obtain ⟨h1, h2, rfl⟩ := step_hostAccess hf h; exact .out a v h1 hh h2
      | rdOut a => obtain ⟨h1, h2, rfl⟩ := step_hostAccess hf h; exact .read _ (by rw [hh]; exact nofun)
      | reset => rw [hs hf]; exact .reset hh

end Sys2Proof.Machine
end

