-- ==== Sys2Proof/Laws/Engine.lean ====
section
/-! SUPPORT. What the moves of the engine do, one lemma per move: what each can change, how it ends the command, and what an
emitted or a taken run of bytes leaves. -/

namespace Sys2Proof.Machine

/-! ### What the engine can change at all -/

/-- The fields no engine move writes (rules R39, R42). -/
structure EngineFrame (s t : State) : Prop where
  npix : t.npix = s.npix
  mlen : t.mlen = s.mlen
  msg : t.msg = s.msg
  params : t.params = s.params
  inputs : t.inputs = s.inputs
  reads : t.reads = s.reads

theorem EngineFrame.refl (s : State) : EngineFrame s s := ⟨rfl, rfl, rfl, rfl, rfl, rfl⟩

theorem EngineFrame.trans {s t u : State} (h : EngineFrame s t) (h' : EngineFrame t u) : EngineFrame s u :=
  ⟨h'.npix.trans h.npix, h'.mlen.trans h.mlen, h'.msg.trans h.msg, h'.params.trans h.params,
    h'.inputs.trans h.inputs, h'.reads.trans h.reads⟩

theorem EngineFrame.n {s t : State} (h : EngineFrame s t) : t.n = s.n := h.npix

theorem EngineFrame.l {s t : State} (h : EngineFrame s t) : t.l = s.l := h.mlen

/-- The frame as one equation. -/
theorem EngineFrame.eq {s t : State} (h : EngineFrame s t) :
    t = { s with status := t.status, olen := t.olen, work := t.work, pix := t.pix, out := t.out,
                 outDraw := t.outDraw, draws := t.draws } := by
  rw [← h.npix, ← h.mlen, ← h.msg, ← h.params, ← h.inputs, ← h.reads]

theorem finish_frame (r : Result) (s : State) : EngineFrame s (finish r s) := ⟨rfl, rfl, rfl, rfl, rfl, rfl⟩

theorem finishDecode_frame (r : Result) (n : Nat) (s : State) : EngineFrame s (finishDecode r n s) :=
  ⟨rfl, rfl, rfl, rfl, rfl, rfl⟩

theorem completeEncode_frame (s : State) : EngineFrame s (completeEncode s) := by
  unfold completeEncode; split <;> exact ⟨rfl, rfl, rfl, rfl, rfl, rfl⟩

theorem completeDecode_frame (s : State) : EngineFrame s (completeDecode s) := by
  unfold completeDecode; split <;> exact ⟨rfl, rfl, rfl, rfl, rfl, rfl⟩

theorem emitBit_frame (s : State) : EngineFrame s (emitBit s) := ⟨rfl, rfl, rfl, rfl, rfl, rfl⟩

theorem encodeBeat_frame (s : State) : EngineFrame s (encodeBeat s) := by
  unfold encodeBeat
  split
  · exact ⟨rfl, rfl, rfl, rfl, rfl, rfl⟩
  · split
    · split <;> exact ⟨rfl, rfl, rfl, rfl, rfl, rfl⟩
    · exact ⟨rfl, rfl, rfl, rfl, rfl, rfl⟩

/-- A property that every application keeps is kept by a fold. -/
theorem foldl_keeps {α β : Type} {f : β → α → β} {P : β → Prop} (hf : ∀ b a, P b → P (f b a)) (l : List α) {b : β}
    (h : P b) : P (l.foldl f b) := by
  induction l generalizing b with
  | nil => exact h
  | cons a l ih => rw [List.foldl_cons]; exact ih (hf b a h)

theorem emitByte_frame (s : State) (b : Byte) : EngineFrame s (emitByte s b) := by
  unfold emitByte
  refine foldl_keeps (P := EngineFrame s) (fun t _ h => ?_) _ ⟨rfl, rfl, rfl, rfl, rfl, rfl⟩
  split
  · exact h.trans (emitBit_frame t)
  · exact h

theorem emitBytes_frame (bytes : List Byte) (s : State) : EngineFrame s (emitBytes bytes s) := by
  have h : EngineFrame s (bytes.foldl emitByte s) :=
    foldl_keeps (P := EngineFrame s) (fun t b ht => ht.trans (emitByte_frame t b)) bytes (EngineFrame.refl s)
  unfold emitBytes
  split
  · exact finish_frame _ s
  · dsimp only
    split
    · exact h
    · exact h.trans (finish_frame _ _)

theorem byteDone_frame (s : State) : EngineFrame s (byteDone s) := by
  unfold byteDone
  dsimp only
  split
  · split <;> exact ⟨rfl, rfl, rfl, rfl, rfl, rfl⟩
  · split <;> exact ⟨rfl, rfl, rfl, rfl, rfl, rfl⟩

theorem endExhausted_frame (s : State) : EngineFrame s (endExhausted s) := by
  unfold endExhausted; split <;> exact ⟨rfl, rfl, rfl, rfl, rfl, rfl⟩

theorem decodeBeat_frame (s : State) : EngineFrame s (decodeBeat s) := by
  unfold decodeBeat
  split
  · dsimp only
    refine EngineFrame.trans ?_ (endExhausted_frame _)
    split
    · refine EngineFrame.trans ?_ (byteDone_frame _)
      exact ⟨rfl, rfl, rfl, rfl, rfl, rfl⟩
    · exact ⟨rfl, rfl, rfl, rfl, rfl, rfl⟩
  · exact ⟨rfl, rfl, rfl, rfl, rfl, rfl⟩

theorem takeByte_frame (s : State) (b : Byte) : EngineFrame s (takeByte s b) := by
  unfold takeByte
  refine EngineFrame.trans ?_ (byteDone_frame _)
  exact ⟨rfl, rfl, rfl, rfl, rfl, rfl⟩

theorem takeBytes_frame (bytes : List Byte) (s : State) : EngineFrame s (takeBytes bytes s) := by
  unfold takeBytes
  refine foldl_keeps (P := EngineFrame s) (fun t b h => ?_) _ (EngineFrame.refl s)
  split
  · exact h.trans (takeByte_frame t b)
  · exact h

/-! ### The moves of ENCODE -/

theorem encodeBeat_of_overfull {s : State} (h : s.overfull) : encodeBeat s = finish .capacityExceeded s := if_pos h

theorem encodeBeat_of_done {s : State} (h : ¬ s.overfull) (hc : requiredBits s.l ≤ s.work.cursor) :
    encodeBeat s = finish .ok s := by
  unfold encodeBeat; rw [if_neg h, if_neg (by omega)]

/-- The bit the next beat of ENCODE puts out. -/
def State.nextBit (s : State) : Bool :=
  shiftOutBit (if s.work.nb = 0 then s.frameByte s.work.bi else s.work.sr)

/-- A beat below the end of the frame emits one bit. -/
theorem encodeBeat_emits {s : State} (h : ¬ s.overfull) (hc : s.work.cursor < requiredBits s.l) :
    Emitted s (fun _ => s.nextBit) 1 (encodeBeat s) := by
  unfold encodeBeat
  rw [if_neg h, if_pos hc]
  by_cases h0 : s.work.nb = 0
  · rw [if_pos h0]
    refine ((Emitted.refl s _).load (s.frameByte s.work.bi)).emitBit (by omega) ?_
    unfold State.nextBit; rw [if_pos h0]
  · rw [if_neg h0]
    refine (Emitted.refl s _).emitBit (by omega) ?_
    unfold State.nextBit; rw [if_neg h0]

theorem emitBytes_of_overfull {s : State} (h : s.overfull) (bytes : List Byte) :
    emitBytes bytes s = finish .capacityExceeded s := if_pos h

/-- Frame bytes emitted at the cursor: their bits, all of them shifted out of `SR` unless the frame ends before, and the end
of the command if the frame ends with them. -/
theorem emitBytes_emits {s : State} (h : ¬ s.overfull) (bytes : List Byte) :
    ∃ u, Emitted s (fun k => (serialize bytes).getD (k - s.work.cursor) false)
        (min (8 * bytes.length) (requiredBits s.l - s.work.cursor)) u ∧
      (s.work.cursor + 8 * bytes.length < requiredBits s.l → bytes ≠ [] → u.work.sr = 0) ∧
      emitBytes bytes s = if s.work.cursor + 8 * bytes.length < requiredBits s.l then u else finish .ok u := by
  obtain ⟨he, hsr⟩ := Emitted.foldl_emitByte bytes
    (Emitted.refl s (fun k => (serialize bytes).getD (k - s.work.cursor) false)) (Nat.zero_le _)
    (fun i _ _ => by congr 1; omega)
  rw [Nat.zero_add] at he hsr
  refine ⟨_, he, fun hlt hne => hsr (by omega) (.inl hne), ?_⟩
  unfold emitBytes
  rw [if_neg h]
  dsimp only
  rw [he.l, he.cursor]
  by_cases hlt : s.work.cursor + 8 * bytes.length < requiredBits s.l
  · rw [if_pos hlt, if_pos (by omega)]
  · rw [if_neg hlt, if_neg (by omega)]

/-! ### The moves of DECODE -/

theorem takeBytes_cons {s : State} (h : s.status.busy = true) (b : Byte) (bs : List Byte) :
    takeBytes (b :: bs) s = takeBytes bs (takeByte s b) := by
  unfold takeBytes; rw [List.foldl_cons, if_pos h]

theorem takeBytes_nil (s : State) : takeBytes [] s = s := rfl

theorem takeBytes_singleton {s : State} (h : s.status.busy = true) (b : Byte) : takeBytes [b] s = takeByte s b :=
  takeBytes_cons h b []

/-- Bytes none of which is zero are all taken in. -/
theorem takeBytes_nonzero {s : State} (h : s.status.busy = true) {c : List Byte} (hc : ∀ x ∈ c, x ≠ terminator) :
    takeBytes c s = afterBytes s c := by
  induction c generalizing s with
  | nil => rfl
  | cons b c ih =>
    have hb := takeByte_nonzero s (hc b List.mem_cons_self)
    rw [takeBytes_cons h, ih (by rw [hb]; exact h) fun x hx => hc x (List.mem_cons_of_mem _ hx)]
    rfl

@[simp] theorem byteDone_pix (s : State) : (byteDone s).pix = s.pix := by
  unfold byteDone
  dsimp only
  split
  · split <;> rfl
  · split <;> rfl

@[simp] theorem takeByte_pix (s : State) (b : Byte) : (takeByte s b).pix = s.pix := by
  obtain ⟨w, h, -⟩ := takeByte_work s b
  rw [h, byteDone_pix]

@[simp] theorem takeBytes_pix (bytes : List Byte) (s : State) : (takeBytes bytes s).pix = s.pix := by
  unfold takeBytes
  refine foldl_keeps (P := fun t : State => t.pix = s.pix) (fun t b h => ?_) _ rfl
  split
  · rw [takeByte_pix]; exact h
  · exact h

@[simp] theorem endExhausted_pix (s : State) : (endExhausted s).pix = s.pix := by
  unfold endExhausted; split <;> rfl

@[simp] theorem decodeBeat_pix (s : State) : (decodeBeat s).pix = s.pix := by
  unfold decodeBeat
  dsimp only
  split
  · rw [endExhausted_pix]
    split
    · rw [byteDone_pix]
    · rfl
  · rfl

@[simp] theorem completeDecode_pix (s : State) : (completeDecode s).pix = s.pix := by
  unfold completeDecode; split <;> rfl

theorem magic_nonzero : ∀ x ∈ magic, x ≠ terminator := by decide

end Sys2Proof.Machine
end

