-- ==== Sys2Proof/Laws/Invariant.lean ====
section
/-! SUPPORT. What each part of a step does to the invariant of Safety.lean: the end of a command, an emitted run of bits, a
byte taken in, a beat, a reset. -/

namespace Sys2Proof.Machine

/-- The invariant looks at neither the moves to come, nor the values read, nor the draws. -/
theorem Inv_congr {s t : State} (h : s.Inv) (hn : t.npix = s.npix) (hm : t.mlen = s.mlen)
    (hs : t.status = s.status) (ho : t.olen = s.olen)
    (hw : t.work = s.work) (hp : t.pix = s.pix) (hg : t.msg = s.msg) (hu : t.out = s.out)
    (hq : t.params = s.params) : t.Inv := by
  obtain ⟨h1, h2, h5, h3, h4⟩ := h
  have en : t.n = s.n := hn
  have el : t.l = s.l := hm
  refine ⟨by rw [hq]; exact h1, ?_, ?_, ?_, ?_⟩
  · obtain ⟨a, b, c, d, e, f⟩ := h2
    constructor <;> simp only [hp, hg, hu, hq] <;> assumption
  · obtain ⟨a, b, c, d, e, f⟩ := h5
    constructor <;> simp only [hn, hm, ho, hw, hg, hq] <;> assumption
  · obtain ⟨a, b, c, d, e, f, g, i, j⟩ := h3
    constructor <;> simp only [hs, ho, hq] <;> assumption
  · obtain ⟨a, b, c, d, e⟩ := h4
    constructor <;> simp only [hs, en, el, hq, hw] <;> assumption

/-- An idle block has no command to be wrong about. -/
theorem commandInv_idle {s : State} (h : s.status.busy = false) : s.CommandInv := by
  constructor <;> intro hb <;> rw [h] at hb <;> cases hb

/-- A cursor within the buffer is one whose `P` is no wider than `NPIX`. -/
theorem p_lt {s : State} (h : s.Inv) {w : Work} (hc : w.cursor ≤ 3 * s.n) : w.p < 2 ^ s.params.w := by
  have h1 := h.widths.npix
  have h2 : s.n = s.npix := rfl
  have h3 := cursor_div w
  omega

/-- A frame byte index that the cursor has passed is no wider than `NPIX`. -/
theorem bi_lt {s : State} (h : s.Inv) {k : Nat} (hk : 8 * k ≤ 3 * s.n) : k < 2 ^ s.params.w := by
  have h1 := h.widths.npix
  have h2 : s.n = s.npix := rfl
  omega

theorem any_p_lt (q : Params) (d : Nat) : (Work.any q d).p < 2 ^ q.w := Nat.mod_lt _ (Nat.two_pow_pos _)

theorem any_bi_lt (q : Params) (d : Nat) : (Work.any q d).bi < 2 ^ (q.w + 1) := Nat.mod_lt _ (Nat.two_pow_pos _)

/-- The registers keep their widths when the working registers do. -/
theorem widths_with {s : State} (h : s.Inv) {w : Work} (hp : w.p < 2 ^ s.params.w) (hb : w.bi < 2 ^ (s.params.w + 1))
    {o : Nat} (ho : o < 2 ^ s.params.w) (st : Status) (m m' : Memory Byte) (d d' : Nat) :
    State.WidthInv { s with work := w, olen := o, status := st, pix := m, out := m', outDraw := d, draws := d' } :=
  ⟨h.widths.npix, h.widths.mlen, ho, hp, hb, h.widths.entries⟩

theorem emitted_inv {s u : State} {f : Nat → Bool} {n : Nat} (h : s.Inv) (hr : s.Running .encode)
    (hfit : ¬ s.overfull)
    (hc : s.work.cursor + n ≤ requiredBits s.l) (e : Emitted s f n u) : u.Inv := by
  have h0 := h
  obtain ⟨h1, h2, h5, h3, h4⟩ := h
  have hfit := not_overfull.1 hfit
  have hq : u.params = s.params := by rw [e.frame]
  have hs : u.status = s.status := by rw [e.frame]
  have ho : u.olen = s.olen := by rw [e.frame]
  have hg : u.msg = s.msg := by rw [e.frame]
  have hu : u.out = s.out := by rw [e.frame]
  have hpx := h4.pixels hr.1
  unfold capacity at hfit
  have hcur : u.work.cursor ≤ 3 * s.n := by rw [e.cursor]; omega
  have ha : 8 * u.work.bi + u.work.nb.toNat = u.work.cursor := by
    have ha := h4.aligned hr.1
    rw [e.cursor, e.nb, e.bi, BitVec.toNat_add, BitVec.toNat_ofNat]
    have := s.work.nb.isLt
    omega
  refine ⟨by rw [hq]; exact h1, ?_, ?_, ?_, ?_⟩
  · refine ⟨e.wf h2.pixWf, by rw [hg]; exact h2.msgWf, by rw [hu]; exact h2.outWf, ?_,
      by rw [hg, hq]; exact h2.msgBound, by rw [hu, hq]; exact h2.outBound⟩
    rw [hq]
    exact e.bound _ (by omega) h2.pixBound
  · have hb := bi_lt h0 (show 8 * u.work.bi ≤ 3 * s.n by omega)
    rw [e.frame]
    exact widths_with h0 (p_lt h0 hcur) (by rw [Nat.pow_succ]; omega) h5.olen _ _ _ _ _
  · obtain ⟨a, b, c, d, e, f, g, i, j⟩ := h3
    constructor <;> simp only [hs, ho, hq] <;> assumption
  · refine ⟨fun _ => by rw [e.n, hq]; exact hpx, fun _ _ => by rw [e.l, hq]; exact h4.entries hr.1 hr.2,
        fun _ => ?_, fun _ _ => ?_, fun _ hd => ?_⟩
    · exact ha
    · right; rw [e.l, e.n, e.cursor]; exact ⟨hfit, hc⟩
    · rw [hs, hr.2] at hd; cases hd

theorem finish_inv {s : State} (h : s.Inv) (r : Result) (hb : s.status.busy = true)
    (h1 : r = .capacityExceeded → s.status.op = .encode) (h2 : r = .notFound → s.status.op = .decode) :
    (finish r s).Inv := by
  have ho := h.result.busyOlen hb
  refine ⟨h.params, ⟨h.memory.pixWf, h.memory.msgWf, h.memory.outWf, h.memory.pixBound, h.memory.msgBound,
      h.memory.outBound⟩, widths_with h (any_p_lt _ _) (any_bi_lt _ _) h.widths.olen _ _ _ _ _, ?_,
      commandInv_idle rfl⟩
  refine ⟨nofun, nofun, fun _ => rfl, fun h => h1 h, fun h => h2 h, nofun, fun _ => ho, fun _ => ho,
      h.result.olenBound⟩

theorem finishDecode_inv {s : State} (h : s.Inv) (r : Result) (k : Nat) (hr : s.Running .decode)
    (hne : r ≠ .capacityExceeded) : (finishDecode r k s).Inv := by
  have ho := h.result.busyOlen hr.1
  refine ⟨h.params, ⟨h.memory.pixWf, h.memory.msgWf, below_wf k h.memory.outWf, h.memory.pixBound,
      h.memory.msgBound, below_bound h.memory.outBound⟩,
      widths_with h (any_p_lt _ _) (any_bi_lt _ _) h.widths.olen _ _ _ _ _, ?_, commandInv_idle rfl⟩
  refine ⟨nofun, nofun, fun _ => rfl, fun h => (hne h).elim, fun h => hr.2, nofun, fun _ => ho, fun _ => ho,
      h.result.olenBound⟩

theorem outBound_le {s : State} (h : s.Inv) (hb : s.status.busy = true) : outBound s.n ≤ s.params.ocap := by
  have := h.params.ocap
  have := h.command.pixels hb
  unfold outBound; omega

theorem finishDecode_ok_inv {s : State} (h : s.Inv) (v : Nat) (m : Memory Byte) (hr : s.Running .decode) (k : Nat)
    (hm : m.wf) (hb : ∀ e ∈ m, e.1 < s.params.ocap) (hv : v ≤ outBound s.n) :
    (finishDecode .ok k { s with olen := v, out := m }).Inv := by
  have hv' := outBound_le h hr.1
  have ho : v < 2 ^ s.params.w := bi_lt h (by unfold outBound at hv; omega)
  refine ⟨h.params, ⟨h.memory.pixWf, h.memory.msgWf, below_wf k hm, h.memory.pixBound, h.memory.msgBound,
      below_bound hb⟩, widths_with h (any_p_lt _ _) (any_bi_lt _ _) ho _ _ _ _ _, ?_, commandInv_idle rfl⟩
  refine ⟨nofun, nofun, fun _ => rfl, nofun, nofun, nofun, fun he => ?_, fun h => (h rfl).elim,
    Nat.le_trans hv hv'⟩
  have : s.status.op = .encode := he
  rw [hr.2] at this; cases this

theorem cursor_lt_bi {s : State} (h : s.Inv) (hb : s.status.busy = true) : 8 * s.work.bi ≤ s.work.cursor ∧
    s.work.cursor < 8 * s.work.bi + 8 := by
  have := h.command.aligned hb
  have := s.work.nb.isLt
  omega

theorem byteDone_inv {s : State} (h : s.Inv) (hr : s.Running .decode) {w : Work} (hnb : w.nb = 0)
    (hc : w.cursor = 8 * (w.bi + 1)) (hc2 : w.cursor ≤ 3 * s.n) :
    (byteDone { s with work := w }).Inv := by
  rw [byteDone_with]
  have hob := outBound_le h hr.1
  have hp := p_lt h hc2
  have hbi := bi_lt h (show 8 * (w.bi + 1) ≤ 3 * s.n by omega)
  have hbi : w.bi + 1 < 2 ^ (s.params.w + 1) := by rw [Nat.pow_succ]; omega
  split
  · split
    · refine finishDecode_ok_inv h _ _ hr _ h.memory.outWf h.memory.outBound ?_
      unfold outBound; omega
    · exact finishDecode_inv h _ _ hr nofun
  · split
    · refine ⟨h.params, ⟨h.memory.pixWf, h.memory.msgWf, h.memory.outWf, h.memory.pixBound, h.memory.msgBound,
          h.memory.outBound⟩, widths_with h (w := { w with hok := _, bi := w.bi + 1 }) hp hbi h.widths.olen _ _ _ _ _,
       ⟨h.result.1, h.result.2, h.result.3, h.result.4, h.result.5, h.result.6, h.result.7, h.result.8,
           h.result.9⟩, ⟨h.command.pixels, h.command.entries, fun _ => ?_, fun _ he => ?_, fun _ _ => ?_⟩⟩
      · show 8 * (w.bi + 1) + w.nb.toNat = w.cursor
        rw [hnb, hc]; rfl
      · have : s.status.op = .encode := he
        rw [hr.2] at this; cases this
      · exact hc2
    · refine ⟨h.params, ⟨h.memory.pixWf, h.memory.msgWf, ?_, h.memory.pixBound, h.memory.msgBound, ?_⟩,
          widths_with h (w := { w with hok := _, bi := w.bi + 1 }) hp hbi h.widths.olen _ _ _ _ _,
       ⟨h.result.1, h.result.2, h.result.3, h.result.4, h.result.5, h.result.6, h.result.7, h.result.8,
           h.result.9⟩, ⟨h.command.pixels, h.command.entries, fun _ => ?_, fun _ he => ?_, fun _ _ => ?_⟩⟩
      · dsimp only; split
        · exact put_wf _ _ h.memory.outWf
        · exact h.memory.outWf
      · dsimp only; split
        · exact put_bound h.memory.outBound (by omega)
        · exact h.memory.outBound
      · show 8 * (w.bi + 1) + w.nb.toNat = w.cursor
        rw [hnb, hc]; rfl
      · have : s.status.op = .encode := he
        rw [hr.2] at this; cases this
      · exact hc2

@[simp] theorem byteDone_op (s : State) : (byteDone s).status.op = s.status.op := by
  unfold byteDone
  dsimp only
  split
  · split <;> rfl
  · split <;> rfl

theorem endExhausted_inv {s : State} (h : s.Inv) (ho : s.status.op = .decode) : (endExhausted s).Inv := by
  rcases endExhausted_cases s with e | ⟨hb, e⟩
  · rw [e]; exact h
  · rw [e]; exact finishDecode_inv h _ _ ⟨hb, ho⟩ nofun

theorem decodeBeat_inv {s : State} (h : s.Inv) (hr : s.Running .decode) : (decodeBeat s).Inv := by
  by_cases hc : s.work.cursor < 3 * s.n
  · rw [show decodeBeat s = _ from decodeBeat_with s (w := s.work) hc]
    have ha := h.command.aligned hr.1
    have hcur : (s.work.beat s.pix).cursor ≤ 3 * s.n := by rw [beat_cursor]; exact hc
    split
    · rename_i h7
      have h7' : (7 : BitVec 3).toNat = 7 := rfl
      rw [h7, h7'] at ha
      refine endExhausted_inv (byteDone_inv h hr ?_ ?_ hcur) ((byteDone_op _).trans hr.2)
      · rw [beat_nb, h7]; rfl
      · rw [beat_cursor, beat_bi]; omega
    · rename_i h7
      have hnb1 : (s.work.nb + 1).toNat = s.work.nb.toNat + 1 := by
        have h1 : (1 : BitVec 3).toNat = 1 := rfl
        have h2 := s.work.nb.isLt
        have h3 : s.work.nb.toNat ≠ 7 := fun hh => h7 (BitVec.eq_of_toNat_eq hh)
        rw [BitVec.toNat_add, h1]
        apply Nat.mod_eq_of_lt
        omega
      refine endExhausted_inv ⟨h.params, ⟨h.memory.pixWf, h.memory.msgWf, h.memory.outWf, h.memory.pixBound,
          h.memory.msgBound, h.memory.outBound⟩,
        widths_with h (p_lt h hcur) (by rw [beat_bi]; exact h.widths.bi) h.widths.olen _ _ _ _ _,
        ⟨h.result.1, h.result.2, h.result.3, h.result.4, h.result.5, h.result.6, h.result.7, h.result.8,
          h.result.9⟩, ⟨h.command.pixels, h.command.entries, fun _ => ?_, fun _ he => ?_, fun _ _ => hcur⟩⟩ hr.2
      · show 8 * (s.work.beat s.pix).bi + (s.work.beat s.pix).nb.toNat = (s.work.beat s.pix).cursor
        rw [beat_cursor, beat_bi, beat_nb, hnb1]; omega
      · have : s.status.op = .encode := he
        rw [hr.2] at this; cases this
  · rw [decodeBeat_of_exhausted (by omega)]
    exact finishDecode_inv h _ _ hr nofun

theorem takeByte_inv {s : State} (h : s.Inv) (hr : s.Running .decode) (hnb : s.work.nb = 0)
    (hc : s.work.cursor + 8 ≤ 3 * s.n) (b : Byte) :
   (takeByte s b).Inv := by
  have ha := h.command.aligned hr.1
  rw [hnb] at ha
  have h0 : (0 : BitVec 3).toNat = 0 := rfl
  rw [h0] at ha
  obtain ⟨w, e, -, h1, h2, -, h3⟩ := takeByte_work s b
  rw [e]
  refine byteDone_inv h hr (h1.trans hnb) ?_ ?_
  · rw [h3, h2]; omega
  · omega

theorem takeBytes_inv {s : State} (h : s.Inv) (hr : s.Running .decode) (hnb : s.work.nb = 0) (bytes : List Byte)
   (hc : s.work.cursor + 8 * bytes.length ≤ 3 * s.n) (hz : ∀ x ∈ bytes.dropLast, x ≠ terminator) :
    (takeBytes bytes s).Inv := by
  induction bytes generalizing s with
  | nil => exact h
  | cons b bs ih =>
    simp only [List.length_cons] at hc
    rw [takeBytes_cons hr.1]
    have hi := takeByte_inv h hr hnb (by omega) b
    cases bs with
    | nil => exact hi
    | cons b' bs =>
      have hb := takeByte_nonzero s (hz b (by simp))
      have h1 := afterByte_nb s.work b
      have h2 : (s.work.afterByte b).cursor = s.work.cursor + 8 := afterByte_cursor _ b
      rw [hb] at hi ⊢
      generalize s.work.afterByte b = w at *
      refine ih hi hr (h1.trans hnb) ?_ fun x hx => hz x
          (by simp only [List.dropLast_cons_cons]; exact List.mem_cons_of_mem _ hx)
      show w.cursor + _ ≤ 3 * s.n
      omega

theorem inv_encode_fits {s : State} (h : s.Inv) (hr : s.Running .encode) : s.work.cursor ≤ requiredBits s.l := by
  rcases h.command.encodeCursor hr.1 hr.2 with h | h
  · omega
  · exact h.2

theorem resetEvent_inv {s : State} (h : s.Inv) : (resetEvent s).Inv := by
  have hpix : (resetEvent s).pix.wf ∧ ∀ e ∈ (resetEvent s).pix, e.1 < 4 * s.params.pixcap := by
    rw [resetEvent_pix]
    split
    · rename_i hb
      unfold abandon
      split
      · split
        · exact ⟨h.memory.pixWf, h.memory.pixBound⟩
        · rename_i hf
          have hf := not_overfull.1 hf
          unfold capacity at hf
          have hp := h.command.pixels hb
          refine ⟨scramble_wf _ _ h.memory.pixWf, scramble_bound _ _ h.memory.pixBound ?_⟩
          intro a ha
          rcases mem_spanAddresses.1 ha with ⟨k, hk, rfl⟩ | ⟨p, hp', rfl⟩
          · rw [slot_lt]; omega
          · rw [alphaAddr_lt]; rw [lt_spanPixels] at hp'; omega
      · exact ⟨h.memory.pixWf, h.memory.pixBound⟩
    · exact ⟨h.memory.pixWf, h.memory.pixBound⟩
  have hout : (resetEvent s).out.wf ∧ ∀ e ∈ (resetEvent s).out, e.1 < s.params.ocap := by
    rw [resetEvent_out]
    split
    · unfold abandon
      split
      · split
        · exact ⟨h.memory.outWf, h.memory.outBound⟩
        · exact ⟨h.memory.outWf, h.memory.outBound⟩
      · exact ⟨Memory.wf_nil, nofun⟩
    · exact ⟨h.memory.outWf, h.memory.outBound⟩
  refine ⟨by rw [resetEvent_params]; exact h.params, ⟨hpix.1, ?_, hout.1, ?_, ?_, ?_⟩, ⟨?_, ?_, ?_, ?_, ?_, ?_⟩,
      ⟨nofun, nofun, fun h =>
      (h rfl).elim, nofun, nofun, nofun, fun _ => rfl, fun h => (h rfl).elim, Nat.zero_le _⟩, commandInv_idle rfl⟩
  · rw [resetEvent_msg]; exact h.memory.msgWf
  · rw [resetEvent_params]; exact hpix.2
  · rw [resetEvent_msg, resetEvent_params]; exact h.memory.msgBound
  · rw [resetEvent_params]; exact hout.2
  · exact Nat.two_pow_pos _
  · exact Nat.two_pow_pos _
  · exact Nat.two_pow_pos _
  · rw [resetEvent_params]; exact any_p_lt _ _
  · rw [resetEvent_params]; exact any_bi_lt _ _
  · rw [resetEvent_params, resetEvent_msg]; exact h.widths.entries

end Sys2Proof.Machine
end

