-- ==== Sys2Proof/Laws/PerInstr.lean ====
section
/-! SUPPORT. Facts about every instruction as syntax, one lemma per constructor. -/

/-- The length of an encoding as the opcode table gives it: a command word has as many bits as `CTRL`, the header 40, a byte
8 (rules R47, R48, R60). -/
def Sys2Proof.Laws.CodeLength.Statement (i : Sys2Proof.Instr) : Prop :=
  ∀ w : Nat, (Sys2Proof.encode i).length w =
    match i with
    | .encode => w
    | .decode => w
    | .nop => w
    | .magic => 40
    | .data _ => 8
    | .term => 8

theorem Sys2Proof.Laws.CodeLength.encode : Sys2Proof.Laws.CodeLength.Statement .encode := fun _ => rfl

theorem Sys2Proof.Laws.CodeLength.decode : Sys2Proof.Laws.CodeLength.Statement .decode := fun _ => rfl

theorem Sys2Proof.Laws.CodeLength.nop : Sys2Proof.Laws.CodeLength.Statement .nop := fun _ => rfl

theorem Sys2Proof.Laws.CodeLength.magic : Sys2Proof.Laws.CodeLength.Statement .magic := fun _ => rfl

theorem Sys2Proof.Laws.CodeLength.data (d : Sys2Proof.Byte) : Sys2Proof.Laws.CodeLength.Statement (.data d) := fun _ => rfl

theorem Sys2Proof.Laws.CodeLength.term : Sys2Proof.Laws.CodeLength.Statement .term := fun _ => rfl
end

