-- ==== Sys2Proof/Laws/Run.lean ====
section
/-! SUPPORT. Runs: one engine move as a function of the state, that it neither reads nor changes the moves to come, and
what a run of engine moves of one kind does. -/

namespace Sys2Proof.Machine

/-! ### `core.run` -/

theorem core_run_succ (M : Host.Core) {s t : M.State} (n : Nat) (h : M.step s = .next t) :
    M.run (n + 1) s = M.run n t := by
  unfold Host.Core.run
  rw [h]
  cases n <;> rfl

theorem run_succ {s t : State} (n : Nat) (h : step s = .next t) : core.run (n + 1) s = core.run n t :=
  core_run_succ core n h

theorem run_zero (s : State) : core.run 0 s = .next s := rfl

theorem run_one {s t : State} (h : step s = .next t) : core.run 1 s = .next t := run_succ 0 h

/-! ### One engine move as a function -/

/-- What one engine move does to a state whose next move it was. -/
def engineStep (e : EngineMove) (s : State) : State :=
  if s.status.busy then
    match e, s.status.op with
    | .complete, .encode => completeEncode s
    | .complete, .decode => completeDecode s
    | .beat, .encode => encodeBeat s
    | .beat, .decode => decodeBeat s
    | .symbol, .encode =>
      if s.work.nb = 0 then
        match encodeSymbol s with
        | some i => emitBytes (symbolBytes i) s
        | none => encodeBeat s
      else s
    | .symbol, .decode =>
      if s.work.nb = 0 then
        match decodeSymbol s with
        | .instr i _ => takeBytes (symbolBytes i) s
        | .rejected .partialByte => finishDecode .notFound 0 s
      else s
  else s

theorem engineStep_idle {s : State} (h : s.status.busy = false) (e : EngineMove) : engineStep e s = s := by
  unfold engineStep; rw [h]; rfl

theorem exec_encodeSymbol {s t : State} {i : Instr} (h : encodeSymbol s = some i) :
    exec i t = passBytes (symbolBytes i) t := by
  unfold encodeSymbol at h
  dsimp only at h
  split at h
  · cases h; rfl
  · split at h
    · cases h; rfl
    · split at h
      · cases h; rfl
      · cases h

/-- A step whose next move is the engine's. -/
theorem step_engine_eq {s : State} {e : EngineMove} {rest : List Move} (hin : s.inputs = .engine e :: rest) :
    step s = .next (engineStep e { s with inputs := rest }) := by
  have hf : fetch s = engineMove e { s with inputs := rest } := by unfold fetch; rw [hin]
  generalize ({ s with inputs := rest } : State) = u at hf ⊢
  clear hin
  unfold step
  rw [hf]
  unfold engineMove engineStep
  cases hb : u.status.busy with
  | false => rfl
  | true =>
    cases ho : u.status.op with
    | encode =>
      have hr : u.Running .encode := ⟨hb, ho⟩
      cases e with
      | complete => simp only [if_true, currentCommand, ho]; rw [execEncode_running hr]
      | beat => simp only [if_true, engineBeat, ho]
      | symbol =>
        by_cases hnb : u.work.nb = 0
        · simp only [if_true, fetchSymbol, ho, if_pos hnb]
          cases hs : encodeSymbol u with
          | none => rfl
          | some i => simp only; rw [exec_encodeSymbol hs, passBytes_encode hr]
        · simp only [if_true, fetchSymbol, ho, if_neg hnb]
    | decode =>
      have hr : u.Running .decode := ⟨hb, ho⟩
      cases e with
      | complete => simp only [if_true, currentCommand, ho]; rw [execDecode_running hr]
      | beat => simp only [if_true, engineBeat, ho]
      | symbol =>
        by_cases hnb : u.work.nb = 0
        · simp only [if_true, fetchSymbol, ho, if_pos hnb]
          cases hs : decodeSymbol u with
          | rejected r => cases r; rfl
          | instr i bits => simp only; rw [exec_decoded hs, passBytes_decode hr]
        · simp only [if_true, fetchSymbol, ho, if_neg hnb]

/-! ### The moves to come are no part of an engine move -/

/-- The state with other moves to come. -/
def State.within (s : State) (l : List Move) : State := { s with inputs := l }

theorem within_finish (r : Result) (s : State) (l : List Move) : finish r (s.within l) = (finish r s).within l := rfl

theorem within_finishDecode (r : Result) (n : Nat) (s : State) (l : List Move) :
    finishDecode r n (s.within l) = (finishDecode r n s).within l := rfl

theorem within_completeEncode (s : State) (l : List Move) :
    completeEncode (s.within l) = (completeEncode s).within l := by
  by_cases h : s.overfull
  · rw [completeEncode_of_overfull h, completeEncode_of_overfull (s := s.within l) h]; rfl
  · rw [completeEncode_of_fits h, completeEncode_of_fits (s := s.within l) h]; rfl

theorem within_completeDecode (s : State) (l : List Move) :
    completeDecode (s.within l) = (completeDecode s).within l := by
  have hs : (s.within l).streamBytes = s.streamBytes := rfl
  cases h : parseFrame s.streamBytes with
  | none => rw [completeDecode_of_none h, completeDecode_of_none (s := s.within l) (by rw [hs]; exact h)]; rfl
  | some y => rw [completeDecode_of_some h, completeDecode_of_some (s := s.within l) (by rw [hs]; exact h)]; rfl

theorem within_emitBit (s : State) (l : List Move) : emitBit (s.within l) = (emitBit s).within l := rfl

theorem within_ite {c : Prop} [Decidable c] (a b : State) (l : List Move) :
    (if c then a.within l else b.within l) = (if c then a else b).within l := by split <;> rfl

theorem within_encodeBeat (s : State) (l : List Move) : encodeBeat (s.within l) = (encodeBeat s).within l := by
  by_cases h : s.overfull
  · rw [encodeBeat_of_overfull h, encodeBeat_of_overfull (s := s.within l) h]; rfl
  · by_cases hc : s.work.cursor < requiredBits s.l
    · unfold encodeBeat
      rw [if_neg h, if_neg (show ¬ (s.within l).overfull from h), if_pos hc,
        if_pos (show (s.within l).work.cursor < requiredBits (s.within l).l from hc), ← within_emitBit]
      congr 1
      exact within_ite (c := s.work.nb = 0) { s with work := { s.work with sr := s.frameByte s.work.bi } } s l
    · rw [encodeBeat_of_done h (by omega), encodeBeat_of_done (s := s.within l) h (by
        show requiredBits s.l ≤ s.work.cursor; omega)]; rfl

/-- A fold commutes with what every application commutes with. -/
theorem foldl_comm {α β : Type} {f : β → α → β} {g : β → β} (h : ∀ b a, f (g b) a = g (f b a)) (l : List α) (b : β) :
    l.foldl f (g b) = g (l.foldl f b) := by
  induction l generalizing b with
  | nil => rfl
  | cons a l ih => rw [List.foldl_cons, List.foldl_cons, h, ih]

theorem within_emitByte (s : State) (b : Byte) (l : List Move) : emitByte (s.within l) b = (emitByte s b).within l := by
  unfold emitByte
  generalize List.range 8 = is
  exact foldl_comm (g := fun t : State => t.within l)
    (f := fun t (_ : Nat) => if t.work.cursor < requiredBits t.l then emitBit t else t)
    (fun t _ => within_ite (c := t.work.cursor < requiredBits t.l) (emitBit t) t l) is
    { s with work := { s.work with sr := b } }

theorem within_emitBytes (bytes : List Byte) (s : State) (l : List Move) :
    emitBytes bytes (s.within l) = (emitBytes bytes s).within l := by
  by_cases h : s.overfull
  · rw [emitBytes_of_overfull h, emitBytes_of_overfull (s := s.within l) h]; rfl
  · have hf : bytes.foldl emitByte (s.within l) = (bytes.foldl emitByte s).within l := by
      clear h
      induction bytes generalizing s with
      | nil => rfl
      | cons b bs ih => rw [List.foldl_cons, List.foldl_cons, within_emitByte, ih]
    unfold emitBytes
    rw [if_neg h, if_neg (show ¬ (s.within l).overfull from h)]
    dsimp only
    rw [hf]
    generalize bytes.foldl emitByte s = t
    exact within_ite (c := t.work.cursor < requiredBits t.l) t (finish .ok t) l

theorem within_byteDone (s : State) (l : List Move) : byteDone (s.within l) = (byteDone s).within l := by
  unfold byteDone
  dsimp only
  by_cases h1 : s.work.sr = terminator
  · rw [if_pos h1, if_pos (show (s.within l).work.sr = terminator from h1)]
    by_cases h2 : 5 ≤ s.work.bi ∧ s.work.hok = true
    · rw [if_pos h2, if_pos (show 5 ≤ (s.within l).work.bi ∧ (s.within l).work.hok = true from h2)]; rfl
    · rw [if_neg h2, if_neg (show ¬ (5 ≤ (s.within l).work.bi ∧ (s.within l).work.hok = true) from h2)]; rfl
  · rw [if_neg h1, if_neg (show ¬ (s.within l).work.sr = terminator from h1)]
    by_cases h2 : s.work.bi < 5
    · rw [if_pos h2, if_pos (show (s.within l).work.bi < 5 from h2)]; rfl
    · rw [if_neg h2, if_neg (show ¬ (s.within l).work.bi < 5 from h2)]; rfl

theorem within_takeByte (s : State) (b : Byte) (l : List Move) : takeByte (s.within l) b = (takeByte s b).within l := by
  have h : ∀ (t : State) (w : Work), t.work.advanceBy 8 = w →
      takeByte t b = byteDone { t with work := { w with sr := b } } := by
    intro t w hw
    unfold takeByte
    rw [hw]
  rw [h s _ rfl, h (s.within l) _ rfl, ← within_byteDone]
  rfl

theorem within_takeBytes (bytes : List Byte) (s : State) (l : List Move) :
    takeBytes bytes (s.within l) = (takeBytes bytes s).within l := by
  unfold takeBytes
  refine foldl_comm (g := fun t : State => t.within l) (fun t b => ?_) bytes s
  rw [within_takeByte]
  exact within_ite (c := t.status.busy = true) (takeByte t b) t l

theorem within_endExhausted (s : State) (l : List Move) : endExhausted (s.within l) = (endExhausted s).within l :=
  within_ite (c := s.status.busy = true ∧ s.n ≤ s.work.p) (finishDecode .notFound 0 s) s l

theorem within_decodeBeat (s : State) (l : List Move) : decodeBeat (s.within l) = (decodeBeat s).within l := by
  by_cases h : s.work.cursor < 3 * s.n
  · rw [show decodeBeat s = _ from decodeBeat_with s (w := s.work) h,
      show decodeBeat (s.within l) = _ from decodeBeat_with (s.within l) (w := s.work) h,
      ← within_endExhausted, ← within_ite, ← within_byteDone]; rfl
  · rw [decodeBeat_of_exhausted (s := s) (by omega), decodeBeat_of_exhausted (s := s.within l) (by
      show 3 * s.n ≤ s.work.cursor; omega)]; rfl

theorem within_engineStep (e : EngineMove) (s : State) (l : List Move) :
    engineStep e (s.within l) = (engineStep e s).within l := by
  have h1 : (s.within l).status = s.status := rfl
  have h2 : (s.within l).work = s.work := rfl
  have h3 : encodeSymbol (s.within l) = encodeSymbol s := rfl
  have h4 : decodeSymbol (s.within l) = decodeSymbol s := rfl
  unfold engineStep
  rw [h1, h2, h3, h4, within_completeEncode, within_completeDecode, within_encodeBeat, within_decodeBeat]
  cases s.status.busy with
  | false => rfl
  | true =>
    cases e with
    | complete => cases s.status.op <;> rfl
    | beat => cases s.status.op <;> rfl
    | symbol =>
      cases s.status.op with
      | encode =>
        simp only [if_true]
        rw [← within_ite]
        congr 1
        cases encodeSymbol s with
        | none => rfl
        | some i => exact within_emitBytes _ _ _
      | decode =>
        simp only [if_true]
        rw [← within_ite]
        congr 1
        cases decodeSymbol s with
        | rejected r => cases r; rfl
        | instr i bits => exact within_takeBytes _ _ _

/-! ### Runs of engine moves -/

/-- A number of engine moves of one kind after one another. -/
def engineSteps (e : EngineMove) : Nat → State → State
  | 0, s => s
  | n + 1, s => engineSteps e n (engineStep e s)

theorem engineSteps_idle {s : State} (h : s.status.busy = false) (e : EngineMove) (n : Nat) :
    engineSteps e n s = s := by
  induction n with
  | zero => rfl
  | succ n ih => rw [engineSteps, engineStep_idle h, ih]

theorem engineSteps_add (e : EngineMove) (m n : Nat) (s : State) :
    engineSteps e (m + n) s = engineSteps e n (engineSteps e m s) := by
  induction m generalizing s with
  | zero => rw [Nat.zero_add]; rfl
  | succ m ih => rw [Nat.succ_add, engineSteps, ih]; rfl

theorem engineSteps_succ (e : EngineMove) (n : Nat) (s : State) :
    engineSteps e (n + 1) s = engineStep e (engineSteps e n s) := engineSteps_add e n 1 s

/-- A run of engine moves of one kind, the moves after it left to come. -/
theorem run_engine (e : EngineMove) (n : Nat) (s : State) (rest : List Move) :
    core.run n (s.within (List.replicate n (.engine e) ++ rest)) = .next ((engineSteps e n s).within rest) := by
  induction n generalizing s with
  | zero => exact run_zero _
  | succ n ih =>
    have h := step_engine_eq (s := s.within (List.replicate (n + 1) (.engine e) ++ rest)) (e := e)
      (rest := List.replicate n (.engine e) ++ rest) rfl
    rw [run_succ n h]
    have h' : ({ s.within (List.replicate (n + 1) (.engine e) ++ rest) with
      inputs := List.replicate n (.engine e) ++ rest } : State) = s.within (List.replicate n (.engine e) ++ rest) := rfl
    rw [h', within_engineStep, ih]
    rfl

/-- A run of engine moves that has ended the command is over however many more moves there are. -/
theorem engineSteps_of_le {e : EngineMove} {m n : Nat} {s t : State} (h : engineSteps e m s = t)
    (ht : t.status.busy = false) (hmn : m ≤ n) : engineSteps e n s = t := by
  rw [show n = m + (n - m) by omega, engineSteps_add, h, engineSteps_idle ht]

end Sys2Proof.Machine
end

