-- ==== Sys2Proof/Laws/Refinement.lean ====
section
/-! SUPPORT. The reference sequences against the completion steps: what the beats and the symbols of a command, from the
START on, add up to. -/

namespace Sys2Proof.Machine

/-! ### The beats of ENCODE -/

/-- A beat of a running command. -/
theorem engineStep_encodeBeat {s : State} (hr : s.Running .encode) : engineStep .beat s = encodeBeat s := by
  unfold engineStep; rw [hr.1, hr.2]; rfl
theorem engineStep_decodeBeat {s : State} (hr : s.Running .decode) : engineStep .beat s = decodeBeat s := by
  unfold engineStep; rw [hr.1, hr.2]; rfl

theorem Emitted.running {s u : State} {f : Nat → Bool} {n : Nat} (h : Emitted s f n u) (hr : s.Running .encode) :
    u.Running .encode := by
  rw [h.frame]; exact hr

/-- An ENCODE whose frame bits are all out ends as the completion step does. -/
theorem emitted_all {s u : State} (hw : s.pix.wf) (h0 : s.work.cursor = 0) (hfit : ¬ s.overfull)
    (h : Emitted s s.frameBit (requiredBits s.l) u) : finish .ok u = completeEncode s := by
  rw [completeEncode_of_fits hfit]
  have hp : u.pix = s.encodedPix := by
    refine Memory.ext (h.wf hw) (encodedPix_wf hw) fun a => ?_
    have hB := requiredBits_pos s.l
    rcases slot_or_alpha a with ⟨k, rfl⟩ | ⟨p, rfl⟩
    · rw [h.slots, get?_encodedPix_slot, h0]
      congr 1
      exact propext ⟨fun _ => by omega, fun _ => by omega⟩
    · have hsp := @lt_spanPixels (requiredBits s.l) p
      rw [h.alphas, get?_encodedPix_alpha, h0]
      unfold lastSlot
      congr 1
      exact propext ⟨fun _ => by omega, fun _ => by omega⟩
  rw [h.frame, hp]; rfl

/-- After `n` beats of ENCODE: the next bit out is frame bit `n`, and the counters stand at bit `n mod 8` of byte
`n div 8`. -/
theorem nextBit_of {s u : State} {n : Nat} (hw : s.work = Work.started) (h : Emitted s s.frameBit n u)
    (hsr : n % 8 ≠ 0 → u.work.sr = shiftOutBy (s.frameByte (n / 8)) (n % 8)) : u.nextBit = s.frameBit n ∧
      (n % 8 = 0 → u.work.nb = 0 ∧ u.work.bi = n / 8) ∧ (n % 8 ≠ 0 → u.work.nb ≠ 0) := by
  have hnb : u.work.nb.toNat = n % 8 := by
    rw [h.nb, hw, BitVec.toNat_add, BitVec.toNat_ofNat]
    show ((0 : BitVec 3).toNat + n % 8) % 8 = _
    have : (0 : BitVec 3).toNat = 0 := rfl
    omega
  have hbi : u.work.bi = n / 8 := by
    rw [h.bi, hw]
    have h1 : Work.started.bi = 0 := rfl
    have h2 : Work.started.nb.toNat = 0 := rfl
    rw [h1, h2]; omega
  have hfb : u.frameByte (n / 8) = s.frameByte (n / 8) := by
    rw [h.frame]; rfl
  have key : n % 8 = 0 ↔ u.work.nb = 0 := by
    rw [← hnb]
    exact ⟨fun h => BitVec.eq_of_toNat_eq h, fun h => by rw [h]; rfl⟩
  refine ⟨?_, fun h => ⟨key.1 h, hbi⟩, mt key.2⟩
  unfold State.nextBit State.frameBit
  by_cases h8 : n % 8 = 0
  · rw [if_pos (key.1 h8), hbi, hfb, h8]; rfl
  · rw [if_neg (mt key.2 h8), hsr h8, shiftOutBit_shiftOutBy _ (by omega)]

theorem encodeBeat_sr {s : State} (h : ¬ s.overfull) (hc : s.work.cursor < requiredBits s.l) :
    (encodeBeat s).work.sr = shiftOut (if s.work.nb = 0 then s.frameByte s.work.bi else s.work.sr) := by
  unfold encodeBeat
  rw [if_neg h, if_pos hc]
  split
  · exact advance_sr _
  · exact advance_sr _

/-- The first `n` beats of ENCODE emit the first `n` frame bits. -/
theorem encodeBeats {s : State} (hs : s.status = Status.started .encode) (hw : s.work = Work.started)
    (hfit : ¬ s.overfull) (n : Nat) (hn : n ≤ requiredBits s.l) :
    Emitted s s.frameBit n (engineSteps .beat n s) ∧
    (n % 8 ≠ 0 → (engineSteps .beat n s).work.sr = shiftOutBy (s.frameByte (n / 8)) (n % 8)) := by
  have hr : s.Running .encode := by unfold State.Running; rw [hs]; exact ⟨rfl, rfl⟩
  have h0 : s.work.cursor = 0 := by rw [hw]; rfl
  induction n with
  | zero => exact ⟨Emitted.refl _ _, nofun⟩
  | succ n ih =>
    obtain ⟨he, hsr⟩ := ih (by omega)
    rw [engineSteps_succ]
    generalize engineSteps .beat n s = u at *
    have hru := he.running hr
    rw [engineStep_encodeBeat hru]
    have hul := he.l
    have hun := he.n
    have hfu : ¬ u.overfull := by show ¬ requiredBits u.l > capacity u.n; rw [hul, hun]; exact hfit
    have hcu : u.work.cursor < requiredBits u.l := by rw [hul, he.cursor, h0]; omega
    obtain ⟨hnx, h8, h8'⟩ := nextBit_of hw he hsr
    have hload : u.nextBit = shiftOutBit (if u.work.nb = 0 then u.frameByte u.work.bi else u.work.sr) := rfl
    constructor
    · unfold encodeBeat
      rw [if_neg hfu, if_pos hcu]
      by_cases hz : u.work.nb = 0
      · rw [if_pos hz]
        refine (he.load (u.frameByte u.work.bi)).emitBit (by omega) ?_
        rw [h0, Nat.zero_add, ← hnx, hload, if_pos hz]
      · rw [if_neg hz]
        refine he.emitBit (by omega) ?_
        rw [h0, Nat.zero_add, ← hnx, hload, if_neg hz]
    · intro hne
      rw [encodeBeat_sr hfu hcu]
      have hfb : u.frameByte (n / 8) = s.frameByte (n / 8) := by rw [he.frame]; rfl
      by_cases hz : n % 8 = 0
      · rw [if_pos (h8 hz).1, (h8 hz).2, hfb, show (n + 1) % 8 = 1 by omega, show (n + 1) / 8 = n / 8 by omega]; rfl
      · rw [if_neg (h8' hz), hsr hz, show (n + 1) % 8 = n % 8 + 1 by omega, show (n + 1) / 8 = n / 8 by omega]; rfl

/-- A completion step leaves an idle block. -/
theorem completeEncode_idle {s : State} : (completeEncode s).status.busy = false := by
  unfold completeEncode; split <;> rfl
theorem completeDecode_idle {s : State} : (completeDecode s).status.busy = false := by
  unfold completeDecode; split <;> rfl

/-- The beats of ENCODE add up to its completion step. -/
theorem encodeBeats_complete {s : State} (hs : s.status = Status.started .encode) (hw : s.work = Work.started)
    (hp : s.pix.wf) {n : Nat} (hn : 1 + requiredBits s.l ≤ n) : engineSteps .beat n s = completeEncode s := by
  have hr : s.Running .encode := by unfold State.Running; rw [hs]; exact ⟨rfl, rfl⟩
  have h0 : s.work.cursor = 0 := by rw [hw]; rfl
  by_cases hf : s.overfull
  · refine engineSteps_of_le (m := 1) ?_ completeEncode_idle (by omega)
    show engineStep .beat s = _
    rw [engineStep_encodeBeat hr, encodeBeat_of_overfull hf, completeEncode_of_overfull hf]
  · refine engineSteps_of_le (m := requiredBits s.l + 1) ?_ completeEncode_idle (by omega)
    obtain ⟨he, -⟩ := encodeBeats hs hw hf (requiredBits s.l) (Nat.le_refl _)
    rw [engineSteps_succ]
    generalize engineSteps .beat (requiredBits s.l) s = u at *
    rw [engineStep_encodeBeat (he.running hr), encodeBeat_of_done, emitted_all hp h0 hf he]
    · show ¬ requiredBits u.l > capacity u.n; rw [he.l, he.n]; exact hf
    · rw [he.l, he.cursor]; omega

theorem run_complete {s : State} (rest : List Move) : core.run 1 (s.within (.engine .complete :: rest)) = .next
    ((engineStep .complete s).within rest) := run_engine .complete 1 s rest

/-! ### The symbols of ENCODE -/

theorem engineStep_emit {s : State} (hr : s.Running .encode) (hnb : s.work.nb = 0) {i : Instr}
    (hi : encodeSymbol s = some i) : engineStep .symbol s = emitBytes (symbolBytes i) s := by
  unfold engineStep; rw [hr.1, hr.2]
  simp only [if_true, if_pos hnb, hi]

/-- A symbol emitted when `n` bits of the frame are out. -/
theorem emit_more {s u : State} {n : Nat} (h0 : s.work.cursor = 0) (hfit : ¬ s.overfull)
    (he : Emitted s s.frameBit n u) (bytes : List Byte)
    (hb : ∀ i < 8 * bytes.length, n + i < requiredBits s.l → s.frameBit (n + i) = (serialize bytes).getD i false)
    (hn : n ≤ requiredBits s.l) :
    ∃ v, Emitted s s.frameBit (min (n + 8 * bytes.length) (requiredBits s.l)) v ∧
    emitBytes bytes u = if n + 8 * bytes.length < requiredBits s.l then v else finish .ok v := by
  have hfu : ¬ u.overfull := by show ¬ requiredBits u.l > capacity u.n; rw [he.l, he.n]; exact hfit
  have h := (Emitted.foldl_emitByte bytes he (by omega) (by rw [h0, Nat.zero_add]; exact hb)).1
  rw [h0, Nat.sub_zero] at h
  refine ⟨_, h, ?_⟩
  unfold emitBytes
  rw [if_neg hfu]
  dsimp only
  rw [h.l, h.cursor, h0]
  by_cases hlt : n + 8 * bytes.length < requiredBits s.l
  · rw [if_pos hlt, if_pos (by omega)]
  · rw [if_neg hlt, if_neg (by omega)]

theorem frameBit_byte (s : State) (j i : Nat) (hi : i < 8) : s.frameBit (8 * j + i) =
    (serialize [s.frameByte j]).getD i false := by
  rw [serialize_getD (by simp; omega), Nat.div_eq_of_lt hi, Nat.mod_eq_of_lt hi]
  unfold State.frameBit
  rw [show (8 * j + i) / 8 = j by omega, show (8 * j + i) % 8 = i by omega]; rfl

theorem frameBit_magic (s : State) (i : Nat) (hi : i < 40) : s.frameBit i = (serialize magic).getD i false := by
  rw [serialize_getD (by simp; omega)]
  unfold State.frameBit State.frameByte
  rw [if_pos (by omega)]; rfl

/-- The header and the first `j` message bytes of ENCODE, one symbol each. -/
theorem encodeSymbols {s : State} (hs : s.status = Status.started .encode) (hw : s.work = Work.started)
    (hfit : ¬ s.overfull) (j : Nat) (hj : j ≤ s.l) :
    Emitted s s.frameBit (8 * (5 + j)) (engineSteps .symbol (1 + j) s) := by
  have hr : s.Running .encode := by unfold State.Running; rw [hs]; exact ⟨rfl, rfl⟩
  have h0 : s.work.cursor = 0 := by rw [hw]; rfl
  have hB : requiredBits s.l = 8 * (5 + s.l + 1) := rfl
  induction j with
  | zero =>
    show Emitted _ _ _ (engineStep .symbol s)
    have hi : encodeSymbol s = some .magic := by
      unfold encodeSymbol; dsimp only; rw [if_pos (by rw [hw]; rfl)]
    rw [engineStep_emit hr (by rw [hw]; rfl) hi]
    obtain ⟨v, hv, e⟩ := emit_more h0 hfit (Emitted.refl s _) magic (by
      intro i hi _; rw [Nat.zero_add]; exact frameBit_magic s i (by rw [magic_length] at hi; omega)) (Nat.zero_le _)
    rw [magic_length] at hv e
    rw [show symbolBytes .magic = magic from rfl, e, if_pos (by omega)]
    rw [show min (0 + 8 * 5) (requiredBits s.l) = 8 * (5 + 0) by omega] at hv
    exact hv
  | succ j ih =>
    have he := ih (by omega)
    rw [show 1 + (j + 1) = (1 + j) + 1 by omega, engineSteps_succ]
    generalize engineSteps .symbol (1 + j) s = u at *
    obtain ⟨-, h8, -⟩ := nextBit_of hw he (fun h => by omega)
    obtain ⟨hnb, hbi⟩ := h8 (by omega)
    have hbi : u.work.bi = 5 + j := by rw [hbi]; omega
    have hfb : u.frameByte (5 + j) = s.frameByte (5 + j) := by rw [he.frame]; rfl
    have hi : encodeSymbol u = some (.data (s.frameByte (5 + j))) := by
      unfold encodeSymbol; dsimp only
      rw [if_neg (by omega), hbi, he.l, if_pos (by omega), hfb]
    rw [engineStep_emit (he.running hr) hnb hi]
    obtain ⟨v, hv, e⟩ := emit_more h0 hfit he [s.frameByte (5 + j)] (fun i hi _ => frameBit_byte s _ _
        (by simpa using hi)) (by omega)
    rw [List.length_singleton] at hv e
    rw [show symbolBytes (.data (s.frameByte (5 + j))) = [s.frameByte (5 + j)] from rfl, e, if_pos (by omega)]
    rw [show min (8 * (5 + j) + 8 * 1) (requiredBits s.l) = 8 * (5 + (j + 1)) by omega] at hv
    exact hv

/-- The symbols of ENCODE add up to its completion step. -/
theorem encodeSymbols_complete {s : State} (hs : s.status = Status.started .encode) (hw : s.work = Work.started)
    (hp : s.pix.wf) {n : Nat} (hn : s.l + 2 ≤ n) :
    engineSteps .symbol n s = completeEncode s := by
  have hr : s.Running .encode := by unfold State.Running; rw [hs]; exact ⟨rfl, rfl⟩
  have h0 : s.work.cursor = 0 := by rw [hw]; rfl
  have hB : requiredBits s.l = 8 * (5 + s.l + 1) := rfl
  by_cases hf : s.overfull
  · refine engineSteps_of_le (m := 1) ?_ completeEncode_idle (by omega)
    show engineStep .symbol s = _
    have hi : encodeSymbol s = some .magic := by
      unfold encodeSymbol; dsimp only; rw [if_pos (by rw [hw]; rfl)]
    rw [engineStep_emit hr (by rw [hw]; rfl) hi, emitBytes_of_overfull hf, completeEncode_of_overfull hf]
  · refine engineSteps_of_le (m := 1 + s.l + 1) ?_ completeEncode_idle (by omega)
    have he := encodeSymbols hs hw hf s.l (Nat.le_refl _)
    rw [engineSteps_succ]
    generalize engineSteps .symbol (1 + s.l) s = u at *
    obtain ⟨-, h8, -⟩ := nextBit_of hw he (fun h => by omega)
    obtain ⟨hnb, hbi⟩ := h8 (by omega)
    have hbi : u.work.bi = 5 + s.l := by rw [hbi]; omega
    have hfb : s.frameByte (5 + s.l) = terminator := by
      unfold State.frameByte; rw [if_neg (by omega), if_neg (by omega)]
    have hi : encodeSymbol u = some .term := by
      unfold encodeSymbol; dsimp only
      rw [if_neg (by omega), hbi, he.l, if_neg (by omega), if_pos rfl]
    rw [engineStep_emit (he.running hr) hnb hi]
    obtain ⟨v, hv, e⟩ := emit_more h0 hf he [terminator] (fun i hi _ => by
      rw [← hfb]; exact frameBit_byte s _ _ (by simpa using hi)) (by omega)
    rw [List.length_singleton] at hv e
    rw [show symbolBytes .term = [terminator] from rfl, e, if_neg (by omega)]
    rw [show min (8 * (5 + s.l) + 8 * 1) (requiredBits s.l) = requiredBits s.l by omega] at hv
    exact emitted_all hp h0 hf hv

/-! ### The beats and the symbols of DECODE -/

/-- At most eight beats of a DECODE from a byte boundary, none past the end of the buffer. -/
theorem engineSteps_beats {u : State} (hru : u.Running .decode) (hnb : u.work.nb = 0) {i : Nat} (hi : i ≤ 8)
    (hc : u.work.cursor + i ≤ 3 * u.n) : engineSteps .beat i u = decodeBeats i u := by
  induction i with
  | zero => rfl
  | succ i ih =>
    have e := decodeBeats_lt_eight hnb (i := i) (by omega) (by omega)
    have hr : (decodeBeats i u).Running .decode := by rw [e]; exact hru
    rw [engineSteps_succ, ih (by omega) (by omega), engineStep_decodeBeat hr]; rfl

/-- A DECODE that has taken in the first `j` bytes of its stream, none of them zero. -/
theorem taken_stream {s : State} (hs : s.status = Status.started .decode) (hw : s.work = Work.started) {j : Nat}
    (hj : j ≤ wholeBytes s.n) (hz : ∀ x ∈ s.streamBytes.take j, x ≠ terminator) :
    ∃ u, afterBytes s (s.streamBytes.take j) = u ∧ Taken s (s.streamBytes.take j) u ∧ u.Running .decode ∧
      u.n = s.n ∧ u.pix = s.pix ∧ u.work.cursor = 8 * j ∧ u.work.nb = 0 ∧ u.work.bi = j := by
  have hlen : (s.streamBytes.take j).length = j := by rw [List.length_take, streamBytes_length]; omega
  have ht := taken_afterBytes (s := s) (by rw [hw]; rfl) _ hz
  have hr : s.Running .decode := by unfold State.Running; rw [hs]; exact ⟨rfl, rfl⟩
  generalize afterBytes s (s.streamBytes.take j) = u at ht
  refine ⟨u, rfl, ht, by rw [ht.frame]; exact hr, by rw [ht.frame]; rfl, by rw [ht.frame], ?_, ?_, ?_⟩
  · rw [ht.cursor, hw, hlen]; exact Nat.zero_add _
  · rw [ht.nb, hw]; rfl
  · rw [ht.bi, hlen]

/-- The first `8j` beats of DECODE take in the first `j` bytes, while none is zero and slots are left. -/
theorem takenBeats {s : State} (hs : s.status = Status.started .decode) (hw : s.work = Work.started) (j : Nat)
    (hj : 8 * j < 3 * s.n ∨ j = 0) (hz : ∀ x ∈ s.streamBytes.take j, x ≠ terminator) :
    engineSteps .beat (8 * j) s = afterBytes s (s.streamBytes.take j) := by
  have hM := wholeBytes_mul s.n
  induction j with
  | zero => rfl
  | succ j ih =>
    have hjM : j < wholeBytes s.n := by unfold wholeBytes; omega
    have hsucc : s.streamBytes.take (j + 1) = s.streamBytes.take j ++ [byteAt s.pix (8 * j)] := by
      rw [List.take_add_one, streamBytes_getElem?, if_pos hjM]; rfl
    rw [hsucc] at hz ⊢
    have hz' : ∀ x ∈ s.streamBytes.take j, x ≠ terminator := fun x hx => hz x (List.mem_append_left _ hx)
    rw [show 8 * (j + 1) = 8 * j + 8 by omega, engineSteps_add, ih (by omega) hz', afterBytes_snoc]
    obtain ⟨u, e, -, hru, hun, hup, hcu, hnbu, -⟩ := taken_stream hs hw (by omega) hz'
    rw [e, engineSteps_beats hru hnbu (Nat.le_refl 8) (by omega), decodeBeats_eight hnbu (by omega) (.inl (by omega)),
      hcu, hup]

/-- Where the first zero byte of the stream stands, if there is one. -/
theorem stream_split (s : State) : (∀ x ∈ s.streamBytes, x ≠ terminator) ∨ ∃ t, t < wholeBytes s.n ∧
    (∀ x ∈ s.streamBytes.take t, x ≠ terminator) ∧ byteAt s.pix (8 * t) = terminator := by
  by_cases h : ∃ t, t < wholeBytes s.n ∧ byteAt s.pix (8 * t) = terminator
  · right
    classical
    have h1 := Nat.find_spec h
    refine ⟨Nat.find h, h1.1, fun x hx hxt => ?_, h1.2⟩
    obtain ⟨j, hj, hjx⟩ := List.mem_iff_getElem.1 hx
    rw [List.length_take, streamBytes_length] at hj
    refine Nat.find_min h (m := j) (by omega) ⟨by omega, ?_⟩
    have := streamBytes_getElem? s j
    rw [if_pos (by omega), List.getElem?_eq_getElem (by rw [streamBytes_length]; omega)] at this
    rw [List.getElem_take] at hjx
    rw [← Option.some.inj this, hjx, hxt]
  · left
    intro x hx hxt
    obtain ⟨j, hj, hjx⟩ := List.mem_iff_getElem.1 hx
    rw [streamBytes_length] at hj
    have := streamBytes_getElem? s j
    rw [if_pos (by omega), List.getElem?_eq_getElem (by rw [streamBytes_length]; omega)] at this
    exact h ⟨j, hj, by rw [← Option.some.inj this, hjx, hxt]⟩

theorem parse_split {s : State} {t : Nat} (ht : t < wholeBytes s.n)
    (hz : ∀ x ∈ s.streamBytes.take t, x ≠ terminator) (h0 : byteAt s.pix (8 * t) = terminator) :
    parseFrame s.streamBytes = if magic.isPrefixOf (s.streamBytes.take t) then some
    ((s.streamBytes.take t).drop 5) else none := by
  refine parseFrame_at (by rw [streamBytes_length]; exact ht) (by rw [streamBytes_getElem?, if_pos ht,
      h0]) fun j hj h => ?_
  have : terminator ∈ s.streamBytes.take t := by
    rw [List.mem_iff_getElem?]
    exact ⟨j, by rw [List.getElem?_take, if_pos hj, h]⟩
  exact hz _ this rfl

/-- A DECODE that takes in the first zero byte ends as the completion step does. -/
theorem taken_zero {s u : State} (hw : s.work = Work.started) {t : Nat} (ht : t < wholeBytes s.n)
    (hz : ∀ x ∈ s.streamBytes.take t, x ≠ terminator) (h0 : byteAt s.pix (8 * t) = terminator)
    (h : Taken s (s.streamBytes.take t) u) : takeByte u terminator = completeDecode s := by
  have hlen : (s.streamBytes.take t).length = t := by rw [List.length_take, streamBytes_length]; omega
  rw [takeByte_zero, h.bi, hlen]
  have hp := parse_split ht hz h0
  have hhok : u.work.hok = true ↔ ∀ i < 5, i < t → (s.streamBytes.take t).getD i 0 = magicByte i := by
    rw [h.hok, hlen, hw]; simp [Work.started]
  have hm : (5 ≤ t ∧ u.work.hok = true) ↔ magic.isPrefixOf (s.streamBytes.take t) = true := by
    rw [List.isPrefixOf_iff_prefix, List.prefix_iff_getElem?, hhok]
    constructor
    · rintro ⟨h5, hh⟩ i hi
      have hi5 : i < 5 := by simpa using hi
      have := hh i hi5 (by omega)
      rw [List.getD_eq_getElem?_getD, List.getElem?_eq_getElem (by omega)] at this
      rw [List.getElem?_eq_getElem (by omega)]
      have h2 := magic_getElem? hi5
      rw [List.getElem?_eq_getElem hi] at h2
      rw [Option.some.inj h2, ← this]; rfl
    · intro hh
      have h5 : 5 ≤ t := by
        have := hh 4 (by decide)
        have := (List.getElem?_eq_some_iff.1 this).1
        omega
      refine ⟨h5, fun i hi hit => ?_⟩
      have := hh i (by simpa using hi)
      rw [List.getD_eq_getElem?_getD, this]
      have h2 := magic_getElem? hi
      rw [List.getElem?_eq_getElem (by simpa using hi)] at h2
      exact Option.some.inj h2
  have hframe := h.frame
  have hout := h.out
  by_cases hmt : magic.isPrefixOf (s.streamBytes.take t) = true
  · rw [if_pos (hm.2 hmt)]
    rw [if_pos hmt] at hp
    rw [completeDecode_of_some hp]
    have hl : ((s.streamBytes.take t).drop 5).length = t - 5 := by rw [List.length_drop, hlen]
    have hb := payload_length hp
    rw [List.take_of_length_le hb] at hout
    rw [hl]
    rw [hframe, hout]; rfl
  · rw [if_neg (mt hm.1 hmt)]
    rw [if_neg hmt] at hp
    rw [completeDecode_of_none hp, hframe]
    unfold finishDecode; rw [below_zero, below_zero]; rfl

/-- While slots are left and none of the whole bytes taken in is zero, the command runs on. -/
theorem decodeBeats_running {s : State} (hs : s.status = Status.started .decode) (hw : s.work = Work.started) {n : Nat}
    (hn : n < 3 * s.n ∨ n = 0) (hz : ∀ x ∈ s.streamBytes.take (n / 8), x ≠ terminator) :
    (engineSteps .beat n s).Running .decode := by
  obtain ⟨u, e, -, hru, hun, -, hcu, hnbu, -⟩ := taken_stream hs hw (by unfold wholeBytes; omega) hz
  have hn' : engineSteps .beat n s = engineSteps .beat (8 * (n / 8) + n % 8) s := by congr 1; omega
  rw [hn', engineSteps_add, takenBeats hs hw (n / 8) (by omega) hz, e, engineSteps_beats hru hnbu (by omega) (by omega),
    decodeBeats_lt_eight hnbu (by omega) (by omega)]
  exact hru

/-- A DECODE whose stream holds no zero byte ends with its last slot; a buffer of no pixels ends at once. -/
theorem decodeBeats_exhausted {s : State} (hs : s.status = Status.started .decode) (hw : s.work = Work.started)
    (hz : ∀ x ∈ s.streamBytes, x ≠ terminator) :
    engineSteps .beat (max (3 * s.n) 1) s = finishDecode .notFound 0 s := by
  have hr : s.Running .decode := by unfold State.Running; rw [hs]; exact ⟨rfl, rfl⟩
  rcases Nat.eq_zero_or_pos s.n with h0 | hpos
  · rw [show max (3 * s.n) 1 = 0 + 1 by omega, engineSteps_succ, show engineSteps .beat 0 s = s from rfl,
      engineStep_decodeBeat hr, decodeBeat_of_exhausted (by omega)]
  · obtain ⟨j, r, hr8, hjr⟩ : ∃ j r, r < 8 ∧ 8 * j + r + 1 = 3 * s.n :=
      ⟨(3 * s.n - 1) / 8, (3 * s.n - 1) % 8, by omega, by omega⟩
    have hj : j ≤ wholeBytes s.n := by unfold wholeBytes; omega
    have hz' : ∀ x ∈ s.streamBytes.take j, x ≠ terminator := fun x hx => hz x (List.mem_of_mem_take hx)
    obtain ⟨u, e, ht, hru, hun, hup, hcu, hnbu, -⟩ := taken_stream hs hw hj hz'
    rw [show max (3 * s.n) 1 = 8 * j + r + 1 by omega, engineSteps_succ, engineSteps_add,
      takenBeats hs hw j (by omega) hz', e, engineSteps_beats hru hnbu (by omega) (by omega),
      decodeBeats_lt_eight hnbu hr8 (by omega), engineStep_decodeBeat (by exact hru),
      decodeBeat_of_last hru.1 (by rw [shifted_cursor]; omega)]
    · unfold finishDecode; rw [below_zero, below_zero, ht.frame]; rfl
    · intro h7
      have hr7 : r = 7 := by
        have : BitVec.ofNat 3 r = 7 := h7
        interval_cases r <;> first | rfl | exact absurd this (by decide)
      subst hr7
      rw [shifted_succ, shifted_eight u.pix hnbu, hcu, hup]
      refine hz _ (List.mem_of_getElem? (i := j) ?_)
      rw [streamBytes_getElem?, if_pos (by unfold wholeBytes; omega)]

/-- The beats of DECODE with a zero byte at byte `t` of its stream, the first one. -/
theorem decodeBeats_zero {s : State} (hs : s.status = Status.started .decode) (hw : s.work = Work.started) {t : Nat}
    (ht : t < wholeBytes s.n) (hz : ∀ x ∈ s.streamBytes.take t, x ≠ terminator)
    (h0 : byteAt s.pix (8 * t) = terminator) : engineSteps .beat (8 * t + 8) s = completeDecode s := by
  have h8 : 8 * t + 8 ≤ 3 * s.n := by unfold wholeBytes at ht; omega
  obtain ⟨u, e, hu, hru, hun, hup, hcu, hnbu, -⟩ := taken_stream hs hw (Nat.le_of_lt ht) hz
  rw [engineSteps_add, takenBeats hs hw t (by omega) hz, e, engineSteps_beats hru hnbu (Nat.le_refl 8) (by omega),
    decodeBeats_eight hnbu (by omega) (.inr (by rw [hcu, hup]; exact h0)), hcu, hup, h0]
  exact taken_zero hw ht hz h0 hu

/-- The beats of DECODE add up to its completion step. -/
theorem decodeBeats_complete {s : State} (hs : s.status = Status.started .decode) (hw : s.work = Work.started)
    {n : Nat} (hn : 3 * s.n ≤ n) (h1 : 1 ≤ n) : engineSteps .beat n s = completeDecode s := by
  rcases stream_split s with hz | ⟨t, ht, hz, h0⟩
  · rw [completeDecode_of_none (parseFrame_of_no_terminator hz)]
    exact engineSteps_of_le (decodeBeats_exhausted hs hw hz) rfl (by omega)
  · exact engineSteps_of_le (decodeBeats_zero hs hw ht hz h0) completeDecode_idle
      (by unfold wholeBytes at ht; omega)

theorem engineStep_take {s : State} (hr : s.Running .decode) (hnb : s.work.nb = 0) {i : Instr} {r : List Bool}
    (hi : decodeSymbol s = .instr i r) : engineStep .symbol s = takeBytes (symbolBytes i) s := by
  unfold engineStep; rw [hr.1, hr.2]
  simp only [if_true, if_pos hnb, hi]

theorem engineStep_tail {s : State} (hr : s.Running .decode) (hnb : s.work.nb = 0)
    (hi : decodeSymbol s = .rejected .partialByte) : engineStep .symbol s = finishDecode .notFound 0 s := by
  unfold engineStep; rw [hr.1, hr.2]
  simp only [if_true, if_pos hnb, hi]

/-- The symbols of DECODE from a byte boundary on add up to the completion step. -/
theorem symbolsFrom {s : State} (hs : s.status = Status.started .decode) (hw : s.work = Work.started) (r : Nat) : ∀
    (j : Nat), wholeBytes s.n - j = r → j ≤ wholeBytes s.n →
    (∀ x ∈ s.streamBytes.take j, x ≠ terminator) → ∀ m, r + 1 ≤ m → engineSteps .symbol m
    (afterBytes s (s.streamBytes.take j)) = completeDecode s := by
  have hM := wholeBytes_mul s.n
  induction r using Nat.strong_induction_on with
  | _ r ih =>
    intro j hjr hj hz m hm
    obtain ⟨m, rfl⟩ : ∃ k, m = k + 1 := ⟨m - 1, by omega⟩
    obtain ⟨u, hu, ht, hru, hun, hup, hcu, hnbu, hbu⟩ := taken_stream hs hw hj hz
    rw [hu]
    rw [engineSteps]
    by_cases hlt : j < wholeBytes s.n
    · have h8 : 8 * j + 8 ≤ 3 * s.n := by unfold wholeBytes at hlt; omega
      have hahead : u.streamAhead = byteBits (byteAt s.pix (8 * j)) ++ extract s.pix (8 * j + 8) (min 40
          (3 * s.n - 8 * j) - 8) := by
        unfold State.streamAhead
        rw [hcu, hun, hup, show min 40 (3 * s.n - 8 * j) = 8 + (min 40 (3 * s.n - 8 * j) - 8) by omega,
            extract_append, extract_eight]
        congr 2
        omega
      have hdec : decodeSymbol u = decodeStream (u.work.bi = 0) u.streamAhead := rfl
      by_cases hmag : (decide (u.work.bi = 0) && (serialize magic).isPrefixOf u.streamAhead) = true
      · have hd : decodeSymbol u = .instr .magic (u.streamAhead.drop 40) := by
          rw [hdec]; unfold decodeStream; rw [if_pos hmag]
        rw [Bool.and_eq_true, decide_eq_true_iff, List.isPrefixOf_iff_prefix] at hmag
        have hj0 : j = 0 := by rw [← hbu, hmag.1]
        subst hj0
        have hl40 : 40 ≤ 3 * s.n := by
          have := hmag.2.length_le
          unfold State.streamAhead at this
          rw [extract_length, hcu, hun, serialize_length, magic_length] at this
          omega
        have hM5 : 5 ≤ wholeBytes s.n := by unfold wholeBytes; omega
        have htake : s.streamBytes.take 5 = magic := by
          have h1 : u.streamAhead = serialize magic := by
            refine (hmag.2.eq_of_length ?_).symm
            unfold State.streamAhead
            rw [extract_length, hcu, hun, serialize_length, magic_length]; omega
          unfold State.streamAhead at h1
          rw [hcu, hun, hup, show min 40 (3 * s.n - 8 * 0) = 40 by omega] at h1
          rw [streamBytes_eq, show 8 * wholeBytes s.n = 40 + (8 * wholeBytes s.n - 40) by omega, extract_append,
              show extract s.pix 0 40 = serialize magic from h1, bytesOf_serialize_append]
          exact List.take_left' (by rfl)
        rw [engineStep_take hru hnbu hd, show symbolBytes .magic = magic from rfl,
            takeBytes_nonzero hru.1 magic_nonzero]
        have hus : u = s := by rw [← hu]; rfl
        rw [hus, ← htake]
        refine ih (wholeBytes s.n - 5) (by omega) 5 rfl hM5 (by rw [htake]; exact magic_nonzero) m (by omega)
      · have hd : decodeSymbol u = if byteAt s.pix (8 * j) = terminator then .instr .term (extract s.pix
            (8 * j + 8) (min 40 (3 * s.n - 8 * j) - 8)) else .instr (.data (byteAt s.pix (8 * j))) (extract s.pix
            (8 * j + 8) (min 40 (3 * s.n - 8 * j) - 8)) := by
          rw [hdec, hahead]
          apply decodeStream_byteBits
          rw [← hahead]; exact Bool.eq_false_iff.2 hmag
        by_cases h0 : byteAt s.pix (8 * j) = terminator
        · rw [if_pos h0] at hd
          rw [engineStep_take hru hnbu hd, show symbolBytes .term = [terminator] from rfl,
              takeBytes_singleton hru.1, taken_zero hw hlt hz h0 ht]
          exact engineSteps_idle completeDecode_idle _ _
        · rw [if_neg h0] at hd
          rw [engineStep_take hru hnbu hd, show symbolBytes (.data (byteAt s.pix (8 * j))) = [byteAt s.pix
              (8 * j)] from rfl, takeBytes_singleton hru.1, ← hu, ← afterBytes_snoc]
          have hsucc : s.streamBytes.take (j + 1) = s.streamBytes.take j ++ [byteAt s.pix (8 * j)] := by
            rw [List.take_add_one, streamBytes_getElem?, if_pos (by omega)]; rfl
          rw [← hsucc]
          refine ih (wholeBytes s.n - (j + 1)) (by omega) (j + 1) rfl (by omega) ?_ m (by omega)
          rw [hsucc]
          intro x hx
          rcases List.mem_append.1 hx with hx | hx
          · exact hz x hx
          · rw [List.mem_singleton.1 hx]; exact h0
    · have hjM : j = wholeBytes s.n := by omega
      have hd : decodeSymbol u = .rejected .partialByte := by
        cases hh : decodeSymbol u with
        | rejected r => cases r; rfl
        | instr i rest =>
          have := congrArg List.length (decodeStream_instr hh).1
          unfold State.streamAhead at this
          rw [extract_length, List.length_append, serialize_length, hcu, hun] at this
          have hsb : 1 ≤ (symbolBytes i).length := by
            rcases (decodeStream_instr hh).2 with ⟨rfl, -⟩ | ⟨d, rfl, -⟩ | rfl
            · decide
            · exact Nat.le_refl 1
            · decide
          unfold wholeBytes at hjM; omega
      rw [engineStep_tail hru hnbu hd]
      have htake : s.streamBytes.take j = s.streamBytes := List.take_of_length_le (by rw [streamBytes_length]; omega)
      rw [htake] at hz
      rw [engineSteps_idle rfl, completeDecode_of_none (parseFrame_of_no_terminator hz)]
      have hframe := ht.frame
      unfold finishDecode; rw [below_zero, below_zero, hframe]; rfl

end Sys2Proof.Machine
end

