-- ==== Sys2Proof/Tests/Slice0.lean ====
section
/-! SUPPORT. Tests of one step each, with results from the spec's tables and vectors (95_test_vectors.md), and for every
statement a witness of its hypotheses. -/

namespace Sys2Proof.Tests

open Sys2Proof Sys2Proof.Machine

/-! ### Small states -/

/-- An idle block with room for 40 pixels, 8 code points and 9 output bytes. -/
def idle : State := { State.reset with params := Params.sized 40 8 }

/-- The idle block with one move to come. -/
def about (m : Move) : State := { idle with inputs := [m] }

/-- The block right after a START. -/
def running (op : Op) (n l : Nat) : State :=
  { idle with npix := n, mlen := l, status := Status.started op, work := Work.started }

/-- A buffer whose slots from 0 on hold the bits of the bytes, every other bit of those samples 0. -/
def buffer (bytes : List Byte) : Memory Byte := placeBits [] 0 (serialize bytes)

/-- A DECODE about to complete over the buffer of a stream. -/
def decoding (n : Nat) (bytes : List Byte) : State := { running .decode n 0 with pix := buffer bytes }

/-- What is seen of an outcome. -/
def seen {α : Type} (f : State → α) : Host.Outcome State Fault Refusal → Option α
  | .next s => some (f s)
  | .fault _ => none
  | .refused _ => none

/-- The samples of a buffer from `a` on. -/
def samples (a n : Nat) (s : State) : List Byte := (List.range' a n).map s.pixel

/-- `STATUS`, `OLEN` and the decoded message. -/
def decoded (s : State) : Nat × Nat × List Byte := (s.status.word, s.olen, s.decodedBytes)

/-! ### Well-formed terms -/

/-- The one check of WellFormed refuses a zero `DATA` byte (opcode table, row DATA). -/
theorem test_wf_refuses_zero_data : Instr.wf (.data 0x00) = false := by decide

theorem test_wf_accepts_the_rest :
    Instr.wf .encode = true ∧ Instr.wf .decode = true ∧ Instr.wf .nop = true ∧ Instr.wf .magic = true ∧
    Instr.wf (.data 0x01) = true ∧ Instr.wf .term = true := by decide

/-! ### Words written out from the encodings of the spec -/

/-- Rule R54: `c[1:0] = 0b11`. -/
theorem test_word_encode : decode (.ctrl 0b00000000000000000000000000000011) = .instr .encode [] := by decide

/-- Rule R54: `c[1:0] = 0b01`; the reserved bits are ignored (P9, step 6). -/
theorem test_word_decode :
    decode (.ctrl 0b00000000000000000000000000000001) = .instr .decode [] ∧
    decode (.ctrl 0b11111111111111111111111111111101) = .instr .decode [] := by decide

/-- Rule R54: `c[0] = 0`, both values of `c[1]`. -/
theorem test_word_nop :
    decode (.ctrl 0b00000000000000000000000000000000) = .instr .nop [] ∧
    decode (.ctrl 0b00000000000000000000000000000010) = .instr .nop [] := by decide

/-- Rule R47, the 40 bits in stream order: `01010011 01010100 01000101 01000111 01001111`. -/
theorem test_word_magic :
    decode (.stream true
      [false, true, false, true, false, false, true, true, false, true, false, true, false, true, false, false,
       false, true, false, false, false, true, false, true, false, true, false, false, false, true, true, true,
       false, true, false, false, true, true, true, true]) = .instr .magic [] := by decide

/-- T1, `0x68` is `01101000` and `0x41` is `01000001`; a lower-case header byte is data (T8 row 3). -/
theorem test_word_data :
    decode (.stream false [false, true, true, false, true, false, false, false]) = .instr (.data 0x68) [] ∧
    decode (.stream false [false, true, false, false, false, false, false, true]) = .instr (.data 0x41) [] ∧
    decode (.stream true [false, true, true, true, false, false, true, true]) = .instr (.data 0x73) [] := by decide

/-- Rule R48 and S10: `00000000`, at a byte boundary. -/
theorem test_word_term :
    decode (.stream false [false, false, false, false, false, false, false, false]) = .instr .term [] ∧
    decode (.stream true [false, false, false, false, false, false, false, false]) = .instr .term [] := by decide

/-- Rule R89: a tail of fewer than 8 bits is no symbol, even if all are 0 (T8 row 8). -/
theorem test_word_tail : decode (.stream false [false, false, false]) = .rejected .partialByte := by decide

/-- The rows of the opcode table by their words. -/
theorem test_table_words :
    decodeTableWord 32 0x3 = some .encode ∧ decodeTableWord 32 0x1 = some .decode ∧
    decodeTableWord 32 0x0 = some .nop ∧ decodeTableWord 8 0x3 = some .encode ∧
    decodeTableWord 40 0x4F47455453 = some .magic ∧ decodeTableWord 8 0x68 = some (.data 0x68) ∧
    decodeTableWord 8 0x00 = some .term := by decide

/-! ### Serializer, multiplexer, cursor -/

/-- T1: zero-extended on the left, truncated to the low byte. -/
theorem test_t2b :
    (t2b [0x01]).val = [false, false, false, false, false, false, false, true] ∧
    (t2b [0x141]).val = [false, true, false, false, false, false, false, true] ∧
    (t2b [0x80]).val = [true, false, false, false, false, false, false, false] := by decide

/-- T2: `01101000 01101001` is `68 69`; the result is unsigned. -/
theorem test_b2t :
    b2t ⟨[false, true, true, false, true, false, false, false, false, true, true, false, true, false, false, true], rfl⟩
      = [0x68, 0x69] ∧
    b2t ⟨[true, true, true, true, true, true, true, true], rfl⟩ = [0xFF] := by decide

/-- T5. -/
theorem test_slot : [0, 3, 8, 9, 11, 47, 63, 71, 89].map slot = [0, 4, 10, 12, 14, 62, 84, 94, 118] := by decide

/-- T5: the cursor steps over the alpha channel. -/
theorem test_cursor :
    (List.range 7).map (fun n => ((Work.started.advanceBy n).p, (Work.started.advanceBy n).ch)) =
      [(0, 0), (0, 1), (0, 2), (1, 0), (1, 1), (1, 2), (2, 0)] := by decide

/-- T6. -/
theorem test_lsb :
    withLsb 0x12 true = 0x13 ∧ withLsb 0xA7 false = 0xA6 ∧ withLsb 0x80 true = 0x81 ∧ lsb 0xA7 = true ∧
    lsb 0xFE = false := by decide

/-- T3: the frame of `"hi"`. -/
theorem test_frame : frameBytes [0x68, 0x69] = [0x53, 0x54, 0x45, 0x47, 0x4F, 0x68, 0x69, 0x00] := by decide

/-! ### One step of each instruction -/

/-- P9, step 12: `WR CTRL, 3` gives `STATUS = 0x11`. -/
theorem test_encode_starts : seen (·.status.word) (step (about (.host (.wrReg .ctrl 3)))) = some 0x11 := by decide

/-- P4, pixel 0, 1 and 15, 16 of 17 pixels `A0 B1 C2 40`: the empty message (`B = 48`), the alpha of the span. -/
theorem test_encode_completes :
    seen (fun s => (s.status.word, samples 0 8 s, samples 60 8 s))
      (step { running .encode 17 0 with
        pix := (List.range 68).map fun a => (a, [0xA0#8, 0xB1#8, 0xC2#8, 0x40#8].getD (a % 4) 0) })
    = some (0x12, [0xA0, 0xB1, 0xC2, 0xFF, 0xA1, 0xB0, 0xC2, 0xFF], [0xA0, 0xB0, 0xC2, 0xFF, 0xA0, 0xB1, 0xC2, 0x40]) := by
  decide

/-- T8 row 6: the zero bits across `F0 0F` are not aligned. -/
theorem test_decode_completes :
    seen decoded (step (decoding 22 [0x53, 0x54, 0x45, 0x47, 0x4F, 0xF0, 0x0F, 0x00])) = some (0x02, 2, [0xF0, 0x0F]) := by
  decide

/-- T8 row 4: the first terminator wins, a later frame is not looked for. -/
theorem test_decode_not_found :
    seen decoded (step (decoding 24 [0x58, 0x00, 0x53, 0x54, 0x45, 0x47, 0x4F, 0x41, 0x00])) = some (0x0A, 0, []) := by
  decide

/-- P9, step 3: `WR CTRL, 2` is a `NOP`, `OP` is not latched. -/
theorem test_nop : seen (·.status.word) (step (about (.host (.wrReg .ctrl 2)))) = some 0x00 := by decide

/-- Rule R92: the header leaves `HOK = 1` and `BI = 5`; the cursor has passed 40 slots. -/
theorem test_magic_taken :
    seen (fun s => (s.work.hok, s.work.bi, s.work.cursor)) (exec .magic (running .decode 30 0)) = some (true, 5, 40) := by
  decide

/-- Rule R92: a lower-case `s` clears `HOK`; a byte at `BI = 5` goes to `OUT[0]`. -/
theorem test_data_taken :
    seen (fun s => (s.work.hok, s.work.bi)) (exec (.data 0x73) (running .decode 30 0)) = some (false, 1) ∧
    seen (fun s => s.output 0)
      (exec (.data 0x68) { running .decode 30 0 with work := { Work.started with p := 13, ch := 1, bi := 5 } })
      = some 0x68 := by decide

/-- Rule R92: `OLEN <- BI − 5` after a whole header, `NotFound` before it (T8 row 2). -/
theorem test_term_taken :
    seen (fun s => (s.status.word, s.olen))
      (exec .term { running .decode 30 0 with work := { Work.started with p := 18, ch := 2, bi := 7 } }) = some (0x02, 2) ∧
    seen (fun s => (s.status.word, s.olen))
      (exec .term { running .decode 30 0 with work := { Work.started with p := 10, ch := 2, bi := 4 } }) = some (0x0A, 0) := by
  decide

/-! ### The witnesses: encodings -/

theorem witness_CommandWordSelectsItsRow :
    0xFFFFFFFF &&& 0x3 = 0x3 ∧ 0xFFFFFFFD &&& 0x3 = 0x1 ∧ 0xFFFFFFFE &&& 0x1 = 0x0 := by
  decide

theorem witness_DecodeOfEncodeIsIdentity :
    Instr.wf (.data 0xFF) = true ∧ encode (.data 0xFF) = .stream false (byteBits 0xFF) ∧ Instr.wf .magic = true ∧
    encode .magic = .stream true (serialize magic) := by decide

theorem witness_WholeFrameDecodesToItsSymbols : ∀ d ∈ [0x01#8, 0xFF#8], d ≠ 0#8 := by decide

/-! ### The witnesses: steps and the register port -/

theorem witness_StepRunsTheIssuedCommand :
    (about (.host (.wrReg .ctrl 3))).inputs = .host (.wrReg .ctrl 3) :: [] ∧
    (about (.host (.wrReg .ctrl 3))).status.busy = false ∧
    decode (.ctrl (registerWord (about (.host (.wrReg .ctrl 3))).params 3)) = .instr .encode [] := by decide

theorem witness_StepCarriesOutTheRunningCommand :
    ∀ op : Op, (running op 16 0).status.busy = true ∧ (running op 16 0).status.op = op ∧
      (running op 16 0).inputs = [] ∧
      ({ running op 16 0 with inputs := [.engine .complete] } : State).inputs = .engine .complete :: [] := by
  intro op; cases op <;> decide

/-- A DECODE that stands at a zero byte, one whose buffer of two pixels holds no byte, and an ENCODE of two code points
at its first, sixth, seventh and last frame byte. -/
theorem witness_StepRunsTheNextSymbol :
    (let s := { decoding 3 [0x00] with inputs := [.engine .symbol] }
     s.inputs = .engine .symbol :: [] ∧ s.status.busy = true ∧ s.work.nb = 0 ∧ s.status.op = .decode ∧
       decode (.stream (s.work.bi = 0) s.streamAhead) = .instr .term [s.streamAhead.getD 8 false]) ∧
    (let s := { decoding 2 [0x00] with inputs := [.engine .symbol] }
     s.status.busy = true ∧ s.work.nb = 0 ∧ s.status.op = .decode ∧
       decode (.stream (s.work.bi = 0) s.streamAhead) = .rejected .partialByte) ∧
    (let s := { running .encode 30 2 with inputs := [.engine .symbol] }
     s.status.busy = true ∧ s.work.nb = 0 ∧ s.status.op = .encode ∧ s.work.bi = 0) ∧
    (let s := { running .encode 30 2 with work := { Work.started with bi := 6 } }
     s.status.op = .encode ∧ 0 < s.work.bi ∧ s.work.bi < 5 + s.l) ∧
    (let s := { running .encode 30 2 with work := { Work.started with bi := 7 } }
     s.status.op = .encode ∧ s.work.bi = 5 + s.l) := by
  refine ⟨⟨rfl, rfl, rfl, rfl, ?_⟩, ⟨rfl, rfl, rfl, ?_⟩, ?_, ?_, ?_⟩
  · rfl
  · rfl
  · decide
  · decide
  · decide

/-- A busy block, an idle one with `START = 0`, operands one above a memory, and operands that fill it. -/
theorem witness_CtrlWriteStartsACommand :
    ({ running .encode 16 0 with inputs := [.host (.wrReg .ctrl 3)] } : State).status.busy = true ∧
    (about (.host (.wrReg .ctrl 2))).status.busy = false ∧ (2 : Nat).testBit 0 = false ∧ (3 : Nat).testBit 0 = true ∧
    (let s := { about (.host (.wrReg .ctrl 3)) with npix := 41 }
     s.status.busy = false ∧ s.params.pixcap < s.n) ∧
    (let s := { about (.host (.wrReg .ctrl 3)) with npix := 40, mlen := 9 }
     s.n ≤ s.params.pixcap ∧ (3 : Nat).testBit 1 = true ∧ s.params.mcap < s.l) ∧
    (let s := { about (.host (.wrReg .ctrl 3)) with npix := 40, mlen := 8 }
     s.n ≤ s.params.pixcap ∧ ((3 : Nat).testBit 1 = true → s.l ≤ s.params.mcap)) ∧
    (∀ op : Op, (running op 16 0).status.busy = true ∧ (running op 16 0).status.op = op ∧
      ({ running op 16 0 with inputs := [.engine .complete] } : State).inputs = .engine .complete :: []) := by
  refine ⟨?_, ?_, ?_, ?_, ?_, ?_, ?_, fun op => ?_⟩ <;> first | decide | (cases op <;> decide)

theorem witness_CtrlWriteWithoutStartIsNop :
    (about (.host (.wrReg .ctrl 2))).inputs = .host (.wrReg .ctrl 2) :: [] ∧ (2 : Nat).testBit 0 = false ∧
    (running .decode 16 0).status.busy = true ∧ (0xFFFFFFFD : Nat).testBit 0 = (1 : Nat).testBit 0 ∧
    (0xFFFFFFFD : Nat).testBit 1 = (1 : Nat).testBit 1 := by decide

theorem witness_RegisterWritesWhileBusyAreLost :
    ∀ r ∈ [Reg.npix, .mlen, .ctrl], (r = .npix ∨ r = .mlen ∨ r = .ctrl) ∧
      ({ running .decode 30 0 with inputs := [.host (.wrReg r 5)] } : State).inputs = .host (.wrReg r 5) :: [] ∧
      ({ running .decode 30 0 with inputs := [.host (.wrReg r 5)] } : State).status.busy = true := by decide

/-- Each register read and written; a block of the least `W` that shows all of `STATUS`; the greatest value of `W` bits and
the least that is cut. -/
theorem witness_RegisterPortReadsAndWrites :
    (∀ r ∈ [Reg.ctrl, .npix, .mlen, .status, .olen],
      (about (.host (.rdReg r))).inputs = .host (.rdReg r) :: [] ∧
      (about (.host (.wrReg r 7))).inputs = .host (.wrReg r 7) :: []) ∧ idle.status.busy = false ∧
    5 ≤ ({ idle with params := { idle.params with w := 5 } } : State).params.w ∧
    0xFFFFFFFF < 2 ^ idle.params.w ∧ ¬ 0x100000000 < 2 ^ idle.params.w := by decide

/-- The port of a block with `W = 4` carries 4 bits of a value, and 4 bits of `STATUS` (assumption log 2). -/
theorem test_narrow_port :
    (let q : Params := { Params.sized 5 5 with w := 4 }
     seen (·.npix) (step { about (.host (.wrReg .npix 0x1F)) with params := q }) = some 0xF ∧
     seen (·.reads) (step { running .encode 5 0 with params := q, inputs := [.host (.rdReg .status)] })
       = some [.reg .status 0x1]) := by decide

theorem witness_StatusWordHoldsItsFields : 5 ≤ 5 ∧ 5 ≤ 31 := by decide

/-! ### The witnesses: the host and the memories -/

theorem witness_MemoryAccessWhileBusyIsRefused :
    ∀ m ∈ [HostMove.wrPix 0 1, .rdPix 0, .wrMsg 0 1, .rdMsg 0, .wrOut 0 1, .rdOut 0],
      ({ running .encode 16 0 with inputs := [.host m] } : State).status.busy = true ∧
      ({ running .encode 16 0 with inputs := [.host m] } : State).inputs = .host m :: [] := by decide

/-- The last entry of each memory. -/
theorem witness_HostMemoryWriteSetsOneEntry :
    idle.status.busy = false ∧ 159 < 4 * idle.params.pixcap ∧ 7 < idle.params.mcap ∧ 8 < idle.params.ocap ∧
    (about (.host (.wrPix 159 1))).inputs = .host (.wrPix 159 1) :: [] ∧
    (about (.host (.wrMsg 7 1))).inputs = .host (.wrMsg 7 1) :: [] ∧
    (about (.host (.wrOut 8 1))).inputs = .host (.wrOut 8 1) :: [] := by decide

theorem witness_HostMemoryReadGivesTheEntry :
    idle.status.busy = false ∧ 159 < 4 * idle.params.pixcap ∧ 7 < idle.params.mcap ∧ 8 < idle.params.ocap ∧
    (about (.host (.rdPix 159))).inputs = .host (.rdPix 159) :: [] ∧
    (about (.host (.rdMsg 7))).inputs = .host (.rdMsg 7) :: [] ∧
    (about (.host (.rdOut 8))).inputs = .host (.rdOut 8) :: [] := by decide

/-- The first address above each memory. -/
theorem witness_AbsentEntryFaults :
    idle.status.busy = false ∧ 4 * idle.params.pixcap ≤ 160 ∧ idle.params.mcap ≤ 8 ∧ idle.params.ocap ≤ 9 ∧
    (about (.host (.rdPix 160))).inputs = .host (.rdPix 160) :: [] ∧
    (about (.host (.wrMsg 8 1))).inputs = .host (.wrMsg 8 1) :: [] ∧
    (about (.host (.rdOut 9))).inputs = .host (.rdOut 9) :: [] := by decide

/-- Steps that change `MSG`, `NPIX`, `MLEN`, and on an idle block `PIX` and `OUT`. -/
theorem witness_OnlyTheHostWritesTheOperands :
    seen (fun t => decide (t.msg ≠ (about (.host (.wrMsg 0 1))).msg)) (step (about (.host (.wrMsg 0 1)))) = some true ∧
    seen (fun t => decide (t.npix ≠ (about (.host (.wrReg .npix 1))).npix)) (step (about (.host (.wrReg .npix 1))))
      = some true ∧
    seen (fun t => decide (t.mlen ≠ 9)) (step { running .decode 5 9 with inputs := [.host .reset] }) = some true ∧
    idle.status.busy = false ∧
    seen (fun t => decide (t.pix ≠ idle.pix)) (step (about (.host (.wrPix 0 1)))) = some true ∧
    seen (fun t => decide (t.out ≠ idle.out)) (step (about (.host (.wrOut 0 1)))) = some true := by
  decide

/-! ### The witnesses: multiplexer and serializer -/

theorem witness_SlotProperties :
    (0 < 1) ∧ slot 2 = slot 2 ∧ slot 89 < 4 * 30 ∧ 89 < 3 * 30 ∧ 118 % 4 ≠ 3 ∧ 1 ≤ 1 := by decide

theorem witness_LsbPutReplacesOneBit : (5 ≠ 4) ∧ 1 ≤ 1 ∧ 7 ≠ slot 4 ∧ lsbGet [(5, 0xA7#8)] 4 = true := by decide

/-- The cursor in the last channel of a pixel and before it. -/
theorem witness_CursorAdvancesOneSlot :
    ({ Work.started with p := 7, ch := 2 } : Work).ch = 2 ∧ ({ Work.started with p := 7, ch := 1 } : Work).ch ≠ 2 := by
  decide

theorem sized_wf : (Params.sized 40 8).wf := ⟨by decide, by decide, by decide, by decide, by decide⟩

/-- The block right after a START meets the invariant. -/
theorem running_inv (op : Op) (n l : Nat) (hn : n ≤ 40) (hl : l ≤ 8) : (running op n l).Inv where
  params := sized_wf
  memory := ⟨.nil, .nil, .nil, nofun, nofun, nofun⟩
  widths := ⟨Nat.lt_of_le_of_lt hn (show 40 < 2 ^ 32 by decide), Nat.lt_of_le_of_lt hl (show 8 < 2 ^ 32 by decide),
    Nat.two_pow_pos _, Nat.two_pow_pos _, Nat.two_pow_pos _, nofun⟩
  result := ⟨fun _ => rfl, fun _ => rfl, fun h => (h rfl).elim, nofun, nofun, fun _ => rfl, fun _ => rfl,
    fun h => (h rfl).elim, Nat.zero_le _⟩
  command := ⟨fun _ => hn, fun _ _ => hl, fun _ => rfl, fun _ _ => .inl rfl, fun _ _ => Nat.zero_le _⟩

theorem witness_EngineWritesStayInsideTheBuffer :
    (running .encode 16 0).Inv ∧ (running .encode 16 0).status.busy = true ∧ (running .encode 16 0).inputs = [] ∧
    (running .decode 40 8).Inv ∧ (running .decode 40 8).status.op = .decode :=
  ⟨running_inv _ _ _ (by decide) (by decide), rfl, rfl, running_inv _ _ _ (by decide) (by decide), rfl⟩

theorem witness_SerializerAndDeserializerAreInverse :
    (∀ c ∈ [(0 : Nat), 255], c ≤ 255) ∧ (t2b [0x141, 0x00]).val.length % 8 = 0 := ⟨by decide, (t2b _).property⟩

theorem witness_SerializedLengthIsEightPerCodePoint : (frameBytes [0x68])[6]? = some 0x00#8 := by decide

theorem witness_ShiftRegisterDeserializes : (⟨byteBits 0x68, rfl⟩ : WholeBytes).val.length = 8 := by decide

/-! ### The witnesses: START, ENCODE, DECODE -/

theorem witness_CommandStartsOnAnIdleBlock :
    State.Accepts { idle with npix := 40, mlen := 8 } .encode ∧ State.Accepts { idle with npix := 40, mlen := 9 } .decode := by
  unfold State.Accepts; decide

theorem witness_OversizedOperandsAreRefused :
    idle.status.busy = false ∧
    (let s := { idle with npix := 41 }; s.params.pixcap < s.n) ∧
    (let s := { idle with npix := 40, mlen := 9 }; s.n ≤ s.params.pixcap ∧ s.params.mcap < s.l) := by decide

/-- `B = C = 48` (T4), a slot and an alpha of the span, and an alpha sample and a slot after it. -/
theorem witness_EncodeEmbedsTheFrame :
    (running .encode 16 0).Running .encode ∧
    (let s := running .encode 16 0
     requiredBits s.l ≤ capacity s.n ∧ 47 < requiredBits s.l ∧ 15 < spanPixels (requiredBits s.l) ∧
     (∀ k < requiredBits s.l, 64 ≠ slot k) ∧ ∀ p < spanPixels (requiredBits s.l), 64 ≠ 4 * p + 3) :=
  ⟨⟨rfl, rfl⟩, by decide⟩

/-- `C = 45 < 48 = B` (T4). -/
theorem witness_CapacityExceededTouchesNothing :
    (running .encode 15 0).Running .encode ∧
    capacity (running .encode 15 0).n < requiredBits (running .encode 15 0).l := ⟨⟨rfl, rfl⟩, by decide⟩

theorem witness_CapacityCheckThresholds :
    (running .encode 15 0).Running .encode ∧ (running .encode 15 0).n < 16 := ⟨⟨rfl, rfl⟩, by decide⟩

theorem witness_SecondEncodeChangesNoSample : State.Accepts { idle with npix := 40, mlen := 8 } .encode := by
  unfold State.Accepts; decide

/-- T8: no whole byte (row 12), a terminator before byte 5 (row 2), a lower-case header (row 3), an empty message
(row 1). -/
theorem witness_DecodeClassifiesEveryStream :
    ((decoding 2 []).Running .decode ∧ ∀ x, ¬ (decoding 2 []).TerminatorAt x) ∧
    (decoding 14 [0x53, 0x54, 0x45, 0x47, 0x00]).TerminatorAt 4 ∧
    ((decoding 19 [0x73, 0x74, 0x65, 0x67, 0x6F, 0x41, 0x00]).TerminatorAt 6 ∧
      ¬ (decoding 19 [0x73, 0x74, 0x65, 0x67, 0x6F, 0x41, 0x00]).HeaderMatches) ∧
    ((decoding 16 [0x53, 0x54, 0x45, 0x47, 0x4F, 0x00]).TerminatorAt 5 ∧
      (decoding 16 [0x53, 0x54, 0x45, 0x47, 0x4F, 0x00]).HeaderMatches) := by
  refine ⟨⟨⟨rfl, rfl⟩, fun x h => Nat.not_lt_zero x h.1⟩, ?_, ⟨?_, ?_⟩, ?_, ?_⟩
  · unfold State.TerminatorAt; decide
  · unfold State.TerminatorAt; decide
  · unfold State.HeaderMatches; decide
  · unfold State.TerminatorAt; decide
  · unfold State.HeaderMatches; decide

theorem witness_DecodeLeavesBufferAndOperands : (running .decode 16 0).Running .decode := ⟨rfl, rfl⟩

theorem witness_DecodedMessageIsBoundedAndHasNoZero :
    (running .decode 16 0).Running .decode ∧ (running .decode 16 0).olen = 0 := ⟨⟨rfl, rfl⟩, rfl⟩

/-- Two buffers of one pixel that differ in every sample but agree in the colour LSBs. -/
theorem witness_DecodeSeesOnlyTheColourLsbs :
    (let s : State := { running .decode 1 0 with pix := [(0, 1), (1, 2), (2, 3), (3, 4)] }
     let s' : State := { running .decode 1 7 with pix := [(0, 0xFF), (1, 0xFE), (2, 0x05), (3, 9)] }
     (s.status.busy = true ∧ s.status.op = .decode) ∧ (s'.status.busy = true ∧ s'.status.op = .decode) ∧
       s.olen = 0 ∧ s'.olen = 0 ∧ s.npix = s'.npix ∧
       ∀ k < 3 * s.n, (s.pixel (slot k)).getLsbD 0 = (s'.pixel (slot k)).getLsbD 0) := by decide

/-! ### The witnesses: both commands -/

/-- A message of the least and the greatest code point the round trip covers. -/
def twoPoints : State := { idle with npix := 22, mlen := 2, msg := [(0, 1), (1, 255)] }

theorem twoPoints_message : twoPoints.message = [1, 255] := by decide

theorem witness_DecodeAfterEncodeReturnsTheMessage :
    (twoPoints.status.busy = false ∧ twoPoints.n ≤ twoPoints.params.pixcap ∧ twoPoints.l ≤ twoPoints.params.mcap) ∧
    requiredBits twoPoints.l ≤ capacity twoPoints.n ∧
    ∀ c ∈ twoPoints.message, 1 ≤ c ∧ c ≤ 255 :=
  ⟨by decide, by decide, by rw [twoPoints_message]; decide⟩

/-- Two blocks that differ outside the operands: an entry above the message, a sample above the buffer, `OUT`. -/
theorem witness_OutcomeDependsOnlyOnTheOperands :
    (let s : State := { idle with npix := 1, mlen := 1, msg := [(0, 65)], pix := [(0, 1), (1, 2), (2, 3), (3, 4)] }
     let s' : State := { s with msg := [(0, 65), (1, 66)], pix := s.pix.put 4 9, out := [(0, 7)] }
     s.Accepts .encode ∧ s'.Accepts .encode ∧ s.npix = s'.npix ∧ s.mlen = s'.mlen ∧
       (∀ i < s.l, s.entry i = s'.entry i) ∧ (∀ a < 4 * s.n, s.pixel a = s'.pixel a) ∧ s.Accepts .decode ∧
       s'.Accepts .decode) := by
  unfold State.Accepts; decide

theorem witness_EveryCommandEndsWithItsOutcome :
    (running .encode 16 0).Running .encode ∧ (running .decode 16 0).Running .decode := ⟨⟨rfl, rfl⟩, ⟨rfl, rfl⟩⟩

/-- P9, steps 15 and 16: both commands fail over 0 pixels. -/
theorem witness_ReissuedFailureFailsAgain :
    (idle.Accepts .encode ∧ ∃ t, Issued .encode idle t ∧ t.status.result = .capacityExceeded) ∧
    (idle.Accepts .decode ∧ ∃ t, Issued .decode idle t ∧ t.status.result = .notFound) := by
  refine ⟨⟨by unfold State.Accepts; decide, ?_⟩, by unfold State.Accepts; decide, ?_⟩
  · exact ⟨_, (issued_encode (by unfold State.Accepts; decide)).2 rfl, by decide⟩
  · exact ⟨_, (issued_decode (by unfold State.Accepts; decide)).2 rfl, by decide⟩

/-! ### The witnesses: frame symbols -/

theorem witness_SymbolsDoNothingOnAnIdleBlock :
    idle.status.busy = false ∧ (about (.engine .beat)).inputs = .engine .beat :: [] := ⟨rfl, rfl⟩

/-- The header of `"hi"` in 30 pixels (P1): alphas 0 to 12 are forced with it, 13 is not; a message byte further on; the
terminator ends the frame. -/
theorem witness_EncodeEmitsASymbol :
    (running .encode 30 2).Running .encode ∧
    encode .magic = .stream true (serialize magic) ∧ encode .term = .stream false (byteBits terminator) ∧
    encode (.data 0) = .stream false (byteBits 0) ∧
    (let s := running .encode 30 2
     requiredBits s.l ≤ capacity s.n ∧ s.work.cursor ≤ 39 ∧
       39 < min (s.work.cursor + (serialize magic).length) (requiredBits s.l) ∧
       s.work.cursor + (serialize magic).length < requiredBits s.l) ∧
    (let s := { running .encode 30 2 with work := { Work.started with p := 18, ch := 2, bi := 7 } }
     s.work.cursor = 56 ∧ requiredBits s.l ≤ s.work.cursor + (byteBits terminator).length) :=
  ⟨⟨rfl, rfl⟩, by decide⟩

theorem witness_SymbolOfAnOverfullFrameFails :
    (running .encode 15 0).Running .encode ∧ capacity (running .encode 15 0).n < requiredBits (running .encode 15 0).l ∧
    encode .term = .stream false (byteBits terminator) := ⟨⟨rfl, rfl⟩, by decide⟩

/-- The first byte, the first payload byte, and with 16 pixels the last whole byte, for which `OUT` has no entry. -/
theorem witness_DecodeTakesADataByte :
    (running .decode 16 0).Running .decode ∧ 0x01#8 ≠ 0#8 ∧
    (let s := running .decode 16 0; s.work.cursor + 8 ≤ 3 * s.n ∧ s.work.bi < 5) ∧
    (let s := { running .decode 24 0 with work := { Work.started with p := 13, ch := 1, bi := 5 } }
     s.work.cursor = 40 ∧ 5 ≤ s.work.bi ∧ s.work.bi - 5 < 3 * s.n / 8 - 6) ∧
    (let s := { running .decode 16 0 with work := { Work.started with p := 13, ch := 1, bi := 5 } }
     s.work.cursor + 8 ≤ 3 * s.n ∧ 3 * s.n / 8 - 6 ≤ s.work.bi - 5) := ⟨⟨rfl, rfl⟩, by decide⟩

/-- 14 pixels hold the 40 bits of the header. -/
theorem witness_DecodeTakesTheHeader :
    (running .decode 14 0).Running .decode ∧ (running .decode 14 0).work.bi = 0 := ⟨⟨rfl, rfl⟩, rfl⟩

theorem witness_TerminatorEndsDecode :
    (running .decode 16 0).Running .decode ∧
    (let s := { running .decode 16 0 with work := { Work.started with bi := 5 } }
     5 ≤ s.work.bi ∧ s.work.hok = true) ∧
    (let s := { running .decode 16 0 with work := { Work.started with bi := 4 } }; s.work.bi < 5) ∧
    (let s := { running .decode 16 0 with work := { Work.started with bi := 5, hok := false } }; s.work.hok = false) :=
  ⟨⟨rfl, rfl⟩, by decide⟩

/-! ### The witnesses: the reference sequences -/

theorem witness_EncodeBeatsRefineCompletion :
    (running .encode 16 0).status = Status.started .encode ∧ (running .encode 16 0).work = Work.started ∧
    (running .encode 16 0).pix.wf ∧ 1 + requiredBits (running .encode 16 0).l ≤ 49 := by decide

/-- A buffer of 16 pixels takes its 48 slots, one of no pixels a single beat. -/
theorem witness_DecodeBeatsRefineCompletion :
    ∀ n ∈ [0, 16], (running .decode n 0).status = Status.started .decode ∧ (running .decode n 0).work = Work.started ∧
      3 * (running .decode n 0).n ≤ max (3 * n) 1 ∧ 1 ≤ max (3 * n) 1 := by decide

/-- One state of each row of the table of rule R135, and a buffer of no pixels. -/
theorem witness_CommandsTakeTheirBeats :
    (let s := running .encode 15 0
     s.work = Work.started ∧ s.status = Status.started .encode ∧ capacity s.n < requiredBits s.l) ∧
    (let s := running .encode 16 0
     s.work = Work.started ∧ s.status = Status.started .encode ∧ requiredBits s.l ≤ capacity s.n) ∧
    (let s := decoding 3 [0x00]; s.work = Work.started ∧ s.status = Status.started .decode ∧ s.TerminatorAt 0) ∧
    (let s := decoding 2 []
     s.work = Work.started ∧ s.status = Status.started .decode ∧ (∀ x, ¬ s.TerminatorAt x) ∧ max (3 * s.n) 1 = 6) ∧
    (let s := decoding 0 []
     s.work = Work.started ∧ s.status = Status.started .decode ∧ (∀ x, ¬ s.TerminatorAt x) ∧ max (3 * s.n) 1 = 1) := by
  refine ⟨by decide, by decide, ⟨rfl, rfl, ?_⟩, ⟨rfl, rfl, fun x h => Nat.not_lt_zero x h.1, rfl⟩,
    rfl, rfl, fun x h => Nat.not_lt_zero x h.1, rfl⟩
  unfold State.TerminatorAt; decide

theorem witness_SymbolsRefineCompletion :
    (running .encode 16 0).work = Work.started ∧ (running .encode 16 0).status = Status.started .encode ∧
    (running .encode 16 0).pix.wf ∧ (running .encode 16 0).l + 2 ≤ 2 ∧
    (running .decode 16 0).work = Work.started ∧ (running .decode 16 0).status = Status.started .decode ∧
    wholeBytes (running .decode 16 0).n + 1 ≤ 7 := by decide

/-! ### The witnesses: reset, idling, termination, the invariant -/

theorem witness_ResetOnAnIdleBlock :
    (about (.host .reset)).status.busy = false ∧ (about (.host .reset)).inputs = .host .reset :: [] := by decide

/-- An ENCODE that fits, one that does not, a DECODE; and a busy block whose next move is the engine's. -/
theorem witness_ResetAbandonsTheCommand :
    (let s := { running .encode 30 2 with inputs := [.host .reset] }
     s.status.busy = true ∧ s.inputs = .host .reset :: [] ∧ s.status.op = .encode ∧
       requiredBits s.l ≤ capacity s.n ∧ 63 < requiredBits s.l ∧ 21 < spanPixels (requiredBits s.l) ∧
       (∀ k < requiredBits s.l, 85 ≠ slot k) ∧ ∀ p < spanPixels (requiredBits s.l), 85 ≠ 4 * p + 3) ∧
    (let s := { running .encode 15 0 with inputs := [.host .reset] }
     s.status.op = .encode ∧ capacity s.n < requiredBits s.l) ∧
    (running .decode 30 0).status.op = .decode ∧
    (let s := { running .decode 0 0 with inputs := [.engine .beat] }
     s.status.busy = true ∧ s.inputs.head? ≠ some (.host .reset) ∧ seen (·.status.done) (step s) = some true) := by
  decide

theorem witness_ResultHoldsUntilTheNextStart :
    (let s := { about (.host (.wrReg .ctrl 2)) with status := { busy := false, done := true, result := .ok, op := .encode } }
     s.status.busy = false ∧ s.inputs.head? ≠ some (.host .reset) ∧
       s.inputs.head? = some (.host (.wrReg .ctrl 2)) ∧ (2 : Nat).testBit 0 = false ∧
       (∀ i v, s.inputs.head? ≠ some (.host (.wrOut i v))) ∧ seen (·.status.word) (step s) = some 0x12) ∧
    (about (.host (.wrOut 0 1))).inputs.head? ≠ some (.host (.wrOut 1 1)) := by
  refine ⟨⟨rfl, by decide, rfl, rfl, ?_, by decide⟩, by decide⟩
  intro i v h; cases h

theorem witness_CommandEndsOnceTheMovesAreMade :
    ∀ m ∈ ({ running .encode 16 0 with inputs := [.host (.rdReg .status), .engine .beat] } : State).inputs,
      (∃ r, m = .host (.rdReg r)) ∨ ∃ e, m = .engine e := by
  intro m hm
  rcases List.mem_cons.1 hm with rfl | hm
  · exact .inl ⟨_, rfl⟩
  · exact .inr ⟨_, List.mem_singleton.1 hm⟩

theorem witness_EveryStepKeepsTheInvariant :
    (running .encode 16 0).Inv ∧ step (running .encode 16 0) = .next (completeEncode (running .encode 16 0)) :=
  ⟨running_inv _ _ _ (by decide) (by decide), rfl⟩

end Sys2Proof.Tests
end

section
/-! The outcome of a command as a function of its operands (rule R27): two completion steps that read the same operands
write the same registers, the same samples and the same message, whatever the two blocks hold besides. -/

namespace Sys2Proof.Machine

/-! ### ENCODE -/

theorem message_congr {s s' : State} (hl : s.l = s'.l) (h : ∀ i < s.l, s.entry i = s'.entry i) :
    s.message = s'.message := by
  unfold State.message
  rw [← hl]
  exact List.map_congr_left fun i hi => h i (List.mem_range.1 hi)

theorem l_eq_of_message {s s' : State} (hm : s.message = s'.message) : s.l = s'.l := by
  rw [← message_length, ← message_length, hm]

theorem frameBit_congr {s s' : State} (hm : s.message = s'.message) {k : Nat} (hk : k < requiredBits s.l) :
    s.frameBit k = s'.frameBit k := by
  rw [← frameBits_getD s hk, ← frameBits_getD s' (l_eq_of_message hm ▸ hk), hm]

/-- A sample after an ENCODE that fits depends on the message and on that sample alone. -/
theorem encodedPix_congr {s s' : State} (hm : s.message = s'.message) {a : Nat} (h : s.pixel a = s'.pixel a) :
    pixAt s.encodedPix a = pixAt s'.encodedPix a := by
  have hl := l_eq_of_message hm
  unfold State.pixel at h
  rcases slot_or_alpha a with ⟨k, rfl⟩ | ⟨p, rfl⟩
  · rw [pixAt_encodedPix_slot, pixAt_encodedPix_slot, ← hl, h]
    split
    case isTrue hk => rw [frameBit_congr hm hk]
    case isFalse => rfl
  · rw [pixAt_encodedPix_alpha, pixAt_encodedPix_alpha, ← hl, h]

/-- The capacity check reads `NPIX` and the length of the message, so both completion steps take the same branch. -/
theorem completeEncode_congr {s s' : State} (hn : s.n = s'.n) (hm : s.message = s'.message)
    (hst : s.status = s'.status) (ho : s.olen = s'.olen) :
    (completeEncode s).status = (completeEncode s').status ∧ (completeEncode s).olen = (completeEncode s').olen ∧
      ∀ a, s.pixel a = s'.pixel a → (completeEncode s).pixel a = (completeEncode s').pixel a := by
  have hof : s.overfull ↔ s'.overfull := by
    unfold State.overfull; rw [hn, l_eq_of_message hm]
  by_cases h : s.overfull
  · rw [completeEncode_of_overfull h, completeEncode_of_overfull (hof.1 h)]
    exact ⟨congrArg (Status.completed · .capacityExceeded) hst, ho, fun _ ha => ha⟩
  · rw [completeEncode_of_fits h, completeEncode_of_fits (mt hof.2 h)]
    exact ⟨congrArg (Status.completed · .ok) hst, ho, fun _ ha => encodedPix_congr hm ha⟩

/-! ### DECODE -/

theorem decodedBytes_of_none {s : State} (hy : parseFrame s.streamBytes = none) (ho : s.olen = 0) :
    (completeDecode s).decodedBytes = [] := by
  rw [completeDecode_of_none hy, State.decodedBytes, finishDecode_olen, ho]; rfl

theorem streamBytes_of_pixels {s s' : State} (hn : s.n = s'.n) (h : ∀ a < 4 * s.n, s.pixel a = s'.pixel a) :
    s.streamBytes = s'.streamBytes :=
  streamBytes_congr hn fun k hk => congrArg lsb (h (slot k) (slot_lt.2 hk))

/-- What a DECODE reports depends on the stream it extracts; `OLEN` is 0 while it runs (rule R53), so `NotFound` reports no
bytes, whatever draw `OUT` is left with. -/
theorem completeDecode_congr {s s' : State} (hy : s.streamBytes = s'.streamBytes) (hst : s.status = s'.status)
    (ho : s.olen = 0) (ho' : s'.olen = 0) :
    (completeDecode s).status = (completeDecode s').status ∧ (completeDecode s).olen = (completeDecode s').olen ∧
      (completeDecode s).decodedBytes = (completeDecode s').decodedBytes := by
  cases hp : parseFrame s.streamBytes with
  | none =>
    have hp' : parseFrame s'.streamBytes = none := hy ▸ hp
    have hd := (decodedBytes_of_none hp ho).trans (decodedBytes_of_none hp' ho').symm
    rw [completeDecode_of_none hp, completeDecode_of_none hp'] at hd ⊢
    exact ⟨congrArg (Status.completed · .notFound) hst, ho.trans ho'.symm, hd⟩
  | some payload =>
    have hp' : parseFrame s'.streamBytes = some payload := hy ▸ hp
    have hd := (decodedBytes_of_some hp).trans (decodedBytes_of_some hp').symm
    rw [completeDecode_of_some hp, completeDecode_of_some hp'] at hd ⊢
    exact ⟨congrArg (Status.completed · .ok) hst, rfl, hd⟩

/-! ### The obligation -/

/-- Settles O37: the START clears what else an outcome could depend on, so the two completion steps agree on all that they
read. -/
theorem outcomeDependsOnlyOnTheOperands : Obligations.OutcomeDependsOnlyOnTheOperands := by
  constructor
  case left =>
    intro s s' hs hs' hn hl hmsg hpix
    have hm : (s.begun .encode).message = (s'.begun .encode).message := message_congr hl hmsg
    obtain ⟨hst, holen, hpixel⟩ :=
      completeEncode_congr (s := s.begun .encode) (s' := s'.begun .encode) hn hm rfl rfl
    exact ⟨_, _, (issued_encode hs).2 rfl, (issued_encode hs').2 rfl, hst, holen,
      fun a ha => hpixel a (hpix a ha)⟩
  case right =>
    intro s s' hs hs' hn hpix
    have hy : (s.begun .decode).streamBytes = (s'.begun .decode).streamBytes := streamBytes_of_pixels hn hpix
    exact ⟨_, _, (issued_decode hs).2 rfl, (issued_decode hs').2 rfl, completeDecode_congr hy rfl rfl rfl⟩

end Sys2Proof.Machine
end

section
/-! The command word and the classification of a stream (rules R53, R56, R59): what a write to `CTRL` does in every
state, and what a DECODE reports of every stream. -/

namespace Sys2Proof.Machine

/-! ### A register write as a step -/

theorem fetch_wrReg {s : State} {r : Reg} {v : Nat} {rest : List Move} (hin : s.inputs = .host (.wrReg r v) :: rest) :
    fetch s = writeReg { s with inputs := rest } r v := by
  unfold fetch; rw [hin]; rfl

/-- A busy block ignores a write to any register (rule R125). -/
theorem step_wrReg_busy {s : State} {r : Reg} {v : Nat} {rest : List Move}
    (hin : s.inputs = .host (.wrReg r v) :: rest) (hb : s.status.busy = true) :
    step s = .next { s with inputs := rest } :=
  step_of_settled ((fetch_wrReg hin).trans (if_pos hb))

theorem step_wrCtrl_idle {s : State} {v : Nat} {rest : List Move} (hin : s.inputs = .host (.wrReg .ctrl v) :: rest)
    (hb : s.status.busy = false) :
    step s = exec (decodeCommand (registerWord s.params v)) { s with inputs := rest } :=
  step_of_run ((fetch_wrReg hin).trans (if_neg (by simp [hb])))

/-- The completion step as a move of the engine runs the command that `STATUS.OP` holds. -/
theorem step_complete {s : State} {rest : List Move} (hin : s.inputs = .engine .complete :: rest)
    (hb : s.status.busy = true) : step s = exec (currentCommand s) { s with inputs := rest } := by
  apply step_of_run
  unfold fetch
  rw [hin]
  exact if_pos hb

/-! ### The command word -/

/-- The `OP` bit of a command word (rules R15, R54). -/
def commandOp (c : Nat) : Op := if c.testBit 1 then .encode else .decode

theorem commandOp_eq_encode {c : Nat} : commandOp c = .encode ↔ c.testBit 1 = true := by
  cases h : c.testBit 1 <;> simp [commandOp, h]

theorem exec_command_of_nop {c : Nat} (h : c.testBit 0 = false) (s : State) :
    exec (decodeCommand c) s = .next s := by
  rw [decodeCommand_of_nop h]; rfl

/-- On an idle block a command word with START set is the START of the command its `OP` bit names. -/
theorem exec_command_of_start {c : Nat} {s : State} (hb : s.status.busy = false) (h : c.testBit 0 = true) :
    exec (decodeCommand c) s = start (commandOp c) s := by
  rw [decodeCommand_of_start h, commandOp]
  cases c.testBit 1 with
  | true => exact execEncode_idle hb
  | false => exact execDecode_idle hb

theorem exec_command_ne_fault {s : State} (hb : s.status.busy = false) (c : Nat) (r : Fault) :
    exec (decodeCommand c) s ≠ .fault r := by
  cases h : c.testBit 0 with
  | false => rw [exec_command_of_nop h]; exact nofun
  | true => rw [exec_command_of_start hb h]; exact start_ne_fault _ _ _

/-- A command word selects its row by bits 1 and 0 alone; the others are ignored (rule R56). -/
theorem decodeCommand_congr {c c' : Nat} (h0 : c.testBit 0 = c'.testBit 0) (h1 : c.testBit 1 = c'.testBit 1) :
    decodeCommand c = decodeCommand c' := by
  unfold decodeCommand; rw [h0, h1]

/-- The port carries a bit below the width as it is, and reads any other as 0. -/
theorem registerWord_testBit (q : Params) (v i : Nat) :
    (registerWord q v).testBit i = (decide (i < q.w) && v.testBit i) :=
  Nat.testBit_mod_two_pow v q.w i

theorem decodeCommand_registerWord_congr (q : Params) {c c' : Nat} (h0 : c.testBit 0 = c'.testBit 0)
    (h1 : c.testBit 1 = c'.testBit 1) : decodeCommand (registerWord q c) = decodeCommand (registerWord q c') :=
  decodeCommand_congr (by rw [registerWord_testBit, registerWord_testBit, h0])
    (by rw [registerWord_testBit, registerWord_testBit, h1])

/-! ### A write to `CTRL` as a step -/

theorem step_wrCtrl_eq (s : State) (c : Nat) (rest : List Move) :
    step { s with inputs := .host (.wrReg .ctrl c) :: rest } =
      if s.status.busy then .next { s with inputs := rest }
      else exec (decodeCommand (registerWord s.params c)) { s with inputs := rest } := by
  split
  case isTrue hb => exact step_wrReg_busy rfl hb
  case isFalse hb => exact step_wrCtrl_idle rfl (Bool.eq_false_iff.2 hb)

theorem step_wrCtrl_of_nop {s : State} {v : Nat} {rest : List Move} (hin : s.inputs = .host (.wrReg .ctrl v) :: rest)
    (h : (registerWord s.params v).testBit 0 = false) : step s = .next { s with inputs := rest } := by
  cases hb : s.status.busy with
  | true => exact step_wrReg_busy hin hb
  | false => rw [step_wrCtrl_idle hin hb, exec_command_of_nop h]

theorem step_wrCtrl_of_start {s : State} {v : Nat} {rest : List Move} (hin : s.inputs = .host (.wrReg .ctrl v) :: rest)
    (hb : s.status.busy = false) (h : (registerWord s.params v).testBit 0 = true) :
    step s = start (commandOp (registerWord s.params v)) { s with inputs := rest } := by
  rw [step_wrCtrl_idle hin hb]
  exact exec_command_of_start hb h

theorem step_wrCtrl_ne_fault {s : State} {v : Nat} {rest : List Move} (hin : s.inputs = .host (.wrReg .ctrl v) :: rest)
    (r : Fault) : step s ≠ .fault r := by
  cases hb : s.status.busy with
  | true => rw [step_wrReg_busy hin hb]; exact nofun
  | false => rw [step_wrCtrl_idle hin hb]; exact exec_command_ne_fault (s := { s with inputs := rest }) hb _ r

/-! ### What a DECODE reports -/

theorem completeDecode_reports_notFound {s : State} (hr : s.Running .decode) (h : parseFrame s.streamBytes = none) :
    (completeDecode s).status = { busy := false, done := true, result := .notFound, op := .decode } ∧
      (completeDecode s).olen = s.olen := by
  rw [completeDecode_of_none h, finishDecode_status, Status.completed, hr.2]
  exact ⟨rfl, rfl⟩

theorem completeDecode_reports_ok {s : State} {y : List Byte} (hr : s.Running .decode)
    (h : parseFrame s.streamBytes = some y) :
    (completeDecode s).status = { busy := false, done := true, result := .ok, op := .decode } ∧
      (completeDecode s).olen = y.length := by
  rw [completeDecode_of_some h, finishDecode_status, Status.completed, hr.2]
  exact ⟨rfl, rfl⟩

theorem completeDecode_output {s : State} {y : List Byte} (h : parseFrame s.streamBytes = some y) {i : Nat}
    (hi : i < y.length) : (completeDecode s).output i = y.getD i 0 := by
  rw [completeDecode_of_some h]
  exact (outAt_completed i s.draws).trans (if_pos hi)

/-- Byte `i` of the message that ends before the terminator at `x` is stream byte `5 + i` (rule R88). -/
theorem payload_getD (s : State) {x i : Nat} (hx : x < wholeBytes s.n) (hi : i < x - 5) :
    (((s.streamBytes.take x).drop 5).getD i 0).toNat = s.streamByte (5 + i) := by
  rw [← streamBytes_getD s (by omega) 0, List.getD_eq_getElem?_getD, List.getElem?_drop,
    List.getElem?_take_of_lt (by omega), ← List.getD_eq_getElem?_getD]

/-! ### The obligations -/

/-- Settles O32: `parseFrame` follows the rows of rule R59, and the completion step reports what it finds. -/
theorem decodeClassifiesEveryStream : Obligations.DecodeClassifiesEveryStream := by
  intro s hr
  obtain ⟨hok, hnone⟩ := parseFrame_stream s
  refine ⟨completeDecode s, execDecode_running hr, ?noZero, ?short, ?noHeader, ?message⟩
  case noZero => exact fun h => completeDecode_reports_notFound hr (hnone (.inl h))
  case short => exact fun x hx h5 => completeDecode_reports_notFound hr (hnone (.inr (.inl ⟨x, hx, h5⟩)))
  case noHeader =>
    exact fun x hx h5 hm => completeDecode_reports_notFound hr (hnone (.inr (.inr ⟨x, hx, h5, hm⟩)))
  case message =>
    intro x hx h5 hm
    have hy := hok x hx h5 hm
    have hlt : x < wholeBytes s.n := hx.1
    have hlen : ((s.streamBytes.take x).drop 5).length = x - 5 := by simp; omega
    obtain ⟨hst, holen⟩ := completeDecode_reports_ok hr hy
    refine ⟨hst, holen.trans hlen, fun i hi => ?_⟩
    rw [completeDecode_output hy (hlen ▸ hi), payload_getD s hlt hi]

/-- Settles O8: the port hands an idle block the START of the word's command, which has the three branches of
rule R53. -/
theorem ctrlWriteStartsACommand : Obligations.CtrlWriteStartsACommand := by
  constructor
  case left =>
    rintro s v c rest hin rfl
    refine ⟨step_wrReg_busy hin, fun _ => step_wrCtrl_of_nop hin, fun hb h0 => ?_⟩
    rw [step_wrCtrl_of_start hin hb h0]
    refine ⟨fun hn => ?_, fun hn h1 hl => ?_, fun hn hl => ?_⟩
    · exact start_of_large _ hn
    · have hop : commandOp (registerWord s.params v) = .encode := commandOp_eq_encode.2 h1
      rw [hop]
      exact start_of_long hn hl
    · exact start_of_accepted hn fun ho => hl (commandOp_eq_encode.1 ho)
  case right =>
    intro s rest hin hb
    rw [step_complete hin hb]
    unfold currentCommand
    refine ⟨fun ho => ?_, fun ho => ?_⟩
    · rw [ho]; exact execEncode_running ⟨hb, ho⟩
    · rw [ho]; exact execDecode_running ⟨hb, ho⟩

/-- Settles O9: a word without START selects `NOP`, and two words that agree in bits 1 and 0 select one command. -/
theorem ctrlWriteWithoutStartIsNop : Obligations.CtrlWriteWithoutStartIsNop := by
  refine ⟨fun _ => rfl, fun s c rest hin => ⟨fun h0 => ?_, step_wrReg_busy hin, step_wrCtrl_ne_fault hin⟩,
    fun s c c' rest h0 h1 => ?_⟩
  · exact step_wrCtrl_of_nop hin (by rw [registerWord_testBit, h0, Bool.and_false])
  · rw [step_wrCtrl_eq, step_wrCtrl_eq, decodeCommand_registerWord_congr s.params h0 h1]

end Sys2Proof.Machine
end

section
/-! `LSBPUT` as a replacement of one bit (rule R65): what it does to the sample it writes, as a formula
and as a number. -/

namespace Sys2Proof.Machine

/-! ### One sample -/

/-- The formula of rule R65, with the bit widened to a sample. -/
theorem withLsb_eq_or_zeroExtend (v : Byte) (b : Bool) :
    withLsb v b = (v &&& 0xFE#8) ||| BitVec.zeroExtend 8 (BitVec.ofBool b) := by
  cases b <;> rfl

/-- Bits 7 to 1 stay, read as a number. -/
theorem withLsb_toNat_div_two (v : Byte) (b : Bool) : (withLsb v b).toNat / 2 = v.toNat / 2 := by
  apply Nat.eq_of_testBit_eq
  intro i
  rw [Nat.testBit_div_two, Nat.testBit_div_two]
  exact withLsb_bit v b i.succ_pos

/-- The old and the new sample share their half, so they are at most 1 apart. -/
theorem withLsb_toNat_near (v : Byte) (b : Bool) :
    (withLsb v b).toNat ≤ v.toNat + 1 ∧ v.toNat ≤ (withLsb v b).toNat + 1 := by
  have half := withLsb_toNat_div_two v b
  omega

/-! ### The sample of the slot -/

theorem pixAt_lsbPut_slot (m : Memory Byte) (k : Nat) (b : Bool) :
    pixAt (lsbPut m k b) (slot k) = withLsb (pixAt m (slot k)) b :=
  (pixAt_lsbPut m k b (slot k)).trans (if_pos rfl)

theorem pixAt_lsbPut_of_ne (m : Memory Byte) {k a : Nat} (b : Bool) (h : a ≠ slot k) :
    pixAt (lsbPut m k b) a = pixAt m a :=
  (pixAt_lsbPut m k b a).trans (if_neg h)

/-! ### The obligation -/

/-- Settles O19: the sample at the slot becomes `withLsb` of what it was, slots are injective, and the corner cases
compute. -/
theorem lsbPutReplacesOneBit : Obligations.LsbPutReplacesOneBit := by
  intro m k b
  rw [pixAt_lsbPut_slot]
  obtain ⟨upper, lower⟩ := withLsb_toNat_near (pixAt m (slot k)) b
  refine ⟨withLsb_eq_or_zeroExtend _ b, ?sameSlot, ?otherSlot, ?upperBits, ?otherSample, ?equalBit, upper, lower,
    ?corners⟩
  case sameSlot => exact (lsbGet_lsbPut m k k b).trans (if_pos rfl)
  case otherSlot => exact fun j hj => (lsbGet_lsbPut m j k b).trans (if_neg hj)
  case upperBits => exact fun i hi => withLsb_bit _ b hi
  case otherSample => exact fun a ha => pixAt_lsbPut_of_ne m b ha
  case equalBit =>
    rintro rfl
    exact withLsb_lsb _
  case corners => decide

end Sys2Proof.Machine
end

section
/-! The capacity error of ENCODE (rules R73, R78): what the completion step reports, and that it writes nothing else. -/

namespace Sys2Proof.Machine

/-- The end of a command writes `STATUS`, the working registers and the draw counter, nothing else. -/
theorem finish_eq_withStatusWorkDraws (r : Result) (s : State) :
    finish r s =
      { s with status := (finish r s).status, work := (finish r s).work, draws := (finish r s).draws } := rfl

theorem completeEncode_reports_capacityExceeded {s : State} (hr : s.Running .encode) (h : s.overfull) :
    (completeEncode s).status = { busy := false, done := true, result := .capacityExceeded, op := .encode } := by
  rw [completeEncode_of_overfull h, finish_status, Status.completed, hr.2]

/-- Settles O29: on an overfull frame the completion step is `finish` alone, which writes no memory and no register but
`STATUS`. -/
theorem capacityExceededTouchesNothing : Obligations.CapacityExceededTouchesNothing := by
  intro s hr (hof : s.overfull)
  refine ⟨completeEncode s, execEncode_running hr, completeEncode_reports_capacityExceeded hr hof, ?frame⟩
  case frame =>
    rw [completeEncode_of_overfull hof]
    exact finish_eq_withStatusWorkDraws .capacityExceeded s

end Sys2Proof.Machine
end

section
/-! What a DECODE sees of the buffer (rule R84): bit 0 of the colour samples, in slot order, and nothing else. -/

namespace Sys2Proof.Machine

/-- The stream extracted from slot 0 on, as the sequence `s[0], s[1], …` of rule R84. -/
theorem extract_zero_getElem? (m : Memory Byte) (n k : Nat) :
    (extract m 0 n)[k]? = if k < n then some ((pixAt m (slot k)).getLsbD 0) else none := by
  rw [extract_getElem?, Nat.zero_add]; rfl

/-- Buffers that agree in the colour LSBs give one stream: a slot is read through its LSB alone. -/
theorem streamBytes_of_colourLsbs {s s' : State} (hn : s.npix = s'.npix)
    (h : ∀ k < 3 * s.n, (s.pixel (slot k)).getLsbD 0 = (s'.pixel (slot k)).getLsbD 0) :
    s.streamBytes = s'.streamBytes :=
  streamBytes_congr hn h

/-- Two running DECODEs of one stream report the same. Their `STATUS` may differ in the fields that a completion
overwrites, so each report is taken as what rule R90 fixes. -/
theorem completeDecode_reports_congr {s s' : State} (hr : s.Running .decode) (hr' : s'.Running .decode)
    (hy : s.streamBytes = s'.streamBytes) (ho : s.olen = 0) (ho' : s'.olen = 0) :
    (completeDecode s).status = (completeDecode s').status ∧ (completeDecode s).olen = (completeDecode s').olen ∧
      (completeDecode s).decodedBytes = (completeDecode s').decodedBytes := by
  cases hp : parseFrame s.streamBytes with
  | none =>
    have hp' : parseFrame s'.streamBytes = none := hy ▸ hp
    obtain ⟨hst, holen⟩ := completeDecode_reports_notFound hr hp
    obtain ⟨hst', holen'⟩ := completeDecode_reports_notFound hr' hp'
    exact ⟨hst.trans hst'.symm, by rw [holen, holen', ho, ho'],
      (decodedBytes_of_none hp ho).trans (decodedBytes_of_none hp' ho').symm⟩
  | some payload =>
    have hp' : parseFrame s'.streamBytes = some payload := hy ▸ hp
    obtain ⟨hst, holen⟩ := completeDecode_reports_ok hr hp
    obtain ⟨hst', holen'⟩ := completeDecode_reports_ok hr' hp'
    exact ⟨hst.trans hst'.symm, holen.trans holen'.symm,
      (decodedBytes_of_some hp).trans (decodedBytes_of_some hp').symm⟩

/-- Settles O35: equal colour LSBs give equal streams, and the stream fixes the report. -/
theorem decodeSeesOnlyTheColourLsbs : Obligations.DecodeSeesOnlyTheColourLsbs := by
  constructor
  case left => exact fun s k => extract_zero_getElem? s.pix (3 * s.n) k
  case right =>
    intro s s' hr hr' ho ho' hn hlsb
    exact ⟨completeDecode s, completeDecode s', execDecode_running hr, execDecode_running hr',
      completeDecode_reports_congr hr hr' (streamBytes_of_colourLsbs hn hlsb) ho ho'⟩

end Sys2Proof.Machine
end

section
/-! The length law of the serializer (rule R94): 8 bits per byte, so a cut at bit `8j` is a cut before byte `j`. -/

namespace Sys2Proof.Machine

/-- Dropping whole bytes from the bits drops them from the bytes (rule R94: every byte has 8 bits). -/
theorem serialize_drop (bs : List Byte) (j : Nat) : (serialize bs).drop (8 * j) = serialize (bs.drop j) := by
  induction j generalizing bs with
  | zero => rfl
  | succ j ih =>
    cases bs with
    | nil => simp
    | cons b bs =>
      rw [serialize_cons, Nat.mul_succ, Nat.add_comm, ← List.drop_drop, List.drop_left' (byteBits_length b), ih,
        List.drop_succ_cons]

/-- Byte `j` of serialized bytes is the 8 bits from bit `8j` on. -/
theorem serialize_byte {bs : List Byte} {j : Nat} {b : Byte} (h : bs[j]? = some b) :
    ((serialize bs).drop (8 * j)).take 8 = byteBits b := by
  obtain ⟨hj, rfl⟩ := List.getElem?_eq_some_iff.1 h
  rw [serialize_drop, List.drop_eq_getElem_cons hj, serialize_cons, List.take_left' (byteBits_length _)]

/-- Settles O23: the serializer gives 8 bits for each byte, and both `T2B` and the frame have one byte per code point. -/
theorem serializedLengthIsEightPerCodePoint : Obligations.SerializedLengthIsEightPerCodePoint := by
  refine ⟨fun m => ?text, fun m => ?frame, fun m j b h => serialize_byte h⟩
  case text => rw [t2b_val, serialize_length, List.length_map]
  case frame => rw [serialize_length, frameBytes_length]

end Sys2Proof.Machine
end

section
/-! A failed command issued again (rule R110): the block that a completion step leaves is idle and accepts the command
once more, over operands that the first run has not written. -/

namespace Sys2Proof.Machine

/-! ### The block after a completion step -/

/-- An idle block that nobody moves stays as it is (rules R118, R121). -/
theorem step_idle_of_no_inputs {s : State} (hb : s.status.busy = false) (hin : s.inputs = []) : step s = .next s := by
  apply step_of_settled
  unfold fetch
  rw [hin]
  exact if_neg (by simp [hb])

theorem begun_frame (s : State) (op : Op) : EngineFrame s (s.begun op) := ⟨rfl, rfl, rfl, rfl, rfl, rfl⟩

/-- Whether an idle block accepts a command depends on fields that no command writes. -/
theorem EngineFrame.accepts {s t : State} {op : Op} (h : EngineFrame s t) (hb : t.status.busy = false)
    (hs : s.Accepts op) : t.Accepts op := by
  obtain ⟨-, hn, hl⟩ := hs
  unfold State.Accepts
  rw [h.n, h.l, h.params]
  exact ⟨hb, hn, hl⟩

theorem EngineFrame.message {s t : State} (h : EngineFrame s t) : t.message = s.message := by
  unfold State.message
  rw [h.l, h.params, h.msg]

theorem overfull_of_capacityExceeded {s : State} (h : (completeEncode s).status.result = .capacityExceeded) :
    s.overfull := by
  by_contra hf
  rw [completeEncode_of_fits hf] at h
  exact nomatch h

/-! ### A command issued again -/

/-- ENCODE reads the samples besides the registers and the message; where the first run has left them alone, the second
does what the first did. -/
theorem issued_encode_again {s t : State} (hs : s.Accepts .encode) (ht : Issued .encode s t)
    (hp : ∀ a, t.pixel a = s.pixel a) :
    ∃ u, Issued .encode t u ∧ u.status = t.status ∧ ∀ a, u.pixel a = t.pixel a := by
  obtain rfl := (issued_encode hs).1 ht
  have hf := (begun_frame s .encode).trans (completeEncode_frame _)
  have hf' := hf.trans (begun_frame _ .encode)
  obtain ⟨hst, -, hpix⟩ := completeEncode_congr (s' := s.begun .encode) hf'.n hf'.message rfl rfl
  exact ⟨_, (issued_encode (hf.accepts completeEncode_idle hs)).2 rfl, hst, fun a => hpix a (hp a)⟩

/-- DECODE reads `NPIX` and the samples and writes neither, so whatever it reports it reports again. -/
theorem issued_decode_again {s t : State} (hs : s.Accepts .decode) (ht : Issued .decode s t) :
    ∃ u, Issued .decode t u ∧ u.status = t.status ∧ u.olen = t.olen := by
  obtain rfl := (issued_decode hs).1 ht
  have hf := (begun_frame s .decode).trans (completeDecode_frame _)
  have hpix : ∀ a, (completeDecode (s.begun .decode)).pixel a = s.pixel a :=
    fun a => congrArg (pixAt · a) (completeDecode_pix _)
  have hy : ((completeDecode (s.begun .decode)).begun .decode).streamBytes = (s.begun .decode).streamBytes :=
    streamBytes_of_pixels hf.n fun a _ => hpix a
  obtain ⟨hst, holen, -⟩ := completeDecode_congr hy rfl rfl rfl
  exact ⟨_, (issued_decode (hf.accepts completeDecode_idle hs)).2 rfl, hst, holen⟩

/-- Settles O39: a completion step leaves the block idle; a failed ENCODE has changed no sample, and a DECODE never does,
so the command issued again finds the operands it had. -/
theorem reissuedFailureFailsAgain : Obligations.ReissuedFailureFailsAgain := by
  constructor
  case left =>
    intro s t hs ht hres
    have hte := (issued_encode hs).1 ht
    have hb : t.status.busy = false := hte ▸ completeEncode_idle
    have hpix : ∀ a, t.pixel a = s.pixel a := fun a => by
      rw [hte, completeEncode_of_overfull (overfull_of_capacityExceeded (hte ▸ hres))]; rfl
    obtain ⟨u, hu, hst, hup⟩ := issued_encode_again hs ht hpix
    exact ⟨hb, step_idle_of_no_inputs hb rfl, u, hu, hst, fun a => (hup a).trans (hpix a)⟩
  case right =>
    intro s t hs ht _
    have hb : t.status.busy = false := (issued_decode hs).1 ht ▸ completeDecode_idle
    exact ⟨hb, step_idle_of_no_inputs hb rfl, issued_decode_again hs ht⟩

end Sys2Proof.Machine
end

section
/-! Reset and hazards (rules R120, R125): what reset leaves of a running command, that no other move ends one without a
result, and the register writes that a busy block loses. -/

namespace Sys2Proof.Machine

/-! ### A lost register write -/

/-- Settles O10: the port ignores a register write while busy, whichever register it names. -/
theorem registerWritesWhileBusyAreLost : Obligations.RegisterWritesWhileBusyAreLost :=
  fun _ _ _ _ _ => step_wrReg_busy

/-! ### What reset leaves of a running command -/

theorem step_reset {s : State} {rest : List Move} (hin : s.inputs = .host .reset :: rest) :
    step s = .next (resetEvent (s.within rest)) := by
  apply step_of_settled
  unfold fetch
  rw [hin]
  rfl

theorem abandon_of_fits {s : State} (ho : s.status.op = .encode) (h : ¬ s.overfull) :
    abandon s = { s with pix := scramble s.pix s.draws (spanAddresses (requiredBits s.l)) } := by
  unfold abandon
  rw [ho]
  exact if_neg h

theorem abandon_of_overfull {s : State} (ho : s.status.op = .encode) (h : s.overfull) : abandon s = s := by
  unfold abandon
  rw [ho]
  exact if_pos h

theorem abandon_of_decode {s : State} (ho : s.status.op = .decode) :
    abandon s = { s with out := [], outDraw := s.draws } := by
  unfold abandon
  rw [ho]

theorem resetEvent_memories_of_busy {s : State} (hb : s.status.busy = true) :
    (resetEvent s).pix = (abandon s).pix ∧ (resetEvent s).out = (abandon s).out ∧
      (resetEvent s).outDraw = (abandon s).outDraw := by
  rw [resetEvent_pix, resetEvent_out, resetEvent_outDraw, if_pos hb]
  exact ⟨rfl, rfl, rfl⟩

theorem pixAt_scramble (m : Memory Byte) (d : Nat) (as : List Nat) (a : Nat) :
    pixAt (scramble m d as) a = if a ∈ as then Config.anySample d a else pixAt m a := by
  rw [pixAt, get?_scramble]
  split <;> rfl

/-- Every sample after a reset that abandons an ENCODE that fits. -/
theorem resetEvent_pixel_of_fits {s : State} (hr : s.Running .encode) (h : ¬ s.overfull) (a : Nat) :
    (resetEvent s).pixel a =
      if a ∈ spanAddresses (requiredBits s.l) then Config.anySample s.draws a else s.pixel a := by
  unfold State.pixel
  rw [(resetEvent_memories_of_busy hr.1).1, abandon_of_fits hr.2 h]
  exact pixAt_scramble _ _ _ _

theorem resetEvent_pix_of_overfull {s : State} (hr : s.Running .encode) (h : s.overfull) :
    (resetEvent s).pix = s.pix := by
  rw [(resetEvent_memories_of_busy hr.1).1, abandon_of_overfull hr.2 h]

/-- An abandoned ENCODE leaves the output memory. -/
theorem resetEvent_out_of_encode {s : State} (hr : s.Running .encode) :
    (resetEvent s).out = s.out ∧ (resetEvent s).outDraw = s.outDraw := by
  obtain ⟨-, hout, hdraw⟩ := resetEvent_memories_of_busy hr.1
  rw [hout, hdraw]
  by_cases h : s.overfull
  · rw [abandon_of_overfull hr.2 h]
    exact ⟨rfl, rfl⟩
  · rw [abandon_of_fits hr.2 h]
    exact ⟨rfl, rfl⟩

/-- An abandoned DECODE leaves the buffer, and an output memory that lists nothing. -/
theorem resetEvent_of_decode {s : State} (hr : s.Running .decode) :
    (resetEvent s).pix = s.pix ∧ ∀ i, (resetEvent s).output i = Config.anyOut s.draws i := by
  obtain ⟨hpix, hout, hdraw⟩ := resetEvent_memories_of_busy hr.1
  unfold State.output
  rw [hpix, hout, hdraw, abandon_of_decode hr.2]
  exact ⟨rfl, fun _ => rfl⟩

/-! ### Every other move keeps `STATUS` or completes it -/

@[simp] theorem Status.completed_completed (t : Status) (r r' : Result) :
    (t.completed r).completed r' = t.completed r' := rfl

/-- `STATUS` of the second state is that of the first, or its completion with some result. -/
def KeepsOrCompletes (s t : State) : Prop := t.status = s.status ∨ ∃ r, t.status = s.status.completed r

theorem KeepsOrCompletes.refl (s : State) : KeepsOrCompletes s s := .inl rfl

theorem KeepsOrCompletes.trans {s t u : State} (h : KeepsOrCompletes s t) (h' : KeepsOrCompletes t u) :
    KeepsOrCompletes s u := by
  rcases h' with h' | ⟨r, h'⟩
  · exact h.imp h'.trans fun ⟨r, hr⟩ => ⟨r, h'.trans hr⟩
  · rcases h with h | ⟨r', h⟩
    · exact .inr ⟨r, by rw [h', h]⟩
    · exact .inr ⟨r, by rw [h', h, Status.completed_completed]⟩

theorem KeepsOrCompletes.busy_or_done {s t : State} (h : KeepsOrCompletes s t) (hb : s.status.busy = true) :
    t.status.busy = true ∨ t.status.done = true := by
  rcases h with h | ⟨r, h⟩ <;> rw [h]
  · exact .inl hb
  · exact .inr rfl

theorem finish_keepsOrCompletes (r : Result) (s : State) : KeepsOrCompletes s (finish r s) := .inr ⟨r, rfl⟩

theorem finishDecode_keepsOrCompletes (r : Result) (n : Nat) (s : State) :
    KeepsOrCompletes s (finishDecode r n s) := .inr ⟨r, rfl⟩

theorem Emitted.keepsOrCompletes {s u : State} {f : Nat → Bool} {n : Nat} (h : Emitted s f n u) :
    KeepsOrCompletes s u := .inl (by rw [h.frame])

theorem completeEncode_keepsOrCompletes (s : State) : KeepsOrCompletes s (completeEncode s) := by
  by_cases h : s.overfull
  · rw [completeEncode_of_overfull h]
    exact finish_keepsOrCompletes _ s
  · rw [completeEncode_of_fits h]
    exact .inr ⟨_, rfl⟩

theorem completeDecode_keepsOrCompletes (s : State) : KeepsOrCompletes s (completeDecode s) := by
  cases h : parseFrame s.streamBytes with
  | none => rw [completeDecode_of_none h]; exact .inr ⟨_, rfl⟩
  | some y => rw [completeDecode_of_some h]; exact .inr ⟨_, rfl⟩

theorem encodeBeat_keepsOrCompletes (s : State) : KeepsOrCompletes s (encodeBeat s) := by
  by_cases h : s.overfull
  · rw [encodeBeat_of_overfull h]
    exact finish_keepsOrCompletes _ s
  · rcases Nat.lt_or_ge s.work.cursor (requiredBits s.l) with hc | hc
    · exact (encodeBeat_emits h hc).keepsOrCompletes
    · rw [encodeBeat_of_done h hc]
      exact finish_keepsOrCompletes _ s

theorem emitBytes_keepsOrCompletes (bytes : List Byte) (s : State) : KeepsOrCompletes s (emitBytes bytes s) := by
  by_cases h : s.overfull
  · rw [emitBytes_of_overfull h]
    exact finish_keepsOrCompletes _ s
  · obtain ⟨u, hu, -, heq⟩ := emitBytes_emits h bytes
    rw [heq]
    split
    · exact hu.keepsOrCompletes
    · exact hu.keepsOrCompletes.trans (finish_keepsOrCompletes _ u)

theorem byteDone_keepsOrCompletes (s : State) (w : Work) : KeepsOrCompletes s (byteDone { s with work := w }) := by
  rw [byteDone_with]
  split
  · split <;> exact .inr ⟨_, rfl⟩
  · split <;> exact .inl rfl

theorem endExhausted_keepsOrCompletes (s : State) : KeepsOrCompletes s (endExhausted s) := by
  rcases endExhausted_cases s with h | ⟨-, h⟩ <;> rw [h]
  · exact .refl s
  · exact finishDecode_keepsOrCompletes _ _ s

theorem decodeBeat_keepsOrCompletes (s : State) : KeepsOrCompletes s (decodeBeat s) := by
  rcases Nat.lt_or_ge s.work.cursor (3 * s.n) with hc | hc
  · rw [show decodeBeat s = _ from decodeBeat_with s (w := s.work) hc]
    refine KeepsOrCompletes.trans ?_ (endExhausted_keepsOrCompletes _)
    split
    · exact byteDone_keepsOrCompletes s _
    · exact .inl rfl
  · rw [decodeBeat_of_exhausted hc]
    exact finishDecode_keepsOrCompletes _ _ s

theorem takeBytes_keepsOrCompletes (bytes : List Byte) (s : State) : KeepsOrCompletes s (takeBytes bytes s) := by
  unfold takeBytes
  refine foldl_keeps (P := KeepsOrCompletes s) (fun t b h => ?_) bytes (.refl s)
  split
  · exact h.trans (byteDone_keepsOrCompletes t _)
  · exact h

/-- A step of a busy block whose move is not the reset: the host can do nothing to `STATUS`, and the engine completes it or
leaves it. -/
theorem step_keepsOrCompletes_of_busy {s t : State} (hb : s.status.busy = true)
    (hne : s.inputs.head? ≠ some (.host .reset)) (h : step s = .next t) : KeepsOrCompletes s t := by
  cases step_cases h with
  | nothing | read => exact .inl rfl
  | npix _ hi | mlen _ hi | pix _ _ hi | msg _ _ hi | out _ _ hi | start _ _ hi => simp [hi] at hb
  | reset hh => exact absurd hh hne
  | completeEncode => exact completeEncode_keepsOrCompletes s.popped
  | completeDecode => exact completeDecode_keepsOrCompletes s.popped
  | encodeBeat => exact encodeBeat_keepsOrCompletes s.popped
  | decodeBeat => exact decodeBeat_keepsOrCompletes s.popped
  | emit => exact emitBytes_keepsOrCompletes _ s.popped
  | take => exact takeBytes_keepsOrCompletes _ s.popped
  | tail => exact finishDecode_keepsOrCompletes _ _ s.popped

/-- Settles O52: the reset event runs `abandon` first, which rewrites exactly the span of an ENCODE that fits or all of
`OUT`; every other step of a busy block keeps `STATUS` or completes it. -/
theorem resetAbandonsTheCommand : Obligations.ResetAbandonsTheCommand := by
  refine ⟨fun s rest hb hin => ?reset, fun s t hb hne h => (step_keepsOrCompletes_of_busy hb hne h).busy_or_done hb⟩
  refine ⟨_, step_reset hin, rfl, rfl, rfl, rfl, resetEvent_msg _, resetEvent_inputs _, resetEvent_params _,
    resetEvent_reads _, fun ho => ?encode, fun ho => resetEvent_of_decode (s := s.within rest) ⟨hb, ho⟩⟩
  have hr : (s.within rest).Running .encode := ⟨hb, ho⟩
  obtain ⟨hout, hdraw⟩ := resetEvent_out_of_encode hr
  refine ⟨hout, hdraw, fun hfit => ?fits, resetEvent_pix_of_overfull hr⟩
  have hpixel := resetEvent_pixel_of_fits hr (not_overfull.2 hfit)
  refine ⟨fun k hk => ?slot, fun p hp => ?alpha, fun a hslot halpha => ?other⟩
  case slot => exact (hpixel _).trans (if_pos (mem_spanAddresses.2 (.inl ⟨k, hk, rfl⟩)))
  case alpha => exact (hpixel _).trans (if_pos (mem_spanAddresses.2 (.inr ⟨p, hp, rfl⟩)))
  case other =>
    refine (hpixel a).trans (if_neg fun ha => ?_)
    rcases mem_spanAddresses.1 ha with ⟨k, hk, hak⟩ | ⟨p, hp, hap⟩
    · exact hslot k hk hak
    · exact halpha p hp hap

end Sys2Proof.Machine
end

section
/-! Encodings (30_encoding.md): the decoder undoes the encoder, symbol by symbol and over a whole frame, and a command word
selects its row by its two low bits. -/

namespace Sys2Proof.Machine

/-! ### Symbols -/

theorem decodeStream_data {d : Byte} (hd : d ≠ terminator) (rest : List Bool) :
    decodeStream false (byteBits d ++ rest) = .instr (.data d) rest :=
  (decodeStream_byteBits false d rest rfl).trans (if_neg hd)

theorem decodeStream_term (rest : List Bool) :
    decodeStream false (byteBits terminator ++ rest) = .instr .term rest :=
  decodeStream_byteBits false terminator rest rfl

/-- The encoding of a well-formed symbol, whatever bits follow it, is read as that symbol. -/
theorem decodeStream_encode {i : Instr} {start : Bool} {bits : List Bool} (hwf : i.wf = true)
    (h : encode i = .stream start bits) (rest : List Bool) :
    decodeStream start (bits ++ rest) = .instr i rest := by
  cases i with
  | encode => cases h
  | decode => cases h
  | nop => cases h
  | magic => cases h; exact decodeStream_magic rest
  | data d => cases h; exact decodeStream_data (bne_iff_ne.1 hwf) rest
  | term => cases h; exact decodeStream_term rest

/-- Settles O3: a command word decodes by its two low bits, and a symbol by its own bits, whatever follows them. -/
theorem decodeOfEncodeIsIdentity : Obligations.DecodeOfEncodeIsIdentity := by
  have symbol : ∀ (i : Instr) (start : Bool) (bits rest : List Bool), i.wf = true → encode i = .stream start bits →
      decode (.stream start (bits ++ rest)) = .instr i rest :=
    fun _ _ _ rest hwf h => decodeStream_encode hwf h rest
  refine ⟨fun i hwf => ?_, symbol, decodeStream_term []⟩
  cases hi : encode i with
  | ctrl c => cases i <;> cases hi <;> rfl
  | stream start bits => simpa using symbol i start bits [] hwf hi

/-! ### A whole frame -/

theorem readSymbols_succ {start : Bool} {bits rest : List Bool} {i : Instr} (h : decodeStream start bits = .instr i rest)
    (n : Nat) :
    readSymbols (n + 1) start bits = (i :: (readSymbols n false rest).1, (readSymbols n false rest).2) := by
  rw [readSymbols, h]

/-- Past the header the payload is read byte by byte, up to the terminator. -/
theorem readSymbols_payload {payload : List Byte} (h : ∀ d ∈ payload, d ≠ terminator) (rest : List Bool) :
    readSymbols (payload.length + 1) false (serialize (payload ++ [terminator]) ++ rest) =
      (payload.map .data ++ [.term], rest) := by
  induction payload with
  | nil => exact readSymbols_succ (decodeStream_term rest) 0
  | cons d ds ih =>
    have hd : decodeStream false (serialize (d :: ds ++ [terminator]) ++ rest) =
        .instr (.data d) (serialize (ds ++ [terminator]) ++ rest) := by
      rw [List.cons_append, serialize_cons, List.append_assoc]
      exact decodeStream_data (h d List.mem_cons_self) _
    rw [List.length_cons, readSymbols_succ hd, ih fun x hx => h x (List.mem_cons_of_mem d hx)]
    rfl

/-- Settles O4: the header is read first, at frame byte 0, then the payload by induction over its bytes. -/
theorem wholeFrameDecodesToItsSymbols : Obligations.WholeFrameDecodesToItsSymbols := by
  intro payload rest hpayload
  have header : decodeStream true (serialize (magic ++ payload ++ [terminator]) ++ rest) =
      .instr .magic (serialize (payload ++ [terminator]) ++ rest) := by
    rw [List.append_assoc, serialize_append, List.append_assoc]
    exact decodeStream_magic _
  rw [show (0#8 : Byte) = terminator from rfl, readSymbols_succ header, readSymbols_payload hpayload]
  rfl

/-! ### Command words -/

theorem testBit_one_eq (c : Nat) : c.testBit 1 = decide (c / 2 % 2 = 1) := by
  rw [Nat.testBit_succ, Nat.testBit_zero]

/-- Settles O1: the masks of the rows are the remainders by 4 and by 2, which fix bits 1 and 0. -/
theorem commandWordSelectsItsRow : Obligations.CommandWordSelectsItsRow := by
  intro c
  have mask3 : c &&& 0x3 = c % 4 := Nat.and_two_pow_sub_one_eq_mod c 2
  have mask1 : c &&& 0x1 = c % 2 := Nat.and_two_pow_sub_one_eq_mod c 1
  unfold decodeCommand
  rw [mask3, mask1, Nat.testBit_zero, testBit_one_eq]
  refine ⟨fun h => ?encode, fun h => ?decode, fun h => ?nop, by omega⟩
  case encode => rw [decide_eq_true (by omega), decide_eq_true (by omega)]
  case decode => rw [decide_eq_true (by omega), decide_eq_false (by omega)]
  case nop => rw [decide_eq_false (by omega)]

/-- Settles O2: the eight words are evaluated. -/
theorem tableWordsDecode : Obligations.TableWordsDecode := by
  unfold Obligations.TableWordsDecode
  decide

end Sys2Proof.Machine
end

section
/-! The serializer and the deserializer (43_bit_text_conversion.md): the inverse laws over code points, and the eight beats
of the shift register. -/

namespace Sys2Proof.Machine

/-! ### The inverse laws -/

theorem map_trunc8_zextCpw (b : List Byte) : (b.map zextCpw).map trunc8 = b := by
  rw [List.map_map]
  exact List.map_id'' trunc8_zextCpw b

/-- A code point survives truncation to its low byte exactly when it has no more than 8 bits. -/
theorem zextCpw_trunc8_eq_self {c : Nat} : zextCpw (trunc8 c) = c ↔ c ≤ 255 := by
  refine ⟨fun h => ?_, zextCpw_trunc8⟩
  have hlt : zextCpw (trunc8 c) < 256 := (trunc8 c).isLt
  omega

theorem map_zextCpw_trunc8_eq_self {m : List Nat} : (m.map trunc8).map zextCpw = m ↔ ∀ c ∈ m, c ≤ 255 := by
  rw [List.map_map]
  induction m with
  | nil => simp
  | cons c m ih =>
    rw [List.map_cons, List.cons.injEq, ih, List.forall_mem_cons, Function.comp_apply, zextCpw_trunc8_eq_self]

/-- Settles O22: the laws are those of bytes, carried through `trunc8` and `zextCpw`. -/
theorem serializerAndDeserializerAreInverse : Obligations.SerializerAndDeserializerAreInverse := by
  refine ⟨fun b => ?law1, b2t_t2b, fun m => ?law2, fun s => ?law3⟩
  case law1 => rw [b2t_t2b, map_trunc8_zextCpw]
  case law2 => rw [b2t_t2b, map_zextCpw_trunc8_eq_self]
  case law3 => exact Subtype.ext (by rw [t2b_val, map_trunc8_zextCpw, serialize_b2t])

/-! ### The shift register -/

/-- Settles O24: beat `i` puts out bit `7 − i`. -/
theorem shiftRegisterSerializes : Obligations.ShiftRegisterSerializes := by
  intro b
  have beat : ∀ i ∈ List.range 8, shiftOutBit (shiftOutBy b i) = b.getLsbD (7 - i) :=
    fun i hi => shiftOutBit_shiftOutBy b (List.mem_range.1 hi)
  rw [List.map_congr_left beat]
  rfl

/-- Eight bits are the bits of a byte. -/
theorem exists_byteBits {bits : List Bool} (h : bits.length = 8) : ∃ b, bits = byteBits b := by
  obtain ⟨b, hb⟩ := List.length_eq_one_iff.1 (bytesOf_length 1 h)
  refine ⟨b, ?_⟩
  rw [← serialize_bytesOf 1 bits h, hb, serialize_cons, serialize_nil, List.append_nil]

theorem foldl_shiftIn_byteBits (sr b : Byte) : (byteBits b).foldl shiftIn sr = b :=
  (shiftIn_eight sr _ _ _ _ _ _ _ _).trans (byteOf_byteBits b)

/-- Settles O25: the eight bits are those of a byte, which both sides give back. -/
theorem shiftRegisterDeserializes : Obligations.ShiftRegisterDeserializes := by
  rintro sr ⟨bits, hwhole⟩ h
  obtain ⟨b, rfl⟩ := exists_byteBits h
  rw [foldl_shiftIn_byteBits]
  exact (bytesOf_byteBits_append b []).trans rfl

end Sys2Proof.Machine
end

section
/-! The moves of the two agents (rules R14, R30, R39, R53): the port as the host sees it, and which instruction a move of the
engine runs. -/

namespace Sys2Proof.Machine

/-! ### A move as a step -/

theorem fetch_host {s : State} {m : HostMove} {rest : List Move} (hin : s.inputs = .host m :: rest) :
    fetch s = hostMove m (s.within rest) := by
  unfold fetch; rw [hin]; rfl

theorem fetch_symbol {s : State} {rest : List Move} (hin : s.inputs = .engine .symbol :: rest)
    (hb : s.status.busy = true) : fetch s = fetchSymbol (s.within rest) := by
  unfold fetch; rw [hin]; exact if_pos hb

/-- A busy block with no move to come completes its command (rule R134). -/
theorem step_of_no_inputs {s : State} (hin : s.inputs = []) (hb : s.status.busy = true) :
    step s = exec (currentCommand s) s := by
  apply step_of_run
  unfold fetch; rw [hin]; exact if_pos hb

theorem currentCommand_of_encode {s : State} (h : s.status.op = .encode) : currentCommand s = .encode := by
  unfold currentCommand; rw [h]

theorem currentCommand_of_decode {s : State} (h : s.status.op = .decode) : currentCommand s = .decode := by
  unfold currentCommand; rw [h]

/-! ### The instruction a step runs -/

/-- Settles O5: the port of an idle block runs the command of the word it carries. -/
theorem stepRunsTheIssuedCommand : Obligations.StepRunsTheIssuedCommand := by
  intro s c rest i bits hin hb hdecode
  cases hdecode
  exact step_wrCtrl_idle hin hb

/-- Settles O6: the completing move and the step without a move both run the command of `STATUS.OP`. -/
theorem stepCarriesOutTheRunningCommand : Obligations.StepCarriesOutTheRunningCommand := by
  refine fun s rest hb => ⟨fun hin ho => ?_, fun hin ho => ?_, fun hin ho => ?_, fun hin ho => ?_⟩
  · rw [step_complete hin hb, currentCommand_of_encode ho]
  · rw [step_complete hin hb, currentCommand_of_decode ho]
  · rw [step_of_no_inputs hin hb, currentCommand_of_encode ho]
  · rw [step_of_no_inputs hin hb, currentCommand_of_decode ho]

theorem fetchSymbol_of_encode {s : State} {i : Instr} (hnb : s.work.nb = 0) (ho : s.status.op = .encode)
    (hi : encodeSymbol s = some i) : fetchSymbol s = .run i s := by
  unfold fetchSymbol; rw [if_pos hnb, ho]; simp only [hi]

theorem fetchSymbol_of_decode {s : State} {i : Instr} {bits : List Bool} (hnb : s.work.nb = 0)
    (ho : s.status.op = .decode) (hi : decodeSymbol s = .instr i bits) : fetchSymbol s = .run i s := by
  unfold fetchSymbol; rw [if_pos hnb, ho]; simp only [hi]

theorem fetchSymbol_of_tail {s : State} (hnb : s.work.nb = 0) (ho : s.status.op = .decode)
    (hi : decodeSymbol s = .rejected .partialByte) :
    fetchSymbol s = .settled (.next (finishDecode .notFound 0 s)) := by
  unfold fetchSymbol; rw [if_pos hnb, ho]; simp only [hi]

theorem encodeSymbol_header {s : State} (h : s.work.bi = 0) : encodeSymbol s = some .magic := if_pos h

theorem encodeSymbol_message {s : State} (h0 : 0 < s.work.bi) (h : s.work.bi < 5 + s.l) :
    encodeSymbol s = some (.data (s.frameByte s.work.bi)) :=
  (if_neg (Nat.ne_of_gt h0)).trans (if_pos h)

theorem encodeSymbol_terminator {s : State} (h : s.work.bi = 5 + s.l) : encodeSymbol s = some .term :=
  (if_neg (by omega)).trans ((if_neg (by omega)).trans (if_pos h))

/-- Settles O7: `fetchSymbol` of a busy block at a byte boundary, by command and by frame byte. -/
theorem stepRunsTheNextSymbol : Obligations.StepRunsTheNextSymbol := by
  intro s rest hin hb hnb
  have hf := fetch_symbol hin hb
  refine ⟨fun ho => ⟨fun i bits hi => ?symbol, fun hi => ?tail⟩, fun ho => ?encode⟩
  case symbol => exact step_of_run (hf.trans (fetchSymbol_of_decode (s := s.within rest) hnb ho hi))
  case tail =>
    exact ⟨_, step_of_settled (hf.trans (fetchSymbol_of_tail (s := s.within rest) hnb ho hi)), rfl⟩
  case encode =>
    have run : ∀ {i}, encodeSymbol s = some i → step s = exec i (s.within rest) := fun hi =>
      step_of_run (hf.trans (fetchSymbol_of_encode (s := s.within rest) hnb ho hi))
    exact ⟨fun h => run (encodeSymbol_header h), fun h0 h => run (encodeSymbol_message h0 h),
      fun h => run (encodeSymbol_terminator h)⟩

/-- Settles O40: a symbol passes no bytes to an idle block, and no engine move is enabled there. -/
theorem symbolsDoNothingOnAnIdleBlock : Obligations.SymbolsDoNothingOnAnIdleBlock := by
  intro s hb
  refine ⟨passBytes_idle hb _, fun d => passBytes_idle hb _, passBytes_idle hb _, fun e rest hin => ?_⟩
  rw [step_engine_eq hin, engineStep_idle (by exact hb)]

/-! ### The register port -/

theorem step_rdReg {s : State} {r : Reg} {rest : List Move} (hin : s.inputs = .host (.rdReg r) :: rest) :
    step s = .next { s with inputs := rest, reads := .reg r (readReg s r) :: s.reads } :=
  step_of_settled ((fetch_host hin).trans (by cases r <;> rfl))

theorem step_wrNpix_idle {s : State} {v : Nat} {rest : List Move} (hin : s.inputs = .host (.wrReg .npix v) :: rest)
    (hb : s.status.busy = false) : step s = .next { s with inputs := rest, npix := registerWord s.params v } :=
  step_of_settled ((fetch_wrReg hin).trans (if_neg (by simp [hb])))

theorem step_wrMlen_idle {s : State} {v : Nat} {rest : List Move} (hin : s.inputs = .host (.wrReg .mlen v) :: rest)
    (hb : s.status.busy = false) : step s = .next { s with inputs := rest, mlen := registerWord s.params v } :=
  step_of_settled ((fetch_wrReg hin).trans (if_neg (by simp [hb])))

/-- A write to a read-only register is ignored, whether the block is busy or not (rule R14). -/
theorem step_wrReadOnly {s : State} {r : Reg} {v : Nat} {rest : List Move}
    (hin : s.inputs = .host (.wrReg r v) :: rest) (hr : r = .status ∨ r = .olen) :
    step s = .next { s with inputs := rest } := by
  cases hb : s.status.busy with
  | true => exact step_wrReg_busy hin hb
  | false =>
    refine step_of_settled ((fetch_wrReg hin).trans ?_)
    rcases hr with rfl | rfl <;> exact if_neg (by simp [hb])

theorem Status.word_lt (t : Status) : t.word < 32 := by
  obtain ⟨busy, done, result, op⟩ := t
  have hb := busy.toNat_le
  have hd := done.toNat_le
  have hr : result.code ≤ 2 := by cases result <;> decide
  have ho : op.code ≤ 1 := by cases op <;> decide
  unfold Status.word
  dsimp only
  omega

/-- Settles O11: one rule per register and direction; `STATUS` fits a register of 5 bits. -/
theorem registerPortReadsAndWrites : Obligations.RegisterPortReadsAndWrites := by
  intro s rest
  refine ⟨fun r hin => ?read, fun hw => ?statusFits, fun v hb => ⟨fun hin => ?npix, fun hin => ?mlen⟩,
    fun v hv => Nat.mod_eq_of_lt hv, fun v hin => step_wrReadOnly hin (.inl rfl),
    fun v hin => step_wrReadOnly hin (.inr rfl)⟩
  case read => rw [step_rdReg hin]; cases r <;> rfl
  case statusFits =>
    have h32 : 2 ^ 5 ≤ 2 ^ s.params.w := Nat.pow_le_pow_right Nat.two_pos hw
    exact Nat.mod_eq_of_lt (Nat.lt_of_lt_of_le s.status.word_lt h32)
  case npix => exact step_wrNpix_idle hin hb
  case mlen => exact step_wrMlen_idle hin hb

/-- Settles O12: the word of each of the 24 values, whose bits from 5 on are 0 because it is below 32. -/
theorem statusWordHoldsItsFields : Obligations.StatusWordHoldsItsFields := by
  intro t
  have high : ∀ i, 5 ≤ i → t.word.testBit i = false := fun i hi =>
    Nat.testBit_lt_two_pow (Nat.lt_of_lt_of_le t.word_lt (Nat.pow_le_pow_right Nat.two_pos hi))
  refine ⟨?busy, ?done, ?result, ?op, high⟩
  all_goals
    obtain ⟨busy, done, result, op⟩ := t
    clear high
    cases result <;> cases op <;> revert busy done <;> decide

/-! ### The memory ports -/

section
variable {s t : State} {m : HostMove} {rest : List Move} {n a : Nat} {f : Fault}

theorem step_hostAccess_busy (hb : s.status.busy = true) (hin : s.inputs = .host m :: rest)
    (hm : hostMove m (s.within rest) = hostAccess (s.within rest) n a f t) :
    step s = .refused .memoryAccessWhileBusy :=
  step_of_settled ((fetch_host hin).trans (hm.trans (if_pos hb)))

theorem step_hostAccess_present (hb : s.status.busy = false) (hin : s.inputs = .host m :: rest)
    (hm : hostMove m (s.within rest) = hostAccess (s.within rest) n a f t) (ha : a < n) : step s = .next t := by
  have hb' : ¬ (s.within rest).status.busy = true := Bool.eq_false_iff.1 hb
  exact step_of_settled ((fetch_host hin).trans (hm.trans ((if_neg hb').trans (if_pos ha))))

theorem step_hostAccess_absent (hb : s.status.busy = false) (hin : s.inputs = .host m :: rest)
    (hm : hostMove m (s.within rest) = hostAccess (s.within rest) n a f t) (ha : n ≤ a) : step s = .fault f := by
  have hb' : ¬ (s.within rest).status.busy = true := Bool.eq_false_iff.1 hb
  exact step_of_settled ((fetch_host hin).trans (hm.trans ((if_neg hb').trans (if_neg (Nat.not_lt.2 ha)))))

end

/-- Settles O13: all six accesses are one `hostAccess`, which looks at `BUSY` first. -/
theorem memoryAccessWhileBusyIsRefused : Obligations.MemoryAccessWhileBusyIsRefused := by
  intro s m rest hb hin hm
  rcases hm with ⟨a, v, rfl⟩ | ⟨a, rfl⟩ | ⟨i, v, rfl⟩ | ⟨i, rfl⟩ | ⟨i, v, rfl⟩ | ⟨i, rfl⟩ <;>
    exact step_hostAccess_busy hb hin rfl

/-- Settles O14: a write is one `put`, and a read after a `put` differs at its address alone. -/
theorem hostMemoryWriteSetsOneEntry : Obligations.HostMemoryWriteSetsOneEntry := by
  intro s rest hb
  refine ⟨fun a v hin ha => ⟨_, step_hostAccess_present hb hin rfl ha, ?_, fun b hne => ?_, rfl⟩,
    fun i v hin hi => ⟨_, step_hostAccess_present hb hin rfl hi, ?_, fun j hne => ?_, rfl⟩,
    fun i v hin hi => ⟨_, step_hostAccess_present hb hin rfl hi, ?_, fun j hne => ?_, rfl⟩⟩
  · exact pixAt_put_self s.pix a v
  · exact pixAt_put_ne s.pix v hne
  · exact (msgAt_put s.params s.msg i i _).trans (if_pos rfl)
  · exact (msgAt_put s.params s.msg i j _).trans (if_neg hne)
  · exact (outAt_put s.out s.outDraw i i v).trans (if_pos rfl)
  · exact (outAt_put s.out s.outDraw i j v).trans (if_neg hne)

/-- Settles O15: a read of an entry that exists is settled with the entry's value. -/
theorem hostMemoryReadGivesTheEntry : Obligations.HostMemoryReadGivesTheEntry := fun _ _ hb =>
  ⟨fun _ hin ha => step_hostAccess_present hb hin rfl ha, fun _ hin hi => step_hostAccess_present hb hin rfl hi,
    fun _ hin hi => step_hostAccess_present hb hin rfl hi⟩

/-- Settles O16: an access beyond the entries of its memory is settled with that memory's fault. -/
theorem absentEntryFaults : Obligations.AbsentEntryFaults := fun _ _ hb =>
  ⟨fun _ _ ha => ⟨fun hin => step_hostAccess_absent hb hin rfl ha, fun hin => step_hostAccess_absent hb hin rfl ha⟩,
    fun _ _ hi => ⟨fun hin => step_hostAccess_absent hb hin rfl hi, fun hin => step_hostAccess_absent hb hin rfl hi⟩,
    fun _ _ hi => ⟨fun hin => step_hostAccess_absent hb hin rfl hi, fun hin => step_hostAccess_absent hb hin rfl hi⟩⟩

/-! ### The START -/

/-- Settles O26: on an idle block `exec` is the START, which an accepting block passes. -/
theorem commandStartsOnAnIdleBlock : Obligations.CommandStartsOnAnIdleBlock := by
  intro s
  refine ⟨fun ⟨hb, hn, hl⟩ => ?_, fun ⟨hb, hn, hl⟩ => ?_⟩
  · exact (execEncode_idle hb).trans (start_of_accepted hn hl)
  · exact (execDecode_idle hb).trans (start_of_accepted hn hl)

/-- Settles O27: the START checks `NPIX`, then, of an ENCODE alone, `MLEN`. -/
theorem oversizedOperandsAreRefused : Obligations.OversizedOperandsAreRefused := by
  intro s hb
  rw [execEncode_idle hb, execDecode_idle hb]
  exact ⟨fun hn => ⟨start_of_large _ hn, start_of_large _ hn⟩, start_of_long,
    fun hn => ⟨_, start_of_accepted hn nofun⟩⟩

end Sys2Proof.Machine
end

section
/-! Slots and the cursor (rules R63, R67), what a step can change at all (rules R29, R39, R42, R118, R121), reset and idling,
and that a started command ends (rules R134, R136). -/

namespace Sys2Proof.Machine

/-! ### `SLOT` -/

/-- Settles O18: quotients and remainders by 3 and by 4, and the corner cases evaluated. -/
theorem slotProperties : Obligations.SlotProperties := by
  refine ⟨fun k => ⟨rfl, ?pixel, slot_mod k⟩, fun _ _ => slot_strictMono, fun _ _ => slot_inj.1, fun k => ?colour,
    fun _ _ => slot_lt, fun a ha => ?inverse, rfl, fun n hn => ?last, rfl, rfl⟩
  case pixel => unfold slot; omega
  case colour => rw [slot_mod]; omega
  case inverse => unfold slot; omega
  case last => unfold slot; omega

/-! ### The cursor -/

theorem advance_of_blue {w : Work} (h : w.ch = 2) : w.advance.ch = 0 ∧ w.advance.p = w.p + 1 := by
  unfold Work.advance; rw [if_pos h]; exact ⟨rfl, rfl⟩

theorem advance_p_of_not_blue {w : Work} (h : w.ch ≠ 2) : w.advance.p = w.p := by
  unfold Work.advance; rw [if_neg h]

theorem advance_ch_of_not_blue {w : Work} (h : w.ch ≠ 2) : w.advance.ch.val = w.ch.val + 1 := by
  have hcursor : 3 * w.advance.p + w.advance.ch.val = 3 * w.p + w.ch.val + 1 := cursor_advance w
  rw [advance_p_of_not_blue h] at hcursor
  omega

/-- Settles O20: the advance steps the cursor by 1, and `SLOT` of a cursor is its address. -/
theorem cursorAdvancesOneSlot : Obligations.CursorAdvancesOneSlot := fun w =>
  ⟨cursor_advance w, slot_of_cursor w, slot_of_cursor w.advance, advance_of_blue,
    fun h => ⟨advance_ch_of_not_blue h, advance_p_of_not_blue h⟩, advance_sr w, advance_nb w, advance_bi w,
    advance_hok w⟩

/-! ### Who writes the operands -/

theorem not_idle_of_running {s : State} {op : Op} (hr : s.Running op) (hb : s.status.busy = false) : False :=
  Bool.false_ne_true (hb.symm.trans hr.1)

/-- The clauses of rules R16, R17, R24, R29 and R39 on a step to `t`. -/
def WritesOperandsAsHost (s t : State) : Prop :=
  t.params = s.params ∧
  (t.msg ≠ s.msg → s.status.busy = false ∧ ∃ i v, s.inputs.head? = some (.host (.wrMsg i v))) ∧
  (t.npix ≠ s.npix → s.inputs.head? = some (.host .reset) ∨
    (s.status.busy = false ∧ ∃ v, s.inputs.head? = some (.host (.wrReg .npix v)))) ∧
  (t.mlen ≠ s.mlen → s.inputs.head? = some (.host .reset) ∨
    (s.status.busy = false ∧ ∃ v, s.inputs.head? = some (.host (.wrReg .mlen v)))) ∧
  (s.status.busy = false → t.pix ≠ s.pix → ∃ a v, s.inputs.head? = some (.host (.wrPix a v))) ∧
  (s.status.busy = false → t.out ≠ s.out ∨ t.outDraw ≠ s.outDraw →
    ∃ i v, s.inputs.head? = some (.host (.wrOut i v)))

/-- A move that leaves the operands, and on an idle block the two memories the engine writes. -/
theorem WritesOperandsAsHost.of_frame {s t : State} (h : EngineFrame s.popped t)
    (hidle : s.status.busy = false → t.pix = s.pix ∧ t.out = s.out ∧ t.outDraw = s.outDraw) :
    WritesOperandsAsHost s t := by
  refine ⟨h.params, fun hne => absurd h.msg hne, fun hne => absurd h.npix hne, fun hne => absurd h.mlen hne,
    fun hb hne => absurd (hidle hb).1 hne, fun hb hne => ?_⟩
  obtain ⟨-, hout, hdraw⟩ := hidle hb
  exact absurd hne (by simp [hout, hdraw])

theorem WritesOperandsAsHost.of_engine {s t : State} {op : Op} (hr : s.Running op) (h : EngineFrame s.popped t) :
    WritesOperandsAsHost s t :=
  .of_frame h fun hb => (not_idle_of_running hr hb).elim

theorem resetEvent_memories_of_idle {s : State} (hb : s.status.busy = false) :
    (resetEvent s).pix = s.pix ∧ (resetEvent s).out = s.out ∧ (resetEvent s).outDraw = s.outDraw := by
  rw [resetEvent_pix, resetEvent_out, resetEvent_outDraw, if_neg (by simp [hb])]
  exact ⟨rfl, rfl, rfl⟩

theorem step_writesOperandsAsHost {s t : State} (h : step s = .next t) : WritesOperandsAsHost s t := by
  have kept : ¬ (s.out ≠ s.out ∨ s.outDraw ≠ s.outDraw) := by simp
  cases step_cases h with
  | nothing => exact .of_frame (.refl _) fun _ => ⟨rfl, rfl, rfl⟩
  | read =>
    exact ⟨rfl, fun h => absurd rfl h, fun h => absurd rfl h, fun h => absurd rfl h, fun _ h => absurd rfl h,
      fun _ h => absurd h kept⟩
  | npix v hb hh =>
    exact ⟨rfl, fun h => absurd rfl h, fun _ => .inr ⟨hb, v, hh⟩, fun h => absurd rfl h, fun _ h => absurd rfl h,
      fun _ h => absurd h kept⟩
  | mlen v hb hh =>
    exact ⟨rfl, fun h => absurd rfl h, fun h => absurd rfl h, fun _ => .inr ⟨hb, v, hh⟩, fun _ h => absurd rfl h,
      fun _ h => absurd h kept⟩
  | pix a v hb hh =>
    exact ⟨rfl, fun h => absurd rfl h, fun h => absurd rfl h, fun h => absurd rfl h, fun _ _ => ⟨a, v, hh⟩,
      fun _ h => absurd h kept⟩
  | msg i v hb hh =>
    exact ⟨rfl, fun _ => ⟨hb, i, v, hh⟩, fun h => absurd rfl h, fun h => absurd rfl h, fun _ h => absurd rfl h,
      fun _ h => absurd h kept⟩
  | out i v hb hh =>
    exact ⟨rfl, fun h => absurd rfl h, fun h => absurd rfl h, fun h => absurd rfl h, fun _ h => absurd rfl h,
      fun _ _ => ⟨i, v, hh⟩⟩
  | reset hh =>
    refine ⟨resetEvent_params _, fun h => absurd (resetEvent_msg _) h, fun _ => .inl hh, fun _ => .inl hh,
      fun hb h => ?_, fun hb h => ?_⟩
    all_goals obtain ⟨hpix, hout, hdraw⟩ := resetEvent_memories_of_idle (s := s.popped) hb
    · exact absurd hpix h
    · exact absurd h (by rw [hout, hdraw]; exact kept)
  | start op => exact .of_frame (begun_frame _ op) fun _ => ⟨rfl, rfl, rfl⟩
  | completeEncode hr => exact .of_engine hr (completeEncode_frame _)
  | completeDecode hr => exact .of_engine hr (completeDecode_frame _)
  | encodeBeat hr => exact .of_engine hr (encodeBeat_frame _)
  | decodeBeat hr => exact .of_engine hr (decodeBeat_frame _)
  | emit i hr => exact .of_engine hr (emitBytes_frame _ _)
  | take i rest hr => exact .of_engine hr (takeBytes_frame _ _)
  | tail hr => exact .of_engine hr (finishDecode_frame _ _ _)

/-- Settles O17: by the inversion of a step; no move of the engine writes an operand, and none is made on an idle block. -/
theorem onlyTheHostWritesTheOperands : Obligations.OnlyTheHostWritesTheOperands := fun _ _ =>
  step_writesOperandsAsHost

/-! ### An idle block keeps its result -/

/-- The decoded message is fixed by `OLEN` and the outputs. -/
theorem decodedBytes_congr {s t : State} (holen : t.olen = s.olen) (hout : ∀ i, t.output i = s.output i) :
    t.decodedBytes = s.decodedBytes := by
  unfold State.decodedBytes
  rw [holen]
  exact List.map_congr_left fun i _ => hout i

/-- `STATUS` and `OLEN` stay, and every output but one that the host writes. -/
def KeepsResult (s t : State) : Prop :=
  t.status = s.status ∧ t.olen = s.olen ∧
    ∀ i, (∀ v, s.inputs.head? ≠ some (.host (.wrOut i v))) → t.output i = s.output i

theorem step_keepsResult {s t : State} (hb : s.status.busy = false) (hne : s.inputs.head? ≠ some (.host .reset))
    (hc : ∀ c, s.inputs.head? = some (.host (.wrReg .ctrl c)) → (registerWord s.params c).testBit 0 = false)
    (h : step s = .next t) : KeepsResult s t := by
  cases step_cases h with
  | nothing | read | npix | mlen | pix | msg => exact ⟨rfl, rfl, fun _ _ => rfl⟩
  | out j v _ hh =>
    refine ⟨rfl, rfl, fun i hi => (outAt_put s.out s.outDraw j i v).trans (if_neg fun hij => ?_)⟩
    exact hi v (hij ▸ hh)
  | reset hh => exact absurd hh hne
  | start op c _ hh h0 => exact absurd (hc c hh) (by simp [h0])
  | completeEncode hr | completeDecode hr | encodeBeat hr | decodeBeat hr | emit _ hr | take _ _ hr | tail hr =>
    exact (not_idle_of_running hr hb).elim

/-- Settles O53: by the inversion of a step, of which an idle block can make only the moves of its host. -/
theorem resultHoldsUntilTheNextStart : Obligations.ResultHoldsUntilTheNextStart := by
  intro s t hb hne hc h
  obtain ⟨hst, holen, hout⟩ := step_keepsResult hb hne hc h
  exact ⟨hst, holen, hout, fun hh => decodedBytes_congr holen fun i => hout i (hh i)⟩

/-! ### Reset -/

/-- Settles O50: the reset state is evaluated, and an idle block without a move to come makes none. -/
theorem resetStateHoldsTheSpecsValues : Obligations.ResetStateHoldsTheSpecsValues :=
  ⟨rfl, rfl, rfl, rfl, rfl, rfl, rfl, rfl, step_idle_of_no_inputs rfl rfl⟩

theorem resetEvent_of_idle {s : State} (hb : s.status.busy = false) :
    resetEvent s = { s with npix := 0, mlen := 0, status := Status.reset, olen := 0,
                            work := Work.any s.params s.draws, draws := s.draws + 1 } := by
  unfold resetEvent
  rw [if_neg (by simp [hb])]

/-- Settles O51: on an idle block there is no command to abandon, so the reset event writes the registers alone. -/
theorem resetOnAnIdleBlock : Obligations.ResetOnAnIdleBlock := by
  intro s rest hb hin
  refine ⟨_, step_reset hin, ?_⟩
  rw [resetEvent_of_idle (s := s.within rest) hb]
  rfl

theorem params_chosen_wf : Params.chosen.wf :=
  ⟨by decide, by decide, by decide, by decide, Nat.le_refl _⟩

/-- Settles O55: every register is 0, no memory lists an entry, and no command runs. -/
theorem invariantHoldsAtReset : Obligations.InvariantHoldsAtReset where
  params := params_chosen_wf
  memory := ⟨Memory.wf_nil, Memory.wf_nil, Memory.wf_nil, nofun, nofun, nofun⟩
  widths := ⟨Nat.two_pow_pos _, Nat.two_pow_pos _, Nat.two_pow_pos _, Nat.two_pow_pos _, Nat.two_pow_pos _, nofun⟩
  result := ⟨nofun, nofun, fun h => absurd rfl h, nofun, nofun, nofun, nofun, fun h => absurd rfl h, Nat.zero_le _⟩
  command := commandInv_idle rfl

/-! ### A started command ends -/

/-- Register reads and engine moves neither stop the block nor touch the moves to come. -/
theorem step_of_read_or_engine {s : State} {m : Move} {rest : List Move} (hin : s.inputs = m :: rest)
    (hm : (∃ r, m = .host (.rdReg r)) ∨ ∃ e, m = .engine e) : ∃ t, step s = .next t ∧ t.inputs = rest := by
  rcases hm with ⟨r, rfl⟩ | ⟨e, rfl⟩
  · exact ⟨_, step_rdReg hin, rfl⟩
  · refine ⟨_, step_engine_eq hin, ?_⟩
    exact congrArg State.inputs (within_engineStep e s rest)

/-- With no move left one step leaves the block idle: a running command completes (rule R134). -/
theorem step_of_no_inputs_idle {s : State} (hin : s.inputs = []) : ∃ t, step s = .next t ∧ t.status.busy = false := by
  cases hb : s.status.busy with
  | false => exact ⟨s, step_idle_of_no_inputs hb hin, hb⟩
  | true =>
    rw [step_of_no_inputs hin hb]
    cases ho : s.status.op with
    | encode =>
      rw [currentCommand_of_encode ho]
      exact ⟨_, execEncode_running ⟨hb, ho⟩, completeEncode_idle⟩
    | decode =>
      rw [currentCommand_of_decode ho]
      exact ⟨_, execDecode_running ⟨hb, ho⟩, completeDecode_idle⟩

/-- Settles O54: by induction over the moves to come, each of which gives a next state. -/
theorem commandEndsOnceTheMovesAreMade : Obligations.CommandEndsOnceTheMovesAreMade := by
  intro s hs
  induction hin : s.inputs generalizing s with
  | nil =>
    obtain ⟨t, ht, hb⟩ := step_of_no_inputs_idle hin
    exact ⟨t, run_one ht, hb⟩
  | cons m rest ih =>
    rw [hin] at hs
    obtain ⟨u, hu, hrest⟩ := step_of_read_or_engine hin (hs m List.mem_cons_self)
    rw [List.length_cons, run_succ _ hu]
    exact ih u (fun x hx => hs x (List.mem_cons_of_mem m (hrest ▸ hx))) hrest

end Sys2Proof.Machine
end

section
/-! The completion steps of ENCODE and DECODE (rules R71 to R90): what each writes and reports, the capacity check by its
thresholds, and the round trip (rules R81, R97). -/

namespace Sys2Proof.Machine

/-! ### ENCODE -/

theorem completeEncode_reports_ok {s : State} (hr : s.Running .encode) (h : ¬ s.overfull) :
    (completeEncode s).status = { busy := false, done := true, result := .ok, op := .encode } := by
  rw [completeEncode_of_fits h, finish_status, Status.completed, hr.2]

theorem completeEncode_pix_of_fits {s : State} (h : ¬ s.overfull) : (completeEncode s).pix = s.encodedPix := by
  rw [completeEncode_of_fits h]; rfl

theorem completeEncode_olen (s : State) : (completeEncode s).olen = s.olen := by
  unfold completeEncode; split <;> rfl

theorem completeEncode_op (s : State) : (completeEncode s).status.op = s.status.op := by
  unfold completeEncode; split <;> rfl

theorem completeEncode_done (s : State) : (completeEncode s).status.done = true := by
  unfold completeEncode; split <;> rfl

theorem completeEncode_result (s : State) :
    (completeEncode s).status.result = if s.overfull then .capacityExceeded else .ok := by
  unfold completeEncode; split <;> rfl

theorem completeEncode_result_ok_iff (s : State) :
    (completeEncode s).status.result = .ok ↔ requiredBits s.l ≤ capacity s.n := by
  rw [completeEncode_result, ← not_overfull]
  split
  case isTrue h => simp [h]
  case isFalse h => simp [h]

theorem completeEncode_result_cases (s : State) :
    (completeEncode s).status.result = .ok ∨ (completeEncode s).status.result = .capacityExceeded := by
  rw [completeEncode_result]
  split
  · exact .inr rfl
  · exact .inl rfl

/-- Settles O28: the samples of `encodedPix` by slot and by alpha, every address being one or the other. -/
theorem encodeEmbedsTheFrame : Obligations.EncodeEmbedsTheFrame := by
  intro s hr hfit
  have hnot := not_overfull.2 hfit
  have hpixel : ∀ a, (completeEncode s).pixel a = pixAt s.encodedPix a := fun a => by
    rw [State.pixel, completeEncode_pix_of_fits hnot]
  refine ⟨completeEncode s, execEncode_running hr, completeEncode_reports_ok hr hnot, fun k hk => ?slots,
    fun p hp => ?alphas, fun a hslot halpha => ?others, ?frame⟩
  case slots => rw [hpixel, pixAt_encodedPix_slot, if_pos hk]; rfl
  case alphas => exact (hpixel _).trans ((pixAt_encodedPix_alpha s p).trans (if_pos hp))
  case others =>
    rw [hpixel]
    rcases slot_or_alpha a with ⟨k, rfl⟩ | ⟨p, rfl⟩
    · exact (pixAt_encodedPix_slot s k).trans (if_neg fun hk => hslot k hk rfl)
    · exact (pixAt_encodedPix_alpha s p).trans (if_neg fun hp => halpha p hp rfl)
  case frame => rw [completeEncode_of_fits hnot]; rfl

/-- Settles O30: the outcome is the inequality `B ≤ C`, which each threshold restates. -/
theorem capacityCheckThresholds : Obligations.CapacityCheckThresholds := by
  intro s hr
  have hok : (completeEncode s).status.result = .ok ↔ 8 * (5 + s.l + 1) ≤ 3 * s.n := completeEncode_result_ok_iff s
  have hcases := completeEncode_result_cases s
  refine ⟨completeEncode s, execEncode_running hr, hok.trans (by omega), hok.trans (by omega), fun hn => ?_, hcases⟩
  exact hcases.resolve_left fun h => absurd (hok.1 h) (by omega)

/-! ### ENCODE issued twice -/

/-- Embedding a frame where it already stands changes no sample: its bits and its forced alphas are there. -/
theorem pixAt_encodedPix_of_encoded {s s' : State} (hm : s'.message = s.message) (hp : s'.pix = s.encodedPix) (a : Nat) :
    pixAt s'.encodedPix a = pixAt s'.pix a := by
  have hl := l_eq_of_message hm
  rcases slot_or_alpha a with ⟨k, rfl⟩ | ⟨p, rfl⟩
  · rw [pixAt_encodedPix_slot]
    split
    case isTrue hk =>
      rw [hp, pixAt_encodedPix_slot, ← hl, if_pos hk, ← frameBit_congr hm hk, withLsb_withLsb]
    case isFalse => rfl
  · rw [pixAt_encodedPix_alpha]
    split
    case isTrue hp' => rw [hp, pixAt_encodedPix_alpha, ← hl, if_pos hp']
    case isFalse => rfl

/-- A second completion step over the samples of the first. -/
theorem completeEncode_again {s s' : State} (hn : s'.n = s.n) (hm : s'.message = s.message)
    (hp : s'.pix = (completeEncode s).pix) (a : Nat) : (completeEncode s').pixel a = (completeEncode s).pixel a := by
  by_cases h : s.overfull
  · have h' : s'.overfull := by unfold State.overfull; rw [hn, l_eq_of_message hm]; exact h
    unfold State.pixel
    rw [← hp, completeEncode_of_overfull h', finish_pix]
  · have h' : ¬ s'.overfull := by unfold State.overfull; rw [hn, l_eq_of_message hm]; exact h
    have hpix := hp.trans (completeEncode_pix_of_fits h)
    unfold State.pixel
    rw [← hp, completeEncode_pix_of_fits h']
    exact pixAt_encodedPix_of_encoded hm hpix a

/-- Settles O31: the first run leaves the block idle with its operands, and samples that hold the frame. -/
theorem secondEncodeChangesNoSample : Obligations.SecondEncodeChangesNoSample := by
  intro s hs
  have first := (begun_frame s .encode).trans (completeEncode_frame _)
  have second := (completeEncode_frame (s.begun .encode)).trans (begun_frame _ .encode)
  refine ⟨_, _, (issued_encode hs).2 rfl, (issued_encode (first.accepts completeEncode_idle hs)).2 rfl,
    completeEncode_again second.n second.message rfl, ?_⟩
  exact (completeEncode_congr second.n second.message rfl rfl).1

/-! ### DECODE -/

/-- After the end of a DECODE an output from the given index on is unspecified (rule R25). -/
theorem finishDecode_output (r : Result) {k i : Nat} (h : k ≤ i) (s : State) :
    (finishDecode r k s).output i = Config.anyOut s.draws i := by
  unfold State.output outAt
  rw [finishDecode_out, get?_below, if_neg (Nat.not_lt.2 h)]
  rfl

theorem completeDecode_output_of_ge {s : State} {i : Nat} (h : (completeDecode s).olen ≤ i) :
    (completeDecode s).output i = Config.anyOut s.draws i := by
  cases hp : parseFrame s.streamBytes with
  | none => rw [completeDecode_of_none hp]; exact finishDecode_output _ (Nat.zero_le i) s
  | some y =>
    rw [completeDecode_of_some hp] at h ⊢
    exact finishDecode_output _ h _

theorem completeDecode_done (s : State) : (completeDecode s).status.done = true := by
  unfold completeDecode; split <;> rfl

theorem completeDecode_op (s : State) : (completeDecode s).status.op = s.status.op := by
  unfold completeDecode; split <;> rfl

theorem completeDecode_result_cases (s : State) :
    (completeDecode s).status.result = .ok ∨
      ((completeDecode s).status.result = .notFound ∧ (completeDecode s).olen = s.olen) := by
  cases hp : parseFrame s.streamBytes with
  | none => rw [completeDecode_of_none hp]; exact .inr ⟨rfl, rfl⟩
  | some y => rw [completeDecode_of_some hp]; exact .inl rfl

/-- The completion step of DECODE writes no sample and no operand. -/
theorem completeDecode_eq (s : State) :
    completeDecode s =
      { s with status := (completeDecode s).status, olen := (completeDecode s).olen, out := (completeDecode s).out,
               outDraw := (completeDecode s).outDraw, work := (completeDecode s).work,
               draws := (completeDecode s).draws } := by
  refine (completeDecode_frame s).eq.trans ?_
  rw [completeDecode_pix]

/-- Settles O33: by the frame of the completion step and the free values it leaves in `OUT`. -/
theorem decodeLeavesBufferAndOperands : Obligations.DecodeLeavesBufferAndOperands := fun s hr =>
  ⟨completeDecode s, execDecode_running hr, completeDecode_idle, completeDecode_done s,
    (completeDecode_op s).trans hr.2, fun _ => completeDecode_output_of_ge, completeDecode_eq s⟩

/-- Settles O34: a payload is no longer than the stream allows and stands before the first zero byte. -/
theorem decodedMessageIsBoundedAndHasNoZero : Obligations.DecodedMessageIsBoundedAndHasNoZero := by
  intro s hr h0
  refine ⟨completeDecode s, execDecode_running hr, ?_⟩
  cases hp : parseFrame s.streamBytes with
  | none =>
    rw [(completeDecode_reports_notFound hr hp).2, h0]
    exact ⟨Nat.zero_le _, nofun⟩
  | some y =>
    rw [(completeDecode_reports_ok hr hp).2]
    refine ⟨payload_length hp, fun i hi => ?_⟩
    rw [completeDecode_output hp hi, List.getD_eq_getElem?_getD, List.getElem?_eq_getElem hi]
    exact (parseFrame_some hp).1 _ (List.getElem_mem hi)

/-- Settles O38: each completion step has two branches, both of which end the command. -/
theorem everyCommandEndsWithItsOutcome : Obligations.EveryCommandEndsWithItsOutcome := fun s =>
  ⟨fun hr => ⟨_, execEncode_running hr, completeEncode_idle, completeEncode_done s, (completeEncode_op s).trans hr.2,
      completeEncode_olen s, completeEncode_result_cases s⟩,
    fun hr => ⟨_, execDecode_running hr, completeDecode_idle, completeDecode_done s, (completeDecode_op s).trans hr.2,
      completeDecode_result_cases s⟩⟩

/-! ### The round trip -/

/-- A frame that fits is whole bytes of the stream: its bits are a multiple of 8 (rule R94). -/
theorem requiredBits_le_stream {s : State} (h : requiredBits s.l ≤ capacity s.n) :
    requiredBits s.l ≤ 8 * wholeBytes s.n := by
  unfold requiredBits capacity at *
  unfold wholeBytes
  omega

/-- The stream of a buffer that an ENCODE has written begins with the bytes of the frame. -/
theorem streamBytes_of_encoded {s s' : State} (hn : s'.n = s.n) (hp : s'.pix = s.encodedPix)
    (hfit : requiredBits s.l ≤ capacity s.n) : ∃ tail, s'.streamBytes = frameBytes s.message ++ tail := by
  have hB := requiredBits_le_stream hfit
  have hframe : extract s.encodedPix 0 (requiredBits s.l) = serialize (frameBytes s.message) := by
    rw [extract_encodedPix s (Nat.le_refl _), List.take_of_length_le (Nat.le_of_eq (frameBits_length s))]
  obtain ⟨r, hr⟩ := Nat.exists_eq_add_of_le hB
  rw [streamBytes_eq, hn, hp, hr, extract_append, hframe, bytesOf_serialize_append]
  exact ⟨_, rfl⟩

/-- What stands before the first terminator of a frame, whatever follows it: the header and the message up to its first
zero byte. -/
theorem takeWhile_frameBytes (m : List Nat) (tail : List Byte) :
    (frameBytes m ++ tail).takeWhile (· != terminator) = magic ++ (m.map trunc8).takeWhile (· != terminator) := by
  have cut : ∀ bytes : List Byte, (bytes ++ terminator :: tail).takeWhile (· != terminator) =
      bytes.takeWhile (· != terminator) := fun bytes => by
    induction bytes with
    | nil => rfl
    | cons b bs ih => rw [List.cons_append, List.takeWhile_cons, List.takeWhile_cons, ih]
  have header : ∀ x ∈ magic, (x != terminator) = true := fun x hx => bne_iff_ne.2 (magic_nonzero x hx)
  rw [frameBytes, List.append_assoc, List.append_assoc, List.takeWhile_append_of_pos header]
  exact congrArg (magic ++ ·) (cut _)

theorem parseFrame_frameBytes (m : List Nat) (tail : List Byte) :
    parseFrame (frameBytes m ++ tail) = some ((m.map trunc8).takeWhile (· != terminator)) := by
  have hlen := ((m.map trunc8).takeWhile_prefix (· != terminator)).length_le
  rw [List.length_map] at hlen
  unfold parseFrame
  dsimp only
  rw [takeWhile_frameBytes, if_pos]
  · exact congrArg some (List.drop_left' magic_length)
  · refine ⟨?_, List.isPrefixOf_iff_prefix.2 (List.prefix_append _ _)⟩
    rw [List.length_append, List.length_append, frameBytes_length, magic_length]
    omega

theorem trunc8_ne_terminator {c : Nat} (h1 : 1 ≤ c) (h2 : c ≤ 255) : trunc8 c ≠ terminator := fun h => by
  have hc : c = 0 := (zextCpw_trunc8 h2).symm.trans (congrArg zextCpw h)
  omega

theorem decodedText_eq (s : State) : s.decodedText = s.decodedBytes.map zextCpw := by
  unfold State.decodedText State.decodedBytes
  rw [List.map_map]
  rfl

/-- Settles O36: the ENCODE leaves a buffer whose stream begins with the frame, of which the DECODE parses the message. -/
theorem decodeAfterEncodeReturnsTheMessage : Obligations.DecodeAfterEncodeReturnsTheMessage := by
  intro s hs hfit
  have hnot : ¬ (s.begun .encode).overfull := not_overfull.2 hfit
  have first := (begun_frame s .encode).trans (completeEncode_frame _)
  have hacc : (completeEncode (s.begun .encode)).Accepts .decode :=
    first.accepts completeEncode_idle ⟨hs.1, hs.2.1, nofun⟩
  have second := (completeEncode_frame (s.begun .encode)).trans (begun_frame _ .decode)
  obtain ⟨tail, hstream⟩ := streamBytes_of_encoded second.n (completeEncode_pix_of_fits hnot) hfit
  have hparse := (congrArg parseFrame hstream).trans (parseFrame_frameBytes s.message tail)
  obtain ⟨hst, holen⟩ := completeDecode_reports_ok (begun_running _ .decode) hparse
  have hbytes := decodedBytes_of_some hparse
  refine ⟨_, _, (issued_encode hs).2 rfl, (issued_decode hacc).2 rfl, hst, hbytes, fun hm => ?_⟩
  have hall : (s.message.map trunc8).takeWhile (· != terminator) = s.message.map trunc8 := by
    rw [List.takeWhile_eq_self_iff, List.forall_mem_map]
    exact fun c hc => bne_iff_ne.2 (trunc8_ne_terminator (hm c hc).1 (hm c hc).2)
  rw [hall] at hbytes holen
  refine ⟨?olen, ?text⟩
  case olen => rw [holen, List.length_map, message_length]; rfl
  case text => rw [decodedText_eq, hbytes, map_zextCpw_trunc8_eq_self.2 fun c hc => (hm c hc).2]

end Sys2Proof.Machine
end

section
/-! The frame symbols as steps (rules R47, R48, R52, R82, R92): what an emitted symbol leaves in the buffer, and what a symbol
taken in leaves in the working registers and `OUT`. -/

namespace Sys2Proof.Machine

/-! ### ENCODE emits a symbol -/

theorem symbolBytes_ne_nil {i : Instr} {start : Bool} {bits : List Bool} (h : encode i = .stream start bits) :
    symbolBytes i ≠ [] := by
  cases i with
  | encode | decode | nop => cases h
  | magic | data | term => exact List.cons_ne_nil _ _

section
variable {s u : State} {f : Nat → Bool} {n : Nat}

theorem Emitted.pixel_slot (h : Emitted s f n u) {k : Nat} (h1 : s.work.cursor ≤ k) (h2 : k < s.work.cursor + n) :
    u.pixel (slot k) = withLsb (s.pixel (slot k)) (f k) := by
  rw [State.pixel, pixAt, h.slots, if_pos ⟨h1, h2⟩]; rfl

theorem Emitted.pixel_slot_outside (h : Emitted s f n u) {k : Nat}
    (hk : ¬ (s.work.cursor ≤ k ∧ k < s.work.cursor + n)) : u.pixel (slot k) = s.pixel (slot k) := by
  rw [State.pixel, pixAt, h.slots, if_neg hk]; rfl

theorem Emitted.pixel_alpha (h : Emitted s f n u) (p : Nat) :
    u.pixel (alphaAddr p) =
      if s.work.cursor ≤ lastSlot (requiredBits s.l) p ∧ lastSlot (requiredBits s.l) p < s.work.cursor + n ∧
          3 * p < requiredBits s.l
      then alphaForced else s.pixel (alphaAddr p) := by
  rw [State.pixel, pixAt, h.alphas]; split <;> rfl

/-- Whole bytes emitted leave the bit counter where it was and step the byte index. -/
theorem Emitted.whole_bytes {j : Nat} (h : Emitted s f (8 * j) u) :
    u.work.nb = s.work.nb ∧ u.work.bi = s.work.bi + j := by
  have hlt := s.work.nb.isLt
  refine ⟨BitVec.eq_of_toNat_eq ?_, ?_⟩
  · rw [h.nb, BitVec.toNat_add, BitVec.toNat_ofNat]; omega
  · rw [h.bi]; omega

end

/-- Settles O41: an emitted run of bits says what it does to every slot, alpha and working register; the command ends when
the run reaches bit `B`. -/
theorem encodeEmitsASymbol : Obligations.EncodeEmitsASymbol := by
  intro s i start bits hr hfit hi
  obtain ⟨hexec, rfl⟩ := exec_symbol hi s
  obtain ⟨u, hu, hsr, heq⟩ := emitBytes_emits (not_overfull.2 hfit) (symbolBytes i)
  rw [serialize_length]
  generalize hj : (symbolBytes i).length = j at *
  refine ⟨emitBytes (symbolBytes i) s, hexec.trans (passBytes_encode hr _), ?_⟩
  have hpix : (emitBytes (symbolBytes i) s).pixel = u.pixel := by
    rw [heq]; split <;> rfl
  rw [hpix]
  refine ⟨fun k h1 h2 => hu.pixel_slot h1 (by omega), fun k hk => hu.pixel_slot_outside (by omega), fun p => ?alphas,
    fun hlt => ?goesOn, fun hge => ?ends, ?frame⟩
  case alphas =>
    refine (hu.pixel_alpha p).trans ?_
    unfold lastSlot
    exact if_congr (by omega) rfl rfl
  case goesOn =>
    rw [show min (8 * j) (requiredBits s.l - s.work.cursor) = 8 * j by omega] at hu
    obtain ⟨hnb, hbi⟩ := hu.whole_bytes
    rw [heq, if_pos hlt, Nat.mul_div_cancel_left j (by decide)]
    exact ⟨by rw [hu.frame], hu.cursor, hnb, hbi, hsr hlt (symbolBytes_ne_nil hi), hu.hok⟩
  case ends => rw [heq, if_neg (by omega), finish_status, hu.frame]
  case frame =>
    rw [heq]
    split
    · rw [hu.frame]
    · rw [hu.frame]; rfl

/-- Settles O42: the capacity check stands before the first bit, so the symbol is the end of the command alone. -/
theorem symbolOfAnOverfullFrameFails : Obligations.SymbolOfAnOverfullFrameFails := by
  intro s i start bits hr (hover : s.overfull) hi
  refine ⟨finish .capacityExceeded s, ?_, rfl, finish_eq_withStatusWorkDraws _ s⟩
  rw [(exec_symbol hi s).1, passBytes_encode hr, emitBytes_of_overfull hover]

/-! ### DECODE takes a symbol in -/

theorem exec_data_decode {s : State} (hr : s.Running .decode) (d : Byte) :
    exec (.data d) s = .next (takeByte s d) := by
  rw [← takeBytes_singleton hr.1 d]
  exact passBytes_decode hr [d]

theorem takeByte_running {s : State} (hr : s.Running .decode) {d : Byte} (hd : d ≠ terminator) :
    (takeByte s d).Running .decode := by
  rw [takeByte_nonzero s hd]; exact ⟨hr.1, hr.2⟩

/-- A header byte is compared; no output is written for it. -/
theorem outAfterByte_header {s : State} (h : s.work.bi < 5) (d : Byte) : outAfterByte s d = s.out :=
  if_neg (by omega)

theorem outAfterByte_payload {s : State} (h5 : 5 ≤ s.work.bi) (h : s.work.bi - 5 < outBound s.n) (d : Byte) :
    outAfterByte s d = s.out.put (s.work.bi - 5) d := if_pos ⟨h5, h⟩

/-- Rule R45 leaves no entry for a byte at or above the bound. -/
theorem outAfterByte_beyond {s : State} (h : outBound s.n ≤ s.work.bi - 5) (d : Byte) : outAfterByte s d = s.out :=
  if_neg (by omega)

theorem outAt_outAfterByte_ne {s : State} {i : Nat} (h : i ≠ s.work.bi - 5) (d : Byte) :
    outAt (outAfterByte s d) s.outDraw i = outAt s.out s.outDraw i := by
  unfold outAfterByte
  split
  · rw [outAt_put, if_neg h]
  · rfl

/-- Settles O43: by the one rule for a byte other than zero, its `OUT` by the byte's place in the frame. -/
theorem decodeTakesADataByte : Obligations.DecodeTakesADataByte := by
  intro s d hr hd
  refine ⟨_, (exec_data_decode hr d).trans (congrArg _ (takeByte_nonzero s hd)), afterByte_cursor _ d, rfl,
    afterByte_nb _ d, rfl, fun h5 => ⟨?headerFlag, outAfterByte_header h5 d⟩,
    fun h5 => ⟨?payloadFlag, fun h => ?stored, fun h => outAfterByte_beyond h d, fun i hi => outAt_outAfterByte_ne hi d⟩,
    rfl⟩
  case headerFlag => exact (afterByte_hok _ d).trans (if_pos h5)
  case payloadFlag => exact (afterByte_hok _ d).trans (if_neg (Nat.not_lt.2 h5))
  case stored =>
    have hout := outAfterByte_payload h5 h d
    show outAt (outAfterByte s d) s.outDraw _ = d
    rw [hout, outAt_put, if_pos rfl]

theorem exec_magic_decode {s : State} (hr : s.Running .decode) : exec .magic s = .next (afterBytes s magic) := by
  rw [← takeBytes_nonzero hr.1 magic_nonzero]
  exact passBytes_decode hr magic

theorem afterBytes_magic (s : State) :
    afterBytes s magic =
      takeByte (takeByte (takeByte (takeByte (takeByte s 0x53#8) 0x54#8) 0x45#8) 0x47#8) 0x4F#8 := by
  unfold afterBytes magic
  simp only [List.foldl_cons, List.foldl_nil]
  rfl

theorem magic_getD {i : Nat} (h : i < 5) : magic.getD i 0 = magicByte i := by
  rw [List.getD_eq_getElem?_getD, magic_getElem? h]; rfl

/-- Settles O44: the header is a run of bytes other than zero, which is taken in byte by byte. -/
theorem decodeTakesTheHeader : Obligations.DecodeTakesTheHeader := by
  intro s hr
  refine ⟨?bytes, fun h0 => ?atStart⟩
  case bytes =>
    have ha := takeByte_running (d := 0x53#8) hr (by decide)
    have hb := takeByte_running (d := 0x54#8) ha (by decide)
    have hc := takeByte_running (d := 0x45#8) hb (by decide)
    have hd := takeByte_running (d := 0x47#8) hc (by decide)
    exact ⟨_, _, _, _, _, exec_data_decode hr _, exec_data_decode ha _, exec_data_decode hb _, exec_data_decode hc _,
      exec_data_decode hd _, afterBytes_magic s ▸ exec_magic_decode hr⟩
  case atStart =>
    have taken := taken_afterBytes h0 magic magic_nonzero
    have hout : (afterBytes s magic).out = s.out := taken.out.trans (by simp [magic, Memory.putAll])
    refine ⟨_, exec_magic_decode hr, taken.cursor, taken.bi, ?_, taken.nb, ?_⟩
    · exact Bool.eq_iff_iff.2 (taken.hok.trans (and_iff_left fun i hi _ => magic_getD hi))
    · have hframe := taken.frame
      rwa [hout] at hframe

theorem exec_term_decode {s : State} (hr : s.Running .decode) : exec .term s = .next (takeByte s terminator) :=
  exec_data_decode hr terminator

/-- The end of a DECODE leaves an output below the given index as it was. -/
theorem outAt_below {m : Memory Byte} {k i : Nat} (h : i < k) (d : Nat) : outAt (m.below k) d i = outAt m d i := by
  unfold outAt
  rw [get?_below, if_pos h]

/-- Settles O45: `TERM` is the zero byte, which ends the command by the byte index and the header flag. -/
theorem terminatorEndsDecode : Obligations.TerminatorEndsDecode := by
  intro s hr
  refine ⟨rfl, takeByte s terminator, exec_term_decode hr, fun h5 hhok => ?ok, fun hfail => ?notFound, ?frame⟩
  case ok =>
    rw [takeByte_zero, if_pos ⟨h5, hhok⟩]
    exact ⟨rfl, rfl, fun i hi => outAt_below hi _, fun i hi => finishDecode_output _ hi _⟩
  case notFound =>
    rw [takeByte_zero, if_neg (by rintro ⟨h5, hhok⟩; exact hfail.elim (by omega) (by simp [hhok]))]
    exact ⟨rfl, rfl, fun i => finishDecode_output _ (Nat.zero_le i) s⟩
  case frame =>
    refine (takeByte_frame s terminator).eq.trans ?_
    rw [takeByte_pix]

end Sys2Proof.Machine
end

section
/-! The reference sequences against the completion steps (rules R43, R82, R92, R135): beats and symbols end in the state of
the completion, after the number of beats the table counts. -/

namespace Sys2Proof.Machine

/-! ### Runs against the completion step -/

theorem engineStep_completeEncode {s : State} (hr : s.Running .encode) :
    engineStep .complete s = completeEncode s := by
  unfold engineStep; rw [hr.1, hr.2]; rfl

theorem engineStep_completeDecode {s : State} (hr : s.Running .decode) :
    engineStep .complete s = completeDecode s := by
  unfold engineStep; rw [hr.1, hr.2]; rfl

theorem running_of_started {s : State} {op : Op} (hs : s.status = Status.started op) : s.Running op := by
  unfold State.Running; rw [hs]; exact ⟨rfl, rfl⟩

/-- Engine moves of one kind that add up to the completion step run to the state it runs to. -/
theorem run_engine_eq_complete {e : EngineMove} {n : Nat} {s : State}
    (h : engineSteps e n s = engineStep .complete s) (rest : List Move) :
    core.run n { s with inputs := List.replicate n (.engine e) ++ rest } =
      core.run 1 { s with inputs := .engine .complete :: rest } := by
  refine (run_engine e n s rest).trans ?_
  rw [h]
  exact (run_complete rest).symm

/-- Settles O46: the beats add up to the completion step, and the moves to come are no part of either. -/
theorem encodeBeatsRefineCompletion : Obligations.EncodeBeatsRefineCompletion := by
  intro s n rest hs hw hp hn
  refine run_engine_eq_complete ?_ rest
  rw [encodeBeats_complete hs hw hp hn, engineStep_completeEncode (running_of_started hs)]

/-- Settles O47: the beats add up to the completion step, and the moves to come are no part of either. -/
theorem decodeBeatsRefineCompletion : Obligations.DecodeBeatsRefineCompletion := by
  intro s n rest hs hw hn h1
  refine run_engine_eq_complete ?_ rest
  rw [decodeBeats_complete hs hw hn h1, engineStep_completeDecode (running_of_started hs)]

/-- The symbols of a DECODE, from the start of the stream on. -/
theorem decodeSymbols_complete {s : State} (hs : s.status = Status.started .decode) (hw : s.work = Work.started)
    {n : Nat} (hn : wholeBytes s.n + 1 ≤ n) : engineSteps .symbol n s = completeDecode s :=
  symbolsFrom hs hw (wholeBytes s.n) 0 rfl (Nat.zero_le _) nofun n hn

/-- Settles O48: the symbols of either command add up to its completion step. -/
theorem symbolsRefineCompletion : Obligations.SymbolsRefineCompletion := by
  intro s n rest hw
  refine ⟨fun hs hp hn => run_engine_eq_complete ?_ rest, fun hs hn => run_engine_eq_complete ?_ rest⟩
  · rw [encodeSymbols_complete hs hw hp hn, engineStep_completeEncode (running_of_started hs)]
  · rw [decodeSymbols_complete hs hw hn, engineStep_completeDecode (running_of_started hs)]

/-! ### The count of beats -/

/-- A command that is busy after fewer beats than the count and idle after as many or more. -/
def TakesBeats (s : State) (count : Nat) : Prop :=
  (∀ n < count, (engineSteps .beat n s).status.busy = true) ∧
    ∀ n, count ≤ n → (engineSteps .beat n s).status.busy = false

/-- The beats that end a command leave nothing for the later ones to do. -/
theorem TakesBeats.of_end {s t : State} {count : Nat} (hlt : ∀ n < count, (engineSteps .beat n s).status.busy = true)
    (hend : engineSteps .beat count s = t) (ht : t.status.busy = false) : TakesBeats s count :=
  ⟨hlt, fun _ hn => (congrArg (fun u : State => u.status.busy) (engineSteps_of_le hend ht hn)).trans ht⟩

theorem takesBeats_encode_overfull {s : State} (hs : s.status = Status.started .encode) (h : s.overfull) :
    TakesBeats s 1 := by
  have hr := running_of_started hs
  refine .of_end (t := finish .capacityExceeded s) (fun n hn => ?_) ?_ rfl
  · rw [Nat.lt_one_iff.1 hn]; exact hr.1
  · exact (engineStep_encodeBeat hr).trans (encodeBeat_of_overfull h)

theorem takesBeats_encode_fits {s : State} (hs : s.status = Status.started .encode) (hw : s.work = Work.started)
    (h : ¬ s.overfull) : TakesBeats s (1 + requiredBits s.l) := by
  have hr := running_of_started hs
  have emitted := fun n hn => (encodeBeats hs hw h n hn).1
  have last := emitted (requiredBits s.l) (Nat.le_refl _)
  refine .of_end (t := finish .ok (engineSteps .beat (requiredBits s.l) s)) (fun n hn => ?_) ?_ rfl
  · exact ((emitted n (by omega)).running hr).1
  · have hfit : ¬ (engineSteps .beat (requiredBits s.l) s).overfull := by
      unfold State.overfull; rw [last.l, last.n]; exact h
    rw [Nat.add_comm, engineSteps_succ, engineStep_encodeBeat (last.running hr), encodeBeat_of_done hfit]
    rw [last.l, last.cursor]
    exact Nat.le_add_left _ _

/-- Stream bytes that are not zero by their sum are no terminators. -/
theorem streamBytes_take_nonzero {s : State} {t : Nat} (h : ∀ j < t, j < wholeBytes s.n → s.streamByte j ≠ 0) :
    ∀ x ∈ s.streamBytes.take t, x ≠ terminator := by
  rintro x hx rfl
  obtain ⟨j, hj⟩ := List.mem_iff_getElem?.1 hx
  rw [List.getElem?_take] at hj
  split at hj
  case isFalse => cases hj
  case isTrue hjt =>
    have hjM : j < wholeBytes s.n := by
      obtain ⟨hlt, -⟩ := List.getElem?_eq_some_iff.1 hj
      rwa [streamBytes_length] at hlt
    exact h j hjt hjM ((streamBytes_zero s hjM).1 hj)

theorem takesBeats_decode_terminator {s : State} (hs : s.status = Status.started .decode) (hw : s.work = Work.started)
    {t : Nat} (ht : s.TerminatorAt t) : TakesBeats s (8 * (t + 1)) := by
  obtain ⟨htM, hzero, hbefore⟩ := ht
  have h3 := wholeBytes_mul s.n
  have nonzero : ∀ j ≤ t, ∀ x ∈ s.streamBytes.take j, x ≠ terminator := fun j hj =>
    streamBytes_take_nonzero fun i hi _ => hbefore i (by omega)
  have hterm : byteAt s.pix (8 * t) = terminator := BitVec.eq_of_toNat_eq ((streamByte_eq s t).symm.trans hzero)
  refine .of_end (t := completeDecode s) (fun n hn => ?_) ?_ completeDecode_idle
  · exact (decodeBeats_running hs hw (by omega) (nonzero (n / 8) (by omega))).1
  · exact decodeBeats_zero hs hw htM (nonzero t (Nat.le_refl t)) hterm

theorem takesBeats_decode_exhausted {s : State} (hs : s.status = Status.started .decode) (hw : s.work = Work.started)
    (h : ∀ x, ¬ s.TerminatorAt x) : TakesBeats s (max (3 * s.n) 1) := by
  have nonzero : ∀ x ∈ s.streamBytes, x ≠ terminator := by
    rcases stream_split s with hz | ⟨t, ht, hz, h0⟩
    · exact hz
    · refine absurd ⟨ht, ?_, fun j hj hj0 => ?_⟩ (h t)
      · rw [streamByte_eq, h0]; rfl
      · have hmem : s.streamBytes[j]? = some terminator := (streamBytes_zero s (by omega)).2 hj0
        refine hz terminator (List.mem_of_getElem? (i := j) ?_) rfl
        rw [List.getElem?_take_of_lt hj, hmem]
  refine .of_end (fun n hn => ?_) (decodeBeats_exhausted hs hw nonzero) rfl
  exact (decodeBeats_running hs hw (by omega) fun x hx => nonzero x (List.mem_of_mem_take hx)).1

/-- Settles O49: the four rows of the count, each by the state its beats have reached. -/
theorem commandsTakeTheirBeats : Obligations.CommandsTakeTheirBeats := by
  intro s rest count hw hrow n
  have takes : TakesBeats s count := by
    rcases hrow with ⟨hs, h, rfl⟩ | ⟨hs, h, rfl⟩ | ⟨hs, x, h, rfl⟩ | ⟨hs, h, rfl⟩
    · exact takesBeats_encode_overfull hs h
    · exact takesBeats_encode_fits hs hw (not_overfull.2 h)
    · exact takesBeats_decode_terminator hs hw h
    · exact takesBeats_decode_exhausted hs hw h
  exact ⟨_, run_engine .beat n s rest, takes.1 n, takes.2 n⟩

end Sys2Proof.Machine
end

section
/-! The invariant (rules R14 to R25, R45, R69): every move keeps it, and under it the engine stays inside the buffer. -/

namespace Sys2Proof.Machine

/-! ### What a single write does to the invariant -/

section
variable {s : State}

theorem popped_inv (h : s.Inv) : s.popped.Inv := Inv_congr h rfl rfl rfl rfl rfl rfl rfl rfl rfl

theorem pix_inv (h : s.Inv) {m : Memory Byte} (hwf : m.wf) (hb : ∀ e ∈ m, e.1 < 4 * s.params.pixcap) :
    ({ s with pix := m } : State).Inv where
  params := h.params
  memory := { h.memory with pixWf := hwf, pixBound := hb }
  widths := { h.widths with }
  result := { h.result with }
  command := { h.command with }

theorem msg_inv (h : s.Inv) {m : Memory Nat} (hwf : m.wf) (hb : ∀ e ∈ m, e.1 < s.params.mcap)
    (hv : ∀ e ∈ m, e.2 < 2 ^ s.params.cpw) : ({ s with msg := m } : State).Inv where
  params := h.params
  memory := { h.memory with msgWf := hwf, msgBound := hb }
  widths := { h.widths with entries := hv }
  result := { h.result with }
  command := { h.command with }

theorem out_inv (h : s.Inv) {m : Memory Byte} (hwf : m.wf) (hb : ∀ e ∈ m, e.1 < s.params.ocap) :
    ({ s with out := m } : State).Inv where
  params := h.params
  memory := { h.memory with outWf := hwf, outBound := hb }
  widths := { h.widths with }
  result := { h.result with }
  command := { h.command with }

/-- An idle block may take any operand of `W` bits: they are checked by the START. -/
theorem operands_inv (h : s.Inv) (hb : s.status.busy = false) {n l : Nat} (hn : n < 2 ^ s.params.w)
    (hl : l < 2 ^ s.params.w) : ({ s with npix := n, mlen := l } : State).Inv where
  params := h.params
  memory := { h.memory with }
  widths := { h.widths with npix := hn, mlen := hl }
  result := { h.result with }
  command := commandInv_idle hb

/-- The START checks the operands (rule R45) and puts the cursor at slot 0. -/
theorem begun_inv (h : s.Inv) {op : Op} (hn : s.n ≤ s.params.pixcap) (hl : op = .encode → s.l ≤ s.params.mcap) :
    (s.begun op).Inv where
  params := h.params
  memory := { h.memory with }
  widths := widths_with h (Nat.two_pow_pos _) (Nat.two_pow_pos _) (Nat.two_pow_pos _) _ _ _ _ _
  result := ⟨fun _ => rfl, fun _ => rfl, fun hne => absurd rfl hne, nofun, nofun, fun _ => rfl, fun _ => rfl,
    fun _ => rfl, Nat.zero_le _⟩
  command := ⟨fun _ => hn, fun _ => hl, fun _ => rfl, fun _ _ => .inl rfl, fun _ _ => Nat.zero_le _⟩

end

theorem registerWord_lt (q : Params) (v : Nat) : registerWord q v < 2 ^ q.w := Nat.mod_lt _ (Nat.two_pow_pos _)

theorem entryValue_lt (q : Params) (v : Nat) : entryValue q v < 2 ^ q.cpw := Nat.mod_lt _ (Nat.two_pow_pos _)

/-- A written entry keeps the width of an entry (rule R24). -/
theorem put_entries {m : Memory Nat} {q : Params} (h : ∀ e ∈ m, e.2 < 2 ^ q.cpw) (i v : Nat) :
    ∀ e ∈ m.put i (entryValue q v), e.2 < 2 ^ q.cpw := by
  intro e he
  rcases mem_put he with rfl | he
  · exact entryValue_lt q v
  · exact h e he

/-! ### The engine's moves -/

theorem finish_encode_inv {s : State} (h : s.Inv) (hr : s.Running .encode) {r : Result} (hne : r ≠ .notFound) :
    (finish r s).Inv :=
  finish_inv h r hr.1 (fun _ => hr.2) fun he => absurd he hne

theorem completeEncode_inv {s : State} (h : s.Inv) (hr : s.Running .encode) : (completeEncode s).Inv := by
  by_cases hf : s.overfull
  · rw [completeEncode_of_overfull hf]
    exact finish_encode_inv h hr nofun
  · rw [completeEncode_of_fits hf]
    have hfit : requiredBits s.l ≤ 3 * s.n := not_overfull.1 hf
    have hcap := h.command.pixels hr.1
    have hpix := pix_inv h (encodedPix_wf h.memory.pixWf) (encodedPix_bound h.memory.pixBound (by omega))
    exact finish_encode_inv hpix ⟨hr.1, hr.2⟩ nofun

theorem completeDecode_inv {s : State} (h : s.Inv) (hr : s.Running .decode) : (completeDecode s).Inv := by
  cases hp : parseFrame s.streamBytes with
  | none =>
    rw [completeDecode_of_none hp]
    exact finishDecode_inv h _ _ hr nofun
  | some y =>
    rw [completeDecode_of_some hp]
    have hlen := payload_length hp
    have hcap := outBound_le h hr.1
    exact finishDecode_ok_inv h _ _ hr _ (putAll_wf y 0 h.memory.outWf)
      (putAll_bound y 0 h.memory.outBound (by omega)) hlen

theorem encodeBeat_inv {s : State} (h : s.Inv) (hr : s.Running .encode) : (encodeBeat s).Inv := by
  by_cases hf : s.overfull
  · rw [encodeBeat_of_overfull hf]
    exact finish_encode_inv h hr nofun
  · rcases Nat.lt_or_ge s.work.cursor (requiredBits s.l) with hc | hc
    · exact emitted_inv h hr hf hc (encodeBeat_emits hf hc)
    · rw [encodeBeat_of_done hf hc]
      exact finish_encode_inv h hr nofun

theorem emitBytes_inv {s : State} (h : s.Inv) (hr : s.Running .encode) (bytes : List Byte) :
    (emitBytes bytes s).Inv := by
  by_cases hf : s.overfull
  · rw [emitBytes_of_overfull hf]
    exact finish_encode_inv h hr nofun
  · obtain ⟨u, hu, -, heq⟩ := emitBytes_emits hf bytes
    have hcursor := inv_encode_fits h hr
    have hinv : u.Inv := emitted_inv h hr hf (by omega) hu
    rw [heq]
    split
    · exact hinv
    · exact finish_encode_inv hinv (hu.running hr) nofun

/-- The bits of a symbol that the decoder has read lie within the buffer. -/
theorem decoded_within {s : State} {i : Instr} {rest : List Bool} (hi : decodeSymbol s = .instr i rest) :
    s.work.cursor + 8 * (symbolBytes i).length ≤ 3 * s.n := by
  obtain ⟨hbits, hsymbol⟩ := decodeStream_instr hi
  have hlen := congrArg List.length hbits
  rw [State.streamAhead, extract_length, List.length_append, serialize_length] at hlen
  have hpos : 1 ≤ (symbolBytes i).length := by
    rcases hsymbol with ⟨rfl, -⟩ | ⟨d, rfl, -⟩ | rfl <;> exact Nat.le_add_left 1 _
  omega

/-- No byte of a symbol but its last can be zero. -/
theorem symbolBytes_dropLast_nonzero (i : Instr) : ∀ x ∈ (symbolBytes i).dropLast, x ≠ terminator := by
  cases i with
  | magic => exact fun x hx => magic_nonzero x (List.mem_of_mem_dropLast hx)
  | encode | decode | nop | data | term => exact nofun

/-- Settles O56: by the inversion of a step, one lemma per move. -/
theorem everyStepKeepsTheInvariant : Obligations.EveryStepKeepsTheInvariant := by
  intro s t hinv h
  have hp := popped_inv hinv
  cases step_cases h with
  | nothing => exact hp
  | read => exact Inv_congr hp rfl rfl rfl rfl rfl rfl rfl rfl rfl
  | npix v hb => exact operands_inv hp hb (registerWord_lt _ v) hinv.widths.mlen
  | mlen v hb => exact operands_inv hp hb hinv.widths.npix (registerWord_lt _ v)
  | pix a v _ _ ha => exact pix_inv hp (put_wf a v hinv.memory.pixWf) (put_bound hinv.memory.pixBound ha)
  | msg i v _ _ hi =>
    exact msg_inv hp (put_wf i _ hinv.memory.msgWf) (put_bound hinv.memory.msgBound hi)
      (put_entries hinv.widths.entries i v)
  | out i v _ _ hi => exact out_inv hp (put_wf i v hinv.memory.outWf) (put_bound hinv.memory.outBound hi)
  | reset => exact resetEvent_inv hp
  | start op c _ _ _ hn hl => exact begun_inv hp hn hl
  | completeEncode hr => exact completeEncode_inv hp hr
  | completeDecode hr => exact completeDecode_inv hp hr
  | encodeBeat hr => exact encodeBeat_inv hp hr
  | decodeBeat hr => exact decodeBeat_inv hp hr
  | emit i hr => exact emitBytes_inv hp hr _
  | take i rest hr _ hnb hi =>
    exact takeBytes_inv hp hr hnb _ (decoded_within hi) (symbolBytes_dropLast_nonzero i)
  | tail hr => exact finishDecode_inv hp _ _ hr nofun

/-! ### The engine stays inside the buffer -/

/-- What rule R69 rules out, of the samples before and after a move. -/
def KeepsOutsideLsbs (s t : State) : Prop :=
  (∀ a, 4 * s.n ≤ a → t.pixel a = s.pixel a) ∧
  (∀ a i, a % 4 ≠ 3 → 1 ≤ i → (t.pixel a).getLsbD i = (s.pixel a).getLsbD i) ∧
  ∀ a, a % 4 = 3 → t.pixel a = s.pixel a ∨ t.pixel a = 255#8

theorem KeepsOutsideLsbs.of_pix_eq {s t : State} (h : t.pix = s.pix) : KeepsOutsideLsbs s t := by
  have hpixel : ∀ a, t.pixel a = s.pixel a := fun a => congrArg (pixAt · a) h
  exact ⟨fun a _ => hpixel a, fun a i _ _ => by rw [hpixel], fun a _ => .inl (hpixel a)⟩

theorem completeEncode_keepsOutsideLsbs (s : State) : KeepsOutsideLsbs s (completeEncode s) := by
  by_cases hf : s.overfull
  · rw [completeEncode_of_overfull hf]
    exact .of_pix_eq rfl
  · rw [completeEncode_of_fits hf]
    exact encoded_pixel (not_overfull.1 hf)

theorem encodeBeat_keepsOutsideLsbs (s : State) : KeepsOutsideLsbs s (encodeBeat s) := by
  by_cases hf : s.overfull
  · rw [encodeBeat_of_overfull hf]
    exact .of_pix_eq rfl
  · rcases Nat.lt_or_ge s.work.cursor (requiredBits s.l) with hc | hc
    · exact emitted_pixel (encodeBeat_emits hf hc) (not_overfull.1 hf) hc
    · rw [encodeBeat_of_done hf hc]
      exact .of_pix_eq rfl

theorem emitBytes_keepsOutsideLsbs {s : State} (hc : s.work.cursor ≤ requiredBits s.l) (bytes : List Byte) :
    KeepsOutsideLsbs s (emitBytes bytes s) := by
  by_cases hf : s.overfull
  · rw [emitBytes_of_overfull hf]
    exact .of_pix_eq rfl
  · obtain ⟨u, hu, -, heq⟩ := emitBytes_emits hf bytes
    have hkeeps : KeepsOutsideLsbs s u := emitted_pixel hu (not_overfull.1 hf) (by omega)
    rw [heq]
    split
    · exact hkeeps
    · exact hkeeps

theorem not_decode_of_encode {s : State} (hr : s.Running .encode) (hd : s.status.op = .decode) : False :=
  nomatch hr.2.symm.trans hd

/-- A busy block has only its engine and the reset to write a sample. -/
theorem step_keepsOutsideLsbs {s t : State} (hinv : s.Inv) (hb : s.status.busy = true)
    (hne : s.inputs.head? ≠ some (.host .reset)) (h : step s = .next t) :
    KeepsOutsideLsbs s t ∧ (s.status.op = .decode → t.pix = s.pix) := by
  cases step_cases h with
  | nothing | read => exact ⟨.of_pix_eq rfl, fun _ => rfl⟩
  | npix _ hi | mlen _ hi | pix _ _ hi | msg _ _ hi | out _ _ hi | start _ _ hi => simp [hi] at hb
  | reset hh => exact absurd hh hne
  | completeEncode hr =>
    exact ⟨completeEncode_keepsOutsideLsbs s.popped, fun hd => (not_decode_of_encode hr hd).elim⟩
  | encodeBeat hr => exact ⟨encodeBeat_keepsOutsideLsbs s.popped, fun hd => (not_decode_of_encode hr hd).elim⟩
  | emit i hr =>
    exact ⟨emitBytes_keepsOutsideLsbs (s := s.popped) (inv_encode_fits (popped_inv hinv) hr) _,
      fun hd => (not_decode_of_encode hr hd).elim⟩
  | completeDecode => exact ⟨.of_pix_eq (completeDecode_pix _), fun _ => completeDecode_pix _⟩
  | decodeBeat => exact ⟨.of_pix_eq (decodeBeat_pix _), fun _ => decodeBeat_pix _⟩
  | take => exact ⟨.of_pix_eq (takeBytes_pix _ _), fun _ => takeBytes_pix _ _⟩
  | tail => exact ⟨.of_pix_eq rfl, fun _ => rfl⟩

/-- Settles O21: the engine always answers a next state, and by the inversion of a step it writes what rule R69 allows. -/
theorem engineWritesStayInsideTheBuffer : Obligations.EngineWritesStayInsideTheBuffer := by
  intro s hinv hb hin
  obtain ⟨t, ht⟩ := step_engine_next hb hin
  have hne : s.inputs.head? ≠ some (.host .reset) := by
    rcases hin with hin | ⟨e, rest, hin⟩ <;> rw [hin] <;> exact nofun
  obtain ⟨⟨above, upper, alpha⟩, decode⟩ := step_keepsOutsideLsbs hinv hb hne ht
  exact ⟨t, ht, above, upper, alpha, decode⟩

end Sys2Proof.Machine
end
